-- ==== Sys2Proof/Word.lean ====
section
/-! DEFINITION. The words of the block: a 32-bit host word, an 8-bit buffer byte, a 24-bit host address (spec 00_scope.md R5, R8; 20_memory.md R60). -/

namespace Sys2Proof

/-- One location of the host interface, one symbol, one count (R5: `SYM_W = FREQ_W = 32`). -/
abbrev Word := BitVec 32

/-- One byte of the packed buffer (R37). -/
abbrev Byte := BitVec 8

/-- A word address of the host interface (R60). -/
abbrev Addr := BitVec 24

end Sys2Proof
end

