-- ==== Sys2Proof/Config.lean ====
section
/-! DEFINITION. The configuration of the block (the open capacities of spec 00_scope.md R5 and what R6 derives from them) and the free values of cells that nothing has written (10_state.md R46). -/

namespace Sys2Proof

/-- The three open parameters of R5. They are fixed when the block is built (R47). -/
structure Config where
  /-- `N_MAX`: capacity of `FREQ` and `CODE` in entries. -/
  nMax : Nat
  /-- `TEXT_MAX`: capacity of `TXT` in symbols. -/
  textMax : Nat
  /-- `BUF_MAX`: capacity of `BUF` in bytes. -/
  bufMax : Nat
deriving DecidableEq, Repr

namespace Config

/-- `NODE_MAX = 2*N_MAX - 1` (R6). -/
def nodeMax (c : Config) : Nat := 2 * c.nMax - 1

/-- `CODE_MAX = max(1, N_MAX - 1)`, the largest legal code length (R6). -/
def codeMax (c : Config) : Nat := max 1 (c.nMax - 1)

/-- `CW = ceil(CODE_MAX / 32)`, the words that hold a code's bits (R6). -/
def cw (c : Config) : Nat := (c.codeMax + 31) / 32

/-- `CSHIFT = log2(CSTRIDE)` (R6), the least exponent whose power of two is at least `2 + CW`. -/
def cshift (c : Config) : Nat := Nat.log2 (1 + c.cw) + 1

/-- `CSTRIDE`, the smallest power of two that is at least `2 + CW` (R6). -/
def cstride (c : Config) : Nat := 2 ^ c.cshift

/-- `CFG-REF` of R7. -/
def ref : Config := { nMax := 256, textMax := 65536, bufMax := 65536 }

/-- `CFG-TINY` of R7. -/
def tiny : Config := { nMax := 4, textMax := 8, bufMax := 2 }

end Config

/-- The storage cells that can be unwritten, one name for each field of each table, and one for the words of the window
through which the host reads the arena (R46). -/
inductive Space where
  | txt
  | buf
  | freq
  | code
  | nodeFreq
  | nodeLeaf
  | nodeSym
  | nodeLeft
  | nodeRight
  | nodeWindow
deriving DecidableEq, Repr

/-- What a cell that nothing has written since reset reads as: any value (R46, U1).
The first argument is the number of the transaction that reads it, so two reads need not agree; the others name the
cell. Nothing constrains it (log entry 2). A narrower cell takes the low bits. -/
opaque Config.freeCell : Nat → Space → Nat → Word

end Sys2Proof
end

