-- ==== Sys2Proof/Syntax.lean ====
section
/-! DEFINITION. The commands of the block, one constructor for each row of spec/opcode_table.json (30_encoding.md R92), and the host's transactions (20_memory.md R60). -/

namespace Sys2Proof

/-- A command (R92). Operands are implicit (R94); the one field of a command word that a program chooses is the strict
flag `S` of `DECODE` (R91). -/
inductive Instr where
  /-- `NOP` (R230). -/
  | nop
  /-- `COUNT` (R110). -/
  | count
  /-- `BUILD` (R130). -/
  | build
  /-- `GEN` (R160). -/
  | gen
  /-- `ENCODE` (R180). -/
  | encode
  /-- `DECODE` with `S = 0`, `DECODE.S` with `S = 1` (R200). -/
  | decode (strict : Bool)
  /-- `CLEAR` (R231). -/
  | clear
deriving DecidableEq, Repr

/-- One transaction of the host interface (R60). -/
inductive Transaction where
  /-- `Read(addr)`. -/
  | read (addr : Addr)
  /-- `Write(addr, wdata)`. -/
  | write (addr : Addr) (wdata : Word)
deriving DecidableEq, Repr

end Sys2Proof
end

