-- ==== Sys2Proof/WellFormed.lean ====
section
/-! DEFINITION. Which terms are well-formed: the constraints a configuration must meet (spec 00_scope.md R5, R7) and the reserved-field rule of a command word (30_encoding.md R91, R93). -/

namespace Sys2Proof

/-- R5 and R7: every capacity is at least one and every object fits its host window of `2^20` addresses. -/
structure Config.WellFormed (c : Config) : Prop where
  nMax_pos : 1 ≤ c.nMax
  textMax_pos : 1 ≤ c.textMax
  bufMax_pos : 1 ≤ c.bufMax
  text_fits : c.textMax ≤ 2 ^ 20
  buf_fits : c.bufMax ≤ 2 ^ 20
  node_fits : 4 * c.nodeMax ≤ 2 ^ 20
  code_fits : c.nMax * c.cstride ≤ 2 ^ 20

/-- The checks of `Config.WellFormed` as a test that runs. -/
def Config.wf (c : Config) : Bool :=
  decide (1 ≤ c.nMax) && decide (1 ≤ c.textMax) && decide (1 ≤ c.bufMax)
    && decide (c.textMax ≤ 2 ^ 20) && decide (c.bufMax ≤ 2 ^ 20)
    && decide (4 * c.nodeMax ≤ 2 ^ 20) && decide (c.nMax * c.cstride ≤ 2 ^ 20)

/-- The fields of a command word of format `C` before any rule has been applied to them (R90). -/
structure CommandFields where
  /-- `OP`, bits 3:0. -/
  op : BitVec 4
  /-- `RSV0`, bits 7:4. -/
  rsv0 : BitVec 4
  /-- `S`, bit 8. -/
  s : Bool
  /-- `RSV1`, bits 31:9. -/
  rsv1 : BitVec 23
deriving DecidableEq, Repr

/-- A command word is legal when none of the four conditions of R93 holds. -/
def CommandFields.wf (f : CommandFields) : Bool :=
  f.rsv1 == 0 && f.rsv0 == 0 && !(decide (0x6 ≤ f.op) && decide (f.op ≤ 0xE)) && !(f.s && f.op != 0x5)

end Sys2Proof
end

