-- ==== Sys2Proof/Decode.lean ====
section
/-! DEFINITION. Decoding a command word, total and rejecting by name, and the encoder (spec 30_encoding.md R90 to R99). -/

namespace Sys2Proof

/-- Why a word is no command: R93 gives the one name, illegal, with the word. -/
inductive DecodeError where
  | illegalCommand (w : Word)
deriving DecidableEq, Repr

/-- The fields of a command word (R90). -/
def fieldsOf (w : Word) : CommandFields :=
  { op := w.extractLsb' 0 4, rsv0 := w.extractLsb' 4 4, s := w.getLsbD 8, rsv1 := w.extractLsb' 9 23 }

/-- A row of the opcode map of R92: a word `w` is the command when `w &&& mask = pattern`. -/
structure OpcodeRow where
  mnemonic : String
  pattern : Word
  mask : Word
deriving DecidableEq, Repr

/-- The opcode map of R92, in the table's order. -/
def opcodeMap : List OpcodeRow :=
  [ ⟨"NOP", 0x00000000, 0xFFFFFFFF⟩,
    ⟨"COUNT", 0x00000001, 0xFFFFFFFF⟩,
    ⟨"BUILD", 0x00000002, 0xFFFFFFFF⟩,
    ⟨"GEN", 0x00000003, 0xFFFFFFFF⟩,
    ⟨"ENCODE", 0x00000004, 0xFFFFFFFF⟩,
    ⟨"DECODE", 0x00000005, 0xFFFFFEFF⟩,
    ⟨"CLEAR", 0x0000000F, 0xFFFFFFFF⟩ ]

/-- The test of R92. -/
def OpcodeRow.accepts (r : OpcodeRow) (w : Word) : Bool := w &&& r.mask == r.pattern

/-- The command of a row, with `S = w[8]` for `DECODE` (R99). The opcode is `pattern[3:0]` (R91). -/
def OpcodeRow.instr (r : OpcodeRow) (w : Word) : Option Instr :=
  match (r.pattern.extractLsb' 0 4).toNat with
  | 0x0 => some .nop
  | 0x1 => some .count
  | 0x2 => some .build
  | 0x3 => some .gen
  | 0x4 => some .encode
  | 0x5 => some (.decode (w.getLsbD 8))
  | 0xF => some .clear
  | _ => none

/-- Decoding is total (R99): the row that accepts the word gives the command, and where no row does the word is
illegal. -/
def decode (w : Word) : Except DecodeError Instr :=
  match opcodeMap.find? (fun r => r.accepts w) with
  | none => .error (.illegalCommand w)
  | some r =>
    match r.instr w with
    | none => .error (.illegalCommand w)
    | some i => .ok i

/-- The opcode of a command (R92). -/
def Instr.op : Instr → BitVec 4
  | .nop => 0x0
  | .count => 0x1
  | .build => 0x2
  | .gen => 0x3
  | .encode => 0x4
  | .decode _ => 0x5
  | .clear => 0xF

/-- The strict flag of a command: 0 with every opcode but `DECODE` (R91). -/
def Instr.strictFlag : Instr → Bool
  | .nop => false
  | .count => false
  | .build => false
  | .gen => false
  | .encode => false
  | .decode strict => strict
  | .clear => false

/-- The fields of a command's word: the reserved ones are 0 (R90, R91). -/
def Instr.fields (i : Instr) : CommandFields :=
  { op := i.op, rsv0 := 0, s := i.strictFlag, rsv1 := 0 }

/-- The word with the given fields, in the bit positions of R90. -/
def wordOf (f : CommandFields) : Word := f.rsv1 ++ BitVec.ofBool f.s ++ f.rsv0 ++ f.op

/-- The word the host writes to `CMD` to issue a command (R90, R92). -/
def encode (i : Instr) : Word := wordOf i.fields

/-- What the decoder reads from a command whose bits are `w`. A command is one 32-bit word (R95); bits above `nbits`
are 0, and a number that does not fit a command word is none. -/
def decodeTableWord (nbits w : Nat) : Option Instr :=
  if w % 2 ^ nbits < 2 ^ 32 then
    match decode (BitVec.ofNat 32 (w % 2 ^ nbits)) with
    | .ok i => some i
    | .error _ => none
  else none

end Sys2Proof
end

