-- ==== Sys2Proof/Machine/State.lean ====
section
/-! DEFINITION. The architectural state of the block (spec 10_state.md), the reasons a step could stop, the typed errors of 60_exceptions.md R240, and the state after reset (R45). -/

namespace Sys2Proof.Machine

/-- No transaction stops the block: "every host transaction is always enabled and every command ends" (spec
93_implementation_defined.md, R233, R61), and no access faults (R80). So there is no reason to fault, and the type has
no constructor: nothing raises one, which is safe. A typed error of R240 is a next state, not a fault. -/
inductive Fault where
deriving DecidableEq, Repr

/-- Why the model gives an instruction no meaning. -/
inductive Refusal where
  /-- Raised by an arm of `exec` that has no meaning yet; safe. No arm raises it. -/
  | notModelled (mnemonic : String)
deriving DecidableEq, Repr

/-- Sub-codes of `OperandError` (R241). -/
inductive OperandSub where
  | length
  | dupSym
  | codeLen
  | codeBits
  | prefixed
  | noTree
  | padRange
deriving DecidableEq, Repr

/-- Sub-codes of `CapacityError` (R242). -/
inductive CapacitySub where
  | symbols
  | freqSum
  | buffer
  | text
deriving DecidableEq, Repr

/-- The typed failures of a command (R240), each with what goes into its information word (R243). -/
inductive CmdError where
  /-- Code 1, raised by `BUILD`. -/
  | emptyAlphabet
  /-- Code 2, raised by `ENCODE`; the index of the first unknown symbol. -/
  | unknownSymbol (index : Nat)
  /-- Code 3, raised by `DECODE.S`; the bit index of the first trailing bit. -/
  | corruptStream (start : Nat)
  /-- Code 4, raised by a write of an illegal word to `CMD`; the word. -/
  | illegalCommand (w : Word)
  /-- Code 5. -/
  | capacity (sub : CapacitySub)
  /-- Code 6; the information word of R241. -/
  | operand (sub : OperandSub) (info : Nat)
deriving DecidableEq, Repr

/-- An entry of the node arena (R31). -/
structure NodeEntry where
  freq : Word
  leaf : Bool
  sym : Word
  left : Word
  right : Word
deriving DecidableEq, Repr

/-- A storage space as the list of its written cells, by rising index (`Memory.wf` in Machine/Ops.lean). An index that
is not listed has not been written since reset and holds no defined value (R46). -/
abbrev Memory (α : Type) := List (Nat × α)

/-- The state of the block and of its host interface. The registers are those of R22; `CMD` keeps nothing (R23) and the
`CFG_*` registers are read out of `cfg` (R35). -/
structure State where
  /-- The configuration, a parameter of the model (R47) carried here because a step has no other argument; no step
  changes it (log entry 1). -/
  cfg : Config
  /-- `STATUS[8:0]` (R24). -/
  status : BitVec 9
  /-- `ERRINFO` (R25). -/
  errinfo : Word
  /-- `TXT_LEN` (R26). -/
  txtLen : Word
  /-- `BUF_LEN` (R27). -/
  bufLen : Word
  /-- `PAD[2:0]` (R28). -/
  pad : BitVec 3
  /-- `FREQ_N` (R29). -/
  freqN : Word
  /-- `CODE_N` (R30). -/
  codeN : Word
  /-- `NODE_N` (R31). -/
  nodeN : Word
  /-- `ROOT` (R31). -/
  root : Word
  /-- `TXT`: cell `i` is symbol `i` (R36). -/
  txt : Memory Word
  /-- `BUF`: cell `j` is byte `j` (R37). -/
  buf : Memory Byte
  /-- `FREQ` by word: `FREQ[i].sym` is cell `2*i`, `FREQ[i].count` is cell `2*i + 1` (R29, R66). -/
  freq : Memory Word
  /-- `NODE` by entry (R31). -/
  node : Memory NodeEntry
  /-- `CODE` by word: word `j` of entry `i` is cell `i*CSTRIDE + j` (R30, R68). -/
  code : Memory Word
  /-- The host's transactions that are still to be made, oldest first (R60; log entry 3). -/
  pending : List Transaction
  /-- The values the host's reads have returned, oldest first (R232, R233; log entry 3). -/
  returned : List Word
  /-- How many transactions have been made; it only keeps the free values of R46 apart (log entry 2). -/
  stamp : Nat
deriving DecidableEq, Repr

/-- The state after reset of a block built with configuration `c` (R45, R270): every register 0, every cell unwritten.
No transaction has been made and none is waiting. -/
def State.resetWith (c : Config) : State :=
  { cfg := c
    status := 0
    errinfo := 0
    txtLen := 0
    bufLen := 0
    pad := 0
    freqN := 0
    codeN := 0
    nodeN := 0
    root := 0
    txt := []
    buf := []
    freq := []
    node := []
    code := []
    pending := []
    returned := []
    stamp := 0 }

/-- The state after reset. The configuration is the spec's reference configuration (R7; DESIGN CHOICE, log entry 1);
every statement about another configuration is about `State.resetWith`. -/
def State.reset : State := State.resetWith Config.ref

end Sys2Proof.Machine
end

