-- ==== Sys2Proof/Machine/Flags.lean ====
section
/-! DEFINITION. What a command leaves in `STATUS` and `ERRINFO` (spec 10_state.md R24, R25; 60_exceptions.md R240 to R243, R247). -/

namespace Sys2Proof.Machine

/-- `STATUS.SUB` of an `OperandError` (R241). -/
def OperandSub.code : OperandSub → BitVec 4
  | .length => 1
  | .dupSym => 2
  | .codeLen => 3
  | .codeBits => 4
  | .prefixed => 5
  | .noTree => 6
  | .padRange => 7

/-- `STATUS.SUB` of a `CapacityError` (R242). -/
def CapacitySub.code : CapacitySub → BitVec 4
  | .symbols => 1
  | .freqSum => 2
  | .buffer => 3
  | .text => 4

/-- `STATUS.ERR` of a failing command (R240). -/
def CmdError.code : CmdError → BitVec 4
  | .emptyAlphabet => 1
  | .unknownSymbol _ => 2
  | .corruptStream _ => 3
  | .illegalCommand _ => 4
  | .capacity _ => 5
  | .operand _ _ => 6

/-- `STATUS.SUB` of a failing command, 0 for the codes 1 to 4 (R243). -/
def CmdError.sub : CmdError → BitVec 4
  | .emptyAlphabet => 0
  | .unknownSymbol _ => 0
  | .corruptStream _ => 0
  | .illegalCommand _ => 0
  | .capacity sub => sub.code
  | .operand sub _ => sub.code

/-- `ERRINFO` of a failing command (R240 to R243). -/
def CmdError.info : CmdError → Word
  | .emptyAlphabet => 0
  | .unknownSymbol index => BitVec.ofNat 32 index
  | .corruptStream start => BitVec.ofNat 32 start
  | .illegalCommand w => w
  | .capacity _ => 0
  | .operand _ info => BitVec.ofNat 32 info

/-- `STATUS` from its fields: `ERR` in [3:0], `SUB` in [7:4], `WARN` in [8] (R24). -/
def statusWord (warn : Bool) (sub err : BitVec 4) : BitVec 9 := BitVec.ofBool warn ++ sub ++ err

/-- `STATUS.ERR` (R24). -/
def errField (status : BitVec 9) : BitVec 4 := status.extractLsb' 0 4

/-- `STATUS.SUB` (R24). -/
def subField (status : BitVec 9) : BitVec 4 := status.extractLsb' 4 4

/-- `STATUS.WARN` (R24). -/
def warnField (status : BitVec 9) : Bool := status.getLsbD 8

/-- `STATUS` after a failing command: its code, its sub-code, `WARN = 0` (R243). -/
def CmdError.status (e : CmdError) : BitVec 9 := statusWord false e.sub e.code

/-- `STATUS` after a successful command without a warning. -/
def statusOk : BitVec 9 := statusWord false 0 0

/-- `STATUS` after a `DECODE` that discarded trailing bits that are not clean: 0x100 (R206, R247). -/
def statusWarn : BitVec 9 := statusWord true 0 0

end Sys2Proof.Machine
end

