-- ==== Sys2Proof/Machine/Ops.lean ====
section
/-! DEFINITION. The shared operations: storage spaces, cells and registers, the host's locations, the entry of a typed error and the end of a successful command (spec 10_state.md, 20_memory.md R62 to R79, 60_exceptions.md R248). -/

namespace Sys2Proof.Machine

/-! ## Storage spaces -/

/-- The canonical form of a space: indices strictly rising, so equal contents are equal lists. An unlisted index has no
value of its own, so no listed entry is redundant. -/
abbrev Memory.wf {α : Type} (m : Memory α) : Prop := m.Pairwise (fun p q => p.1 < q.1)

/-- The value written at an index, if one has been (R46, R74). -/
def Memory.read? {α : Type} : Memory α → Nat → Option α
  | [], _ => none
  | (i, v) :: m, a => if i = a then some v else Memory.read? m a

/-- Writing one cell (R73): its earlier value is replaced and every other cell is left. -/
def Memory.write {α : Type} : Memory α → Nat → α → Memory α
  | [], a, v => [(a, v)]
  | (i, w) :: m, a, v =>
    if a < i then (a, v) :: (i, w) :: m
    else if a = i then (a, v) :: m
    else (i, w) :: Memory.write m a v

/-- Writing consecutive cells from `base` on. -/
def Memory.writeFrom {α : Type} (m : Memory α) (base : Nat) : List α → Memory α
  | [] => m
  | v :: vs => Memory.writeFrom (m.write base v) (base + 1) vs

/-! ## Cells: what a read of one returns, any value where nothing has been written (R46) -/

/-- A cell of 32 bits of the space `sp`. -/
def State.cell (s : State) (sp : Space) (m : Memory Word) (i : Nat) : Word :=
  (m.read? i).getD (Config.freeCell s.stamp sp i)

/-- `MemRead(TXT, i)` (R10, R36). -/
def State.txtCell (s : State) (i : Nat) : Word := s.cell .txt s.txt i

/-- `MemRead(BUF, j)` (R10, R37): 8 bits. -/
def State.bufCell (s : State) (j : Nat) : Byte :=
  (s.buf.read? j).getD ((Config.freeCell s.stamp .buf j).setWidth 8)

/-- Word `f` of `FREQ[i]`: 0 is `sym`, 1 is `count` (R29, R66). -/
def State.freqCell (s : State) (i f : Nat) : Word := s.cell .freq s.freq (2 * i + f)

/-- Where word `j` of `CODE[i]` is kept (R68). -/
def Config.codeKey (c : Config) (i j : Nat) : Nat := i * c.cstride + j

/-- Word `j` of `CODE[i]`: 0 is `sym`, 1 is `len`, `2 + w` is word `w` of `bits` (R30, R68). -/
def State.codeCell (s : State) (i j : Nat) : Word := s.cell .code s.code (Config.codeKey s.cfg i j)

/-- `NODE[k]` (R31). An entry that nothing has written holds any value in each field, one bit of it in `leaf` (R46). -/
def State.nodeEntry (s : State) (k : Nat) : NodeEntry :=
  (s.node.read? k).getD
    { freq := Config.freeCell s.stamp .nodeFreq k
      leaf := (Config.freeCell s.stamp .nodeLeaf k).getLsbD 0
      sym := Config.freeCell s.stamp .nodeSym k
      left := Config.freeCell s.stamp .nodeLeft k
      right := Config.freeCell s.stamp .nodeRight k }

/-- Word `f` of a node entry in the host's window (R67). -/
def NodeEntry.word (e : NodeEntry) (f : Nat) : Word :=
  match f with
  | 0 => e.freq
  | 1 => (BitVec.ofBool e.leaf).setWidth 32
  | 2 => if e.leaf then e.sym else e.left
  | _ => if e.leaf then 0 else e.right

/-- What the host reads as word `f` of `NODE[k]`: of an entry that nothing has written, any value, of which `KIND` keeps
bit 0 (R46, R67; 93_implementation_defined.md U17). -/
def State.nodeWord (s : State) (k f : Nat) : Word :=
  match s.node.read? k with
  | some e => e.word f
  | none =>
    if f = 1 then Config.freeCell s.stamp .nodeWindow (4 * k + f) &&& 1
    else Config.freeCell s.stamp .nodeWindow (4 * k + f)

/-! ## Control registers (R22) -/

/-- The control registers by name. -/
inductive Reg where
  | cmd
  | status
  | errinfo
  | txtLen
  | bufLen
  | pad
  | freqN
  | codeN
  | nodeN
  | root
  | cfgNMax
  | cfgTextMax
  | cfgBufMax
deriving DecidableEq, Repr

/-- The offset of a register in region 0 (R22). -/
def Reg.offset : Reg → Nat
  | .cmd => 0x0
  | .status => 0x1
  | .errinfo => 0x2
  | .txtLen => 0x3
  | .bufLen => 0x4
  | .pad => 0x5
  | .freqN => 0x6
  | .codeN => 0x7
  | .nodeN => 0x8
  | .root => 0x9
  | .cfgNMax => 0xA
  | .cfgTextMax => 0xB
  | .cfgBufMax => 0xC

/-- The registers in the order of their offsets. -/
def Reg.all : List Reg :=
  [.cmd, .status, .errinfo, .txtLen, .bufLen, .pad, .freqN, .codeN, .nodeN, .root, .cfgNMax, .cfgTextMax, .cfgBufMax]

/-- The register at an offset of region 0, if there is one (R63). -/
def Reg.at? (off : Nat) : Option Reg := Reg.all.find? (fun r => r.offset == off)

/-- What a host read of a register returns: its kept bits, zero-extended (R63); `CMD` reads 0 (R23); the `CFG_*`
registers read the configuration (R35). -/
def State.readReg (s : State) : Reg → Word
  | .cmd => 0
  | .status => s.status.setWidth 32
  | .errinfo => s.errinfo
  | .txtLen => s.txtLen
  | .bufLen => s.bufLen
  | .pad => s.pad.setWidth 32
  | .freqN => s.freqN
  | .codeN => s.codeN
  | .nodeN => s.nodeN
  | .root => s.root
  | .cfgNMax => BitVec.ofNat 32 s.cfg.nMax
  | .cfgTextMax => BitVec.ofNat 32 s.cfg.textMax
  | .cfgBufMax => BitVec.ofNat 32 s.cfg.bufMax

/-- What a host write stores in a register: the kept bits of a read-write register (R63), nothing in a read-only one
(R79), nothing in `CMD` (R23; running the command is `State.runCommand`). -/
def State.writeReg (s : State) (r : Reg) (v : Word) : State :=
  match r with
  | .cmd => s
  | .status => s
  | .errinfo => s
  | .txtLen => { s with txtLen := v }
  | .bufLen => { s with bufLen := v }
  | .pad => { s with pad := v.setWidth 3 }
  | .freqN => { s with freqN := v }
  | .codeN => { s with codeN := v }
  | .nodeN => s
  | .root => s
  | .cfgNMax => s
  | .cfgTextMax => s
  | .cfgBufMax => s

/-! ## The host's locations (R62 to R69) -/

/-- A location of the host's address space that is not reserved. The names are those of the host script (R96):
`nodeKind`, `nodeA`, `nodeB` are words 1 to 3 of a node entry. -/
inductive Loc where
  | reg (r : Reg)
  | txt (i : Nat)
  | buf (j : Nat)
  | freqSym (i : Nat)
  | freqCount (i : Nat)
  | nodeFreq (k : Nat)
  | nodeKind (k : Nat)
  | nodeA (k : Nat)
  | nodeB (k : Nat)
  | codeSym (i : Nat)
  | codeLen (i : Nat)
  | codeBits (i w : Nat)
deriving DecidableEq, Repr

/-- Whether a block of configuration `c` has the location: the valid offsets of R62. -/
def Loc.valid (c : Config) : Loc → Bool
  | .reg _ => true
  | .txt i => decide (i < c.textMax)
  | .buf j => decide (j < c.bufMax)
  | .freqSym i => decide (i < c.nMax)
  | .freqCount i => decide (i < c.nMax)
  | .nodeFreq k => decide (k < c.nodeMax)
  | .nodeKind k => decide (k < c.nodeMax)
  | .nodeA k => decide (k < c.nodeMax)
  | .nodeB k => decide (k < c.nodeMax)
  | .codeSym i => decide (i < c.nMax)
  | .codeLen i => decide (i < c.nMax)
  | .codeBits i w => decide (i < c.nMax) && decide (w < c.cw)

/-- The region and the offset of a location (R63 to R68). -/
def Loc.place (c : Config) : Loc → Nat × Nat
  | .reg r => (0x0, r.offset)
  | .txt i => (0x1, i)
  | .buf j => (0x2, j)
  | .freqSym i => (0x3, 2 * i)
  | .freqCount i => (0x3, 2 * i + 1)
  | .nodeFreq k => (0x4, 4 * k)
  | .nodeKind k => (0x4, 4 * k + 1)
  | .nodeA k => (0x4, 4 * k + 2)
  | .nodeB k => (0x4, 4 * k + 3)
  | .codeSym i => (0x5, Config.codeKey c i 0)
  | .codeLen i => (0x5, Config.codeKey c i 1)
  | .codeBits i w => (0x5, Config.codeKey c i (2 + w))

/-- The address of a location, `region = addr[23:20]` and `off = addr[19:0]` (R62). -/
def Loc.addr (c : Config) (l : Loc) : Addr :=
  BitVec.ofNat 24 ((l.place c).1 * 2 ^ 20 + (l.place c).2)

/-- The location at offset `off` of region `FREQ` (R66). -/
def locateFreq (off : Nat) : Loc :=
  if off % 2 = 0 then .freqSym (off / 2) else .freqCount (off / 2)

/-- The location at offset `off` of region `NODE` (R67). -/
def locateNode (off : Nat) : Loc :=
  if off % 4 = 0 then .nodeFreq (off / 4)
  else if off % 4 = 1 then .nodeKind (off / 4)
  else if off % 4 = 2 then .nodeA (off / 4)
  else .nodeB (off / 4)

/-- The location at offset `off` of region `CODE` (R68). -/
def locateCode (c : Config) (off : Nat) : Loc :=
  if off % c.cstride = 0 then .codeSym (off / c.cstride)
  else if off % c.cstride = 1 then .codeLen (off / c.cstride)
  else .codeBits (off / c.cstride) (off % c.cstride - 2)

/-- What an address names; `none` is a reserved address (R62 to R69). -/
def locate (c : Config) (a : Addr) : Option Loc :=
  let region := a.toNat / 2 ^ 20
  let off := a.toNat % 2 ^ 20
  if region = 0x0 then (Reg.at? off).map .reg
  else if region = 0x1 then if off < c.textMax then some (.txt off) else none
  else if region = 0x2 then if off < c.bufMax then some (.buf off) else none
  else if region = 0x3 then if off < 2 * c.nMax then some (locateFreq off) else none
  else if region = 0x4 then if off < 4 * c.nodeMax then some (locateNode off) else none
  else if region = 0x5 then
    if off < c.nMax * c.cstride ∧ off % c.cstride < 2 + c.cw then some (locateCode c off) else none
  else none

/-- What a host read of a location returns (R63 to R68). -/
def State.readLoc (s : State) : Loc → Word
  | .reg r => s.readReg r
  | .txt i => s.txtCell i
  | .buf j => (s.bufCell j).setWidth 32
  | .freqSym i => s.freqCell i 0
  | .freqCount i => s.freqCell i 1
  | .nodeFreq k => s.nodeWord k 0
  | .nodeKind k => s.nodeWord k 1
  | .nodeA k => s.nodeWord k 2
  | .nodeB k => s.nodeWord k 3
  | .codeSym i => s.codeCell i 0
  | .codeLen i => s.codeCell i 1
  | .codeBits i w => s.codeCell i (2 + w)

/-- What a host write to a location other than `CMD` does: it stores one register or cell; the node arena is read-only
(R63 to R68, R79). -/
def State.writeLoc (s : State) (l : Loc) (v : Word) : State :=
  match l with
  | .reg r => s.writeReg r v
  | .txt i => { s with txt := s.txt.write i v }
  | .buf j => { s with buf := s.buf.write j (v.setWidth 8) }
  | .freqSym i => { s with freq := s.freq.write (2 * i) v }
  | .freqCount i => { s with freq := s.freq.write (2 * i + 1) v }
  | .nodeFreq _ => s
  | .nodeKind _ => s
  | .nodeA _ => s
  | .nodeB _ => s
  | .codeSym i => { s with code := s.code.write (Config.codeKey s.cfg i 0) v }
  | .codeLen i => { s with code := s.code.write (Config.codeKey s.cfg i 1) v }
  | .codeBits i w => { s with code := s.code.write (Config.codeKey s.cfg i (2 + w)) v }

/-- The value of `Read(addr)`: 0 at a reserved address (R69, R232). -/
def State.hostRead (s : State) (a : Addr) : Word :=
  match locate s.cfg a with
  | some l => s.readLoc l
  | none => 0

/-- The effect of `Write(addr, v)` where `addr` is not `CMD`: nothing at a reserved address (R69, R233). -/
def State.hostWrite (s : State) (a : Addr) (v : Word) : State :=
  match locate s.cfg a with
  | some l => s.writeLoc l v
  | none => s

/-! ## The end of a command -/

/-- Taking a typed error (R248): `STATUS` and `ERRINFO` are written as R243 says and nothing else changes. -/
def State.raise (s : State) (e : CmdError) : State :=
  { s with status := e.status, errinfo := e.info }

/-- `STATUS <- 0; ERRINFO <- 0`, part of every `commit` without a warning (R10). There is nothing to return from: the
next command overwrites both (R249). -/
def State.succeed (s : State) : State :=
  { s with status := statusOk, errinfo := 0 }

/-- `STATUS <- 0x100; ERRINFO <- start`: a success that warns (R206, R247). -/
def State.succeedWarning (s : State) (start : Nat) : State :=
  { s with status := statusWarn, errinfo := BitVec.ofNat 32 start }

/-- The outcome of a command that either commits or raises: a next state in both cases (R10, R248). -/
def State.conclude (s : State) (r : Except CmdError State) : Host.Outcome State Fault Refusal :=
  match r with
  | .ok t => .next t
  | .error e => .next (s.raise e)

end Sys2Proof.Machine
end

