-- ==== Sys2Proof/Machine/Operands.lean ====
section
/-! DEFINITION. The objects a command takes as operands (spec 30_encoding.md R94, 20_memory.md R77), bit strings and codes (00_scope.md R9), and the checks of the tables (10_state.md R32, R33). A command reads each cell of its operand once (log entry 2). -/

namespace Sys2Proof.Machine

/-! ## Codes and bit strings (R9) -/

/-- A code as the pair `(len, bits)` (R9). -/
structure Code where
  len : Nat
  bits : Nat
deriving DecidableEq, Repr

/-- The empty bit string. -/
def Code.empty : Code := { len := 0, bits := 0 }

/-- Appending a bit: `bits <- (bits << 1) | b; len <- len + 1` (R9). -/
def Code.append (c : Code) (b : Bool) : Code :=
  { len := c.len + 1, bits := (c.bits <<< 1) ||| b.toNat }

/-- `str(len, bits)`: bit `t` of the string is `bits[len-1-t]` (R9). -/
def Code.str (c : Code) : List Bool := (List.range c.len).map fun t => c.bits.testBit (c.len - 1 - t)

/-- The code of a bit string, first bit first (R9, R161). -/
def Code.ofBits (bs : List Bool) : Code := bs.foldl Code.append Code.empty

/-- `prefix(c, d)` (R9): true also when the codes are equal. -/
def Code.leads (c d : Code) : Bool := decide (c.len ≤ d.len) && d.bits >>> (d.len - c.len) == c.bits

/-- The natural number held in words, least significant word first (R71). -/
def wordsToNat : List Word → Nat
  | [] => 0
  | w :: ws => w.toNat + 2 ^ 32 * wordsToNat ws

/-- The `n` words of a number, least significant first: word `w` is `bits[32w+31 : 32w]` (R30). -/
def natToWords : Nat → Nat → List Word
  | 0, _ => []
  | n + 1, b => BitVec.ofNat 32 b :: natToWords n (b >>> 32)

/-! ## The objects -/

/-- An entry of the frequency table (R29). -/
structure FreqEntry where
  sym : Word
  count : Nat
deriving DecidableEq, Repr

/-- An entry of the code table (R30). -/
structure CodeEntry where
  sym : Word
  code : Code
deriving DecidableEq, Repr

/-- The text object `TXT[0 .. TXT_LEN-1]` (R26, R36). -/
def State.text (s : State) : List Word := (List.range s.txtLen.toNat).map s.txtCell

/-- `FREQ[i]` (R29). -/
def State.freqEntry (s : State) (i : Nat) : FreqEntry :=
  { sym := s.freqCell i 0, count := (s.freqCell i 1).toNat }

/-- The frequency table object `FREQ[0 .. FREQ_N-1]` (R29). -/
def State.freqTable (s : State) : List FreqEntry := (List.range s.freqN.toNat).map s.freqEntry

/-- `CODE[i]` (R30). -/
def State.codeEntry (s : State) (i : Nat) : CodeEntry :=
  { sym := s.codeCell i 0
    code :=
      { len := (s.codeCell i 1).toNat
        bits := wordsToNat ((List.range s.cfg.cw).map fun w => s.codeCell i (2 + w)) } }

/-- The code table object `CODE[0 .. CODE_N-1]` (R30). -/
def State.codeTable (s : State) : List CodeEntry := (List.range s.codeN.toNat).map s.codeEntry

/-- The tree object `NODE[0 .. NODE_N-1]` (R31). -/
def State.arena (s : State) : List NodeEntry := (List.range s.nodeN.toNat).map s.nodeEntry

/-- `bit(k) = MemRead(BUF, k / 8)[7 - (k mod 8)]` (R70, R202). -/
def State.bufferBit (s : State) (k : Nat) : Bool := (s.bufCell (k / 8)).getLsbD (7 - k % 8)

/-- The `8*BUF_LEN` bits of the packed buffer (R201, R202). -/
def State.bufferBits (s : State) : List Bool := (List.range (8 * s.bufLen.toNat)).map s.bufferBit

/-! ## Writing a table back -/

/-- The words of a frequency table (R66). -/
def freqWords (t : List FreqEntry) : List Word := t.flatMap fun e => [e.sym, BitVec.ofNat 32 e.count]

/-- The words of a code entry: `sym`, `len`, then `CW` words of `bits` (R68). -/
def CodeEntry.words (c : Config) (e : CodeEntry) : List Word :=
  e.sym :: BitVec.ofNat 32 e.code.len :: natToWords c.cw e.code.bits

/-- Writing code entries from entry `i` on (R68). -/
def writeCodes (c : Config) (m : Memory Word) (i : Nat) : List CodeEntry → Memory Word
  | [] => m
  | e :: es => writeCodes c (m.writeFrom (Config.codeKey c i 0) (e.words c)) (i + 1) es

/-! ## Checks -/

/-- The smallest `j < n` for which `p` holds. -/
def smallest (n : Nat) (p : Nat → Bool) : Option Nat := (List.range n).find? p

/-- The smallest `j` such that some `i < j` carries the same symbol (R241, sub-code `DUPSYM`). -/
def dupSymbol (syms : List Word) : Option Nat :=
  smallest syms.length fun j => (List.range j).any fun i => syms[i]? == syms[j]?

/-- The smallest entry with `len = 0` or `len > CODE_MAX` (R32 (2)). -/
def badLength (c : Config) (t : List CodeEntry) : Option Nat :=
  t.findIdx? fun e => decide (e.code.len = 0) || decide (c.codeMax < e.code.len)

/-- The smallest entry with `bits >= 2^len` (R32 (3)). -/
def badBits (t : List CodeEntry) : Option Nat :=
  t.findIdx? fun e => decide (2 ^ e.code.len ≤ e.code.bits)

/-- Whether entry `i` of a table leads entry `j`, two different entries (R32 (5)). -/
def leadsAt (t : List CodeEntry) (i j : Nat) : Bool :=
  match t[i]?, t[j]? with
  | some d, some e => i != j && d.code.leads e.code
  | _, _ => false

/-- The smallest `j` for which some `i ≠ j` has `prefix(CODE[i], CODE[j])` (R32 (5)). -/
def badPrefix (t : List CodeEntry) : Option Nat :=
  smallest t.length fun j => (List.range t.length).any fun i => leadsAt t i j

/-- The conditions (2) to (5) of `CodeWF`, each over the whole table before the next (R32, R246): the first that fails.
Condition (1) is a test of `CODE_N` and is made before the table is read. -/
def codeTableError (c : Config) (t : List CodeEntry) : Option CmdError :=
  match badLength c t with
  | some i => some (.operand .codeLen i)
  | none =>
    match badBits t with
    | some i => some (.operand .codeBits i)
    | none =>
      match dupSymbol (t.map (·.sym)) with
      | some j => some (.operand .dupSym j)
      | none =>
        match badPrefix t with
        | some j => some (.operand .prefixed j)
        | none => none

/-- The entry of a symbol (R181). -/
def lookup (t : List CodeEntry) (x : Word) : Option CodeEntry := t.find? fun e => e.sym == x

/-- The entry whose code is the candidate, length and bits both (R203). -/
def matchCode (t : List CodeEntry) (cand : Code) : Option CodeEntry := t.find? fun e => e.code == cand

/-- `OperandError`/`LENGTH` with the register's offset (R241). -/
def lengthError (r : Reg) : CmdError := .operand .length r.offset

end Sys2Proof.Machine
end

