-- ==== Sys2Proof/Machine/BitPacker.lean ====
section
/-! DEFINITION. BitPacker, command ENCODE (spec 43_encode.md). -/

namespace Sys2Proof.Machine

/-- The entries of the text's symbols in text order, or the index of the first symbol that has none (R181, R182). -/
def entriesOf (t : List CodeEntry) : Nat → List Word → Except CmdError (List CodeEntry)
  | _, [] => .ok []
  | i, x :: xs =>
    match lookup t x with
    | none => .error (.unknownSymbol i)
    | some e =>
      match entriesOf t (i + 1) xs with
      | .ok es => .ok (e :: es)
      | .error err => .error err

/-- The concatenated codes, in text order (R183). -/
def streamOf (es : List CodeEntry) : List Bool := es.flatMap fun e => e.code.str

/-- `ceil(total / 8)` (R185). -/
def bytesFor (total : Nat) : Nat := (total + 7) / 8

/-- The number of pad bits, `8*nbytes - total` (R184). -/
def padFor (total : Nat) : Nat := 8 * bytesFor total - total

/-- The byte whose bit `7-t` is `f t`, `t = 0 .. 7` (R70, R183). -/
def byteOf (f : Nat → Bool) : Byte :=
  BitVec.ofNat 8 ((List.range 8).foldl (fun acc t => 2 * acc + (f t).toNat) 0)

/-- The stream with its zero pad bits (R184). -/
def padded (stream : List Bool) : List Bool := stream ++ List.replicate (padFor stream.length) false

/-- The bytes of the packed stream: stream bit `8j+t` is bit `7-t` of byte `j` (R183). -/
def packBytes (stream : List Bool) : List Byte :=
  (List.range (bytesFor stream.length)).map fun j => byteOf fun t => (padded stream).getD (8 * j + t) false

/-- What a successful `ENCODE` commits (R180): bytes `0 .. nbytes-1`, `BUF_LEN` and `PAD`. -/
def State.commitBuffer (s : State) (stream : List Bool) : State :=
  { s with
    buf := s.buf.writeFrom 0 (packBytes stream)
    bufLen := BitVec.ofNat 32 (bytesFor stream.length)
    pad := BitVec.ofNat 3 (padFor stream.length) }

/-- `encode(text, CodeTable) -> bytes` (R180), the tests in its order. -/
def encodeText (s : State) : Except CmdError State :=
  if s.cfg.textMax < s.txtLen.toNat then .error (lengthError .txtLen)
  else if s.cfg.nMax < s.codeN.toNat then .error (lengthError .codeN)
  else
    match codeTableError s.cfg s.codeTable with
    | some e => .error e
    | none =>
      match entriesOf s.codeTable 0 s.text with
      | .error e => .error e
      | .ok es =>
        if s.cfg.bufMax < bytesFor (streamOf es).length then .error (.capacity .buffer)
        else .ok (s.commitBuffer (streamOf es)).succeed

/-- `ENCODE` (R180). -/
def execEncode (s : State) : Host.Outcome State Fault Refusal := s.conclude (encodeText s)

end Sys2Proof.Machine
end

