-- ==== Sys2Proof/Machine/BitUnpacker.lean ====
section
/-! DEFINITION. BitUnpacker, commands DECODE and DECODE.S (spec 44_decode.md). -/

namespace Sys2Proof.Machine

/-- What the scan holds between two bits (R200): the candidate, the symbols emitted and the index of the first bit after
the last complete code. -/
structure Scan where
  cand : Code
  out : List Word
  start : Nat
deriving DecidableEq, Repr

/-- The scan before the first bit (R200). -/
def Scan.begin : Scan := { cand := Code.empty, out := [], start := 0 }

/-- One bit of the scan, bit `k` of the buffer (R200, R203); `none` is the symbol that does not fit (R207). -/
def Scan.step (t : List CodeEntry) (cap : Nat) (sc : Scan) (k : Nat) (b : Bool) : Option Scan :=
  match matchCode t (sc.cand.append b) with
  | some e =>
    if sc.out.length = cap then none
    else some { cand := Code.empty, out := sc.out ++ [e.sym], start := k + 1 }
  | none => some { sc with cand := sc.cand.append b }

/-- The loop of R200 over the code bits, from bit `k` on. -/
def scanBits (t : List CodeEntry) (cap : Nat) : List Bool → Nat → Scan → Option Scan
  | [], _, sc => some sc
  | b :: bs, k, sc =>
    match Scan.step t cap sc k b with
    | none => none
    | some sc' => scanBits t cap bs (k + 1) sc'

/-- Whether the trailing bits are clean: at most 7 of them and all 0 (R204). -/
def cleanTail (tail : List Bool) : Bool := decide (tail.length ≤ 7) && tail.all (fun b => !b)

/-- What a successful `DECODE` commits of the text (R200): symbols `0 .. m-1` and `TXT_LEN`. -/
def State.commitText (s : State) (out : List Word) : State :=
  { s with txt := s.txt.writeFrom 0 out, txtLen := BitVec.ofNat 32 out.length }

/-- The end of the scan (R204 to R206): strict mode fails where the trailing bits are not clean, best effort warns. -/
def finishDecode (strict : Bool) (s : State) (sc : Scan) : Except CmdError State :=
  if cleanTail (s.bufferBits.drop sc.start) then .ok (s.commitText sc.out).succeed
  else if strict then .error (.corruptStream sc.start)
  else .ok ((s.commitText sc.out).succeedWarning sc.start)

/-- `decode(bytes, CodeTable) -> text` (R200), the tests in its order. -/
def decodeBuffer (strict : Bool) (s : State) : Except CmdError State :=
  if s.cfg.bufMax < s.bufLen.toNat then .error (lengthError .bufLen)
  else if s.cfg.nMax < s.codeN.toNat then .error (lengthError .codeN)
  else if 8 * s.bufLen.toNat < s.pad.toNat then .error (.operand .padRange s.pad.toNat)
  else
    match codeTableError s.cfg s.codeTable with
    | some e => .error e
    | none =>
      match scanBits s.codeTable s.cfg.textMax (s.bufferBits.take (8 * s.bufLen.toNat - s.pad.toNat)) 0 Scan.begin with
      | none => .error (.capacity .text)
      | some sc => finishDecode strict s sc

/-- `DECODE` (`strict = false`) and `DECODE.S` (`strict = true`) (R200). -/
def execDecode (strict : Bool) (s : State) : Host.Outcome State Fault Refusal := s.conclude (decodeBuffer strict s)

end Sys2Proof.Machine
end

