-- ==== Sys2Proof/Machine/CodeTableGenerator.lean ====
section
/-! DEFINITION. CodeTableGenerator, command GEN (spec 42_gen.md). -/

namespace Sys2Proof.Machine

/-- Whether node `e` has node `k` as a child, and on which side: `false` left, `true` right (R161). A leaf has no
children, whatever its index fields hold (R31). -/
def childSide (e : NodeEntry) (k : Nat) : Option Bool :=
  if e.leaf then none
  else if e.left.toNat = k then some false
  else if e.right.toNat = k then some true
  else none

/-- The parent of node `k` and the side `k` is on. In a tree of R34 there is exactly one for every node but the
root. -/
def parentOf (nd : List NodeEntry) (k : Nat) : Option (Nat × Bool) :=
  (List.range nd.length).findSome? fun p =>
    match nd[p]? with
    | some e => (childSide e k).map fun b => (p, b)
    | none => none

/-- The bits of the chain of nodes from the root to `k` (R161), found by climbing from `k`. The first argument bounds
the climb by the number of nodes; on an arena that is no tree of R34, which no run reaches, the climb ends where it
finds no parent (log entry 7). -/
def pathBits (nd : List NodeEntry) (root : Nat) : Nat → Nat → List Bool
  | 0, _ => []
  | fuel + 1, k =>
    if k = root then []
    else
      match parentOf nd k with
      | none => []
      | some (p, b) => pathBits nd root fuel p ++ [b]

/-- `path(i)` (R161). -/
def pathCode (nd : List NodeEntry) (root i : Nat) : Code := Code.ofBits (pathBits nd root nd.length i)

/-- The number of leaves, `n = (NODE_N + 1) / 2` (R160). -/
def leafCount (nodeN : Nat) : Nat := (nodeN + 1) / 2

/-- The code of leaf `i` among `n`: the string "0" where it is the only one (R162), its path otherwise (R161). -/
def leafCode (nd : List NodeEntry) (root n i : Nat) : Code :=
  if n = 1 then { len := 1, bits := 0 } else pathCode nd root i

/-- The entry of leaf `i` (R160, R166). -/
def genEntry (nd : List NodeEntry) (root n : Nat) (i : Nat) : Option CodeEntry :=
  nd[i]?.map fun e => { sym := e.sym, code := leafCode nd root n i }

/-- The table that `GEN` makes from a tree: entry `i` is the code of leaf `i` (R166). -/
def genTable (nd : List NodeEntry) (root : Nat) : List CodeEntry :=
  (List.range (leafCount nd.length)).filterMap (genEntry nd root (leafCount nd.length))

/-- What a successful `GEN` commits (R160): entries `0 .. n-1` and `CODE_N`. -/
def State.commitCodes (s : State) (t : List CodeEntry) : State :=
  { s with code := writeCodes s.cfg s.code 0 t, codeN := BitVec.ofNat 32 t.length }

/-- `generateCodes(Node) -> CodeTable` (R160). -/
def generateCodes (s : State) : Except CmdError State :=
  if s.nodeN.toNat = 0 then .error (.operand .noTree 0)
  else .ok (s.commitCodes (genTable s.arena s.root.toNat)).succeed

/-- `GEN` (R160). -/
def execGen (s : State) : Host.Outcome State Fault Refusal := s.conclude (generateCodes s)

end Sys2Proof.Machine
end

