-- ==== Sys2Proof/Machine/Control.lean ====
section
/-! DEFINITION. The control commands NOP and CLEAR (spec 45_control.md). -/

namespace Sys2Proof.Machine

/-- Every object empty, no tree; the cells, the configuration and the host's lists keep what they hold (R231). -/
def State.emptyObjects (s : State) : State :=
  { s with txtLen := 0, bufLen := 0, pad := 0, freqN := 0, codeN := 0, nodeN := 0, root := 0 }

/-- `NOP` (R230). -/
def execNop (s : State) : Host.Outcome State Fault Refusal := s.conclude (.ok s.succeed)

/-- `CLEAR` (R231). -/
def execClear (s : State) : Host.Outcome State Fault Refusal := s.conclude (.ok s.emptyObjects.succeed)

end Sys2Proof.Machine
end

