-- ==== Sys2Proof/Machine/FrequencyCounter.lean ====
section
/-! DEFINITION. FrequencyCounter, command COUNT (spec 40_count.md). -/

namespace Sys2Proof.Machine

/-- Adding one to the count of a symbol that has an entry (R110); `none` where it has none. -/
def bump (x : Word) : List FreqEntry → Option (List FreqEntry)
  | [] => none
  | e :: t =>
    if e.sym = x then some ({ e with count := e.count + 1 } :: t)
    else (bump x t).map (e :: ·)

/-- The loop of R110 over the text, with the table built so far: a new symbol goes to the end (R111), and `none` is the
symbol that does not fit. -/
def tally (cap : Nat) : List Word → List FreqEntry → Option (List FreqEntry)
  | [], t => some t
  | x :: xs, t =>
    match bump x t with
    | some t' => tally cap xs t'
    | none => if t.length = cap then none else tally cap xs (t ++ [{ sym := x, count := 1 }])

/-- What a successful `COUNT` commits (R110): entries `0 .. k-1` and `FREQ_N`; the entries from `k` on are left. -/
def State.commitFreq (s : State) (t : List FreqEntry) : State :=
  { s with freq := s.freq.writeFrom 0 (freqWords t), freqN := BitVec.ofNat 32 t.length }

/-- `countFrequencies(text) -> FrequencyTable` (R110). -/
def countFrequencies (s : State) : Except CmdError State :=
  if s.cfg.textMax < s.txtLen.toNat then .error (lengthError .txtLen)
  else
    match tally s.cfg.nMax s.text [] with
    | none => .error (.capacity .symbols)
    | some t => .ok (s.commitFreq t).succeed

/-- `COUNT` (R110). -/
def execCount (s : State) : Host.Outcome State Fault Refusal := s.conclude (countFrequencies s)

end Sys2Proof.Machine
end

