-- ==== Sys2Proof/Machine/TreeBuilder.lean ====
section
/-! DEFINITION. TreeBuilder, command BUILD (spec 41_build.md). -/

namespace Sys2Proof.Machine

/-- A node of the working collection: its frequency and its arena index (R131, R132). -/
structure LiveNode where
  freq : Nat
  index : Nat
deriving DecidableEq, Repr

/-- `less` (R131): the smaller frequency first, the smaller index among equals. -/
def LiveNode.less (a b : LiveNode) : Bool :=
  decide (a.freq < b.freq) || (decide (a.freq = b.freq) && decide (a.index < b.index))

/-- The least element of a collection under `less`, if it is not empty (R133). -/
def least : List LiveNode → Option LiveNode
  | [] => none
  | a :: l =>
    match least l with
    | none => some a
    | some b => if b.less a then some b else some a

/-- The leaf of a table entry (R132, R136). -/
def leafNode (e : FreqEntry) : NodeEntry :=
  { freq := BitVec.ofNat 32 e.count, leaf := true, sym := e.sym, left := 0, right := 0 }

/-- The internal node over `a`, selected first, and `b` (R133, R136). -/
def innerNode (a b : LiveNode) : NodeEntry :=
  { freq := BitVec.ofNat 32 (a.freq + b.freq)
    leaf := false
    sym := 0
    left := BitVec.ofNat 32 a.index
    right := BitVec.ofNat 32 b.index }

/-- The merge loop of R130 and R133: while `live` has more than one element, its least two are removed and their parent
takes the next arena index and joins. The first argument bounds the loop, which runs `n - 1` times (R134). -/
def mergeLoop : Nat → List NodeEntry → List LiveNode → List NodeEntry × List LiveNode
  | 0, nd, live => (nd, live)
  | fuel + 1, nd, live =>
    match least live with
    | none => (nd, live)
    | some a =>
      match least (live.erase a) with
      | none => (nd, live)
      | some b =>
        mergeLoop fuel (nd ++ [innerNode a b])
          ((live.erase a).erase b ++ [{ freq := a.freq + b.freq, index := nd.length }])

/-- The arena with the leaves only (R132). -/
def leaves (t : List FreqEntry) : List NodeEntry := t.map leafNode

/-- The working collection at the start: every leaf (R132). -/
def initialLive (t : List FreqEntry) : List LiveNode :=
  t.zipIdx.map fun p => { freq := p.1.count, index := p.2 }

/-- The arena and the working collection when the loop has ended (R134). -/
def buildNodes (t : List FreqEntry) : List NodeEntry × List LiveNode :=
  mergeLoop t.length (leaves t) (initialLive t)

/-- `root <- the one element of live` (R134). -/
def rootOf (live : List LiveNode) : Nat :=
  match live with
  | [] => 0
  | a :: _ => a.index

/-- What a successful `BUILD` commits (R136). -/
def State.commitTree (s : State) (nd : List NodeEntry) (root : Nat) : State :=
  { s with
    node := s.node.writeFrom 0 nd
    nodeN := BitVec.ofNat 32 nd.length
    root := BitVec.ofNat 32 root }

/-- The sum of the counts, an unbounded natural (R130). -/
def totalCount (t : List FreqEntry) : Nat := (t.map (·.count)).sum

/-- `buildTree(FrequencyTable) -> Node` (R130), the tests in its order. -/
def buildTree (s : State) : Except CmdError State :=
  if s.cfg.nMax < s.freqN.toNat then .error (lengthError .freqN)
  else if s.freqN.toNat = 0 then .error .emptyAlphabet
  else
    match dupSymbol (s.freqTable.map (·.sym)) with
    | some j => .error (.operand .dupSym j)
    | none =>
      if 2 ^ 32 ≤ totalCount s.freqTable then .error (.capacity .freqSum)
      else
        .ok (s.commitTree (buildNodes s.freqTable).1 (rootOf (buildNodes s.freqTable).2)).succeed

/-- `BUILD` (R130). -/
def execBuild (s : State) : Host.Outcome State Fault Refusal := s.conclude (buildTree s)

end Sys2Proof.Machine
end

