-- ==== Sys2Proof/Machine/Transact.lean ====
section
/-! DEFINITION. One host transaction: a read, a write to a location, or a write to CMD, which runs a command (spec 45_control.md R232, R233). -/

namespace Sys2Proof.Machine

/-- A write of the word `w` to `CMD` (R23, R233): the command it encodes runs, and an illegal word takes
`IllegalCommandError` (R93). -/
def State.runCommand (s : State) (w : Word) : Host.Outcome State Fault Refusal :=
  match decode w with
  | .ok i => exec i s
  | .error (.illegalCommand v) => .next (s.raise (.illegalCommand v))

/-- One transaction (R232, R233). -/
def State.transact (s : State) : Transaction → Host.Outcome State Fault Refusal
  | .read a => .next { s with returned := s.returned ++ [s.hostRead a] }
  | .write a v => if a = 0 then s.runCommand v else .next (s.hostWrite a v)

/-- The state in which the oldest waiting transaction is made: it no longer waits, and reads of unwritten cells get
values of their own (R46, R60; log entries 2 and 3). -/
def State.accept (s : State) (rest : List Transaction) : State :=
  { s with pending := rest, stamp := s.stamp + 1 }

/-- A transaction placed before every one that waits. -/
def State.issue (s : State) (t : Transaction) : State := { s with pending := t :: s.pending }

/-- The transaction that issues the command word `w` (R96: `wr CMD, <w>`). -/
def commandWrite (w : Word) : Transaction := .write 0 w

end Sys2Proof.Machine
end

