-- ==== Sys2Proof/Machine/Step.lean ====
section
/-! DEFINITION. One step of the model: one host transaction (spec 45_control.md R233), the oldest that waits; a step with none waiting changes nothing (log entry 3). -/

namespace Sys2Proof.Machine

/-- One step (R233). -/
def step (s : State) : Host.Outcome State Fault Refusal :=
  match s.pending with
  | [] => .next s
  | t :: rest => (s.accept rest).transact t

/-- `s` with the command word `w` as the next transaction: the host's write of it to `CMD` (R23). The block fetches
nothing (R21); the waiting transactions are where its next command comes from (log entry 4). -/
def State.withFetchWord (s : State) (nbits w : Nat) : State :=
  s.issue (commandWrite (BitVec.ofNat 32 (w % 2 ^ nbits)))

end Sys2Proof.Machine
end

