-- ==== Sys2Proof/Machine/Script.lean ====
section
/-! DEFINITION. The host script: its lines and macros as lists of host transactions, and how a transaction is written down (spec 30_encoding.md R96 to R98). -/

namespace Sys2Proof.Machine

/-- What a script line names: a register or cell, or a literal address (R96). -/
inductive Target where
  | loc (l : Loc)
  | literal (a : Addr)
deriving DecidableEq, Repr

/-- `addr(loc)` (R96). -/
def Target.addr (c : Config) : Target → Addr
  | .loc l => l.addr c
  | .literal a => a

/-- A line of a host script (R96). A read line may carry the value it expects. -/
inductive ScriptLine where
  | wr (loc : Target) (value : Word)
  | rd (loc : Target) (expected : Option Word)
  | cmd (i : Instr)
deriving DecidableEq, Repr

/-- The transaction of a line (R96). -/
def ScriptLine.transaction (c : Config) : ScriptLine → Transaction
  | .wr loc value => .write (loc.addr c) value
  | .rd loc _ => .read (loc.addr c)
  | .cmd i => commandWrite (encode i)

/-- The transactions of a script, top to bottom (R96). -/
def scriptTransactions (c : Config) (ls : List ScriptLine) : List Transaction := ls.map (·.transaction c)

/-- What a read line expects, `none` for a line that is no read (R96). -/
def ScriptLine.expectation : ScriptLine → Option (Option Word)
  | .wr _ _ => none
  | .rd _ expected => some expected
  | .cmd _ => none

/-- What the reads of a script expect, in order. -/
def scriptExpectations (ls : List ScriptLine) : List (Option Word) := ls.filterMap (·.expectation)

/-- Whether the values the reads returned are the expected ones, wherever a line expects one. -/
def meets : List (Option Word) → List Word → Bool
  | [], [] => true
  | [], _ :: _ => false
  | _ :: _, [] => false
  | none :: es, _ :: vs => meets es vs
  | some e :: es, v :: vs => e == v && meets es vs

/-- Writing a register. -/
def wrReg (r : Reg) (v : Word) : ScriptLine := .wr (.loc (.reg r)) v

/-- The macro `text` on the values of its characters (R97). -/
def textMacro (syms : List Word) : List ScriptLine :=
  (syms.zipIdx.map fun p => .wr (.loc (.txt p.2)) p.1) ++ [wrReg .txtLen (BitVec.ofNat 32 syms.length)]

/-- The macro `text "<s>"`: the value of a character is its code point (R97; G1). -/
def textStringMacro (s : List Char) : List ScriptLine := textMacro (s.map fun ch => BitVec.ofNat 32 ch.toNat)

/-- The macro `bytes … pad` (R97). -/
def bytesMacro (bs : List Byte) (pad : Word) : List ScriptLine :=
  (bs.zipIdx.map fun p => .wr (.loc (.buf p.2)) (p.1.setWidth 32))
    ++ [wrReg .bufLen (BitVec.ofNat 32 bs.length), wrReg .pad pad]

/-- The macro `freq` (R97). -/
def freqMacro (es : List (Word × Word)) : List ScriptLine :=
  (es.zipIdx.flatMap fun p => [.wr (.loc (.freqSym p.2)) p.1.1, .wr (.loc (.freqCount p.2)) p.1.2])
    ++ [wrReg .freqN (BitVec.ofNat 32 es.length)]

/-- The lines of the macro `code` for entry `i`: symbol, length, `bits[0]`, and 0 in the words above (R97). -/
def codeEntryMacro (c : Config) (i : Nat) (sym len bits : Word) : List ScriptLine :=
  [.wr (.loc (.codeSym i)) sym, .wr (.loc (.codeLen i)) len, .wr (.loc (.codeBits i 0)) bits]
    ++ (List.range (c.cw - 1)).map fun w => .wr (.loc (.codeBits i (w + 1))) 0

/-- The macro `code`, for codes of at most 32 bits (R97). -/
def codeMacro (c : Config) (es : List (Word × Word × Word)) : List ScriptLine :=
  (es.zipIdx.flatMap fun p => codeEntryMacro c p.2 p.1.1 p.1.2.1 p.1.2.2)
    ++ [wrReg .codeN (BitVec.ofNat 32 es.length)]

/-- The macro `compress` (R97). -/
def compressMacro : List ScriptLine := [.cmd .count, .cmd .build, .cmd .gen, .cmd .encode]

/-- The macro `expect <loc> = <value>` (R97). -/
def expectMacro (loc : Target) (value : Word) : ScriptLine := .rd loc (some value)

/-! ## The encoding of a line (R98) -/

/-- A hexadecimal digit. -/
def hexDigit (n : Nat) : Char :=
  ['0', '1', '2', '3', '4', '5', '6', '7', '8', '9', 'A', 'B', 'C', 'D', 'E', 'F'].getD n '0'

/-- The low `k` hexadecimal digits of `n`, the highest first. -/
def hexDigits : Nat → Nat → List Char
  | 0, _ => []
  | k + 1, n => hexDigits k (n / 16) ++ [hexDigit (n % 16)]

/-- `W aaaaaa dddddddd`, and `R aaaaaa -> dddddddd` with the value read (R98). -/
def transactionText (t : Transaction) (value : Word) : List Char :=
  match t with
  | .write a v => ['W', ' '] ++ hexDigits 6 a.toNat ++ [' '] ++ hexDigits 8 v.toNat
  | .read a => ['R', ' '] ++ hexDigits 6 a.toNat ++ [' ', '-', '>', ' '] ++ hexDigits 8 value.toNat

end Sys2Proof.Machine
end

