-- ==== Sys2Proof/Machine/Reference.lean ====
section
/-! DEFINITION. The engines' reference data paths: the heap of R138, the traversal of R164, the accumulator of R186, the bounded candidate and the tree walk of R208. They are informative in the spec: exec does not call them, and statements say they give the same results. -/

namespace Sys2Proof.Machine

/-! ## The priority queue (41_build.md R138): a binary min-heap in an array, its element count the list's length -/

/-- The loop of `push`: element `i` is exchanged with its parent while it is less. -/
def siftUp : Nat → List LiveNode → Nat → List LiveNode
  | 0, h, _ => h
  | fuel + 1, h, i =>
    match h[i]?, h[(i - 1) / 2]? with
    | some x, some p =>
      if 0 < i ∧ x.less p = true then siftUp fuel ((h.set i p).set ((i - 1) / 2) x) ((i - 1) / 2) else h
    | _, _ => h

/-- `push(k)` (R138). -/
def heapPush (h : List LiveNode) (x : LiveNode) : List LiveNode := siftUp h.length (h ++ [x]) h.length

/-- The lesser of elements `s` and `l`, `s` where there is no element `l` (the two tests of `pop`). -/
def lesserOf (h : List LiveNode) (s l : Nat) : Nat :=
  match h[l]?, h[s]? with
  | some x, some y => if x.less y then l else s
  | _, _ => s

/-- The loop of `pop`: element `i` is exchanged with its least child while that is less. -/
def siftDown : Nat → List LiveNode → Nat → List LiveNode
  | 0, h, _ => h
  | fuel + 1, h, i =>
    let s := lesserOf h (lesserOf h i (2 * i + 1)) (2 * i + 2)
    if s = i then h
    else
      match h[i]?, h[s]? with
      | some x, some y => siftDown fuel ((h.set i y).set s x) s
      | _, _ => h

/-- `pop()` (R138): the first element, and the heap without it. -/
def heapPop : List LiveNode → Option (LiveNode × List LiveNode)
  | [] => none
  | [r] => some (r, [])
  | r :: x :: h => some (r, siftDown (h.length + 1) (((x :: h).getLast?.getD x) :: (x :: h).dropLast) 0)

/-- The merge loop over the heap (R138): `while HN > 1`. -/
def heapMerge : Nat → List NodeEntry → List LiveNode → List NodeEntry × List LiveNode
  | 0, nd, h => (nd, h)
  | fuel + 1, nd, h =>
    match heapPop h with
    | none => (nd, h)
    | some (a, h1) =>
      match heapPop h1 with
      | none => (nd, h)
      | some (b, h2) =>
        heapMerge fuel (nd ++ [innerNode a b]) (heapPush h2 { freq := a.freq + b.freq, index := nd.length })

/-- `BUILD` over the heap (R138): every leaf is pushed, then the merge loop runs. -/
def heapBuild (t : List FreqEntry) : List NodeEntry × List LiveNode :=
  heapMerge t.length (leaves t) ((initialLive t).foldl heapPush [])

/-! ## The traversal (42_gen.md R164) -/

/-- One pop of the traversal: a leaf is recorded, an internal node pushes its right child and then its left child. -/
def traverse (nd : List NodeEntry) : Nat → List (Nat × Code) → List (Nat × Code) → List (Nat × Code)
  | 0, _, found => found
  | _ + 1, [], found => found
  | fuel + 1, (k, c) :: stack, found =>
    match nd[k]? with
    | none => traverse nd fuel stack found
    | some e =>
      if e.leaf then traverse nd fuel stack (found ++ [(k, c)])
      else traverse nd fuel ((e.left.toNat, c.append false) :: (e.right.toNat, c.append true) :: stack) found

/-- The codes the traversal records, each with its leaf index, left before right; a root that is a leaf gets "0"
(R164). It ends after `NODE_N` pops. -/
def traversal (nd : List NodeEntry) (root : Nat) : List (Nat × Code) :=
  match nd[root]? with
  | none => []
  | some e =>
    if e.leaf then [(root, { len := 1, bits := 0 })] else traverse nd nd.length [(root, Code.empty)] []

/-! ## The accumulator and barrel shifter (43_encode.md R186) -/

/-- The packer's working registers: `ACC`, `NACC` and the bytes written so far, whose number is `W`. -/
structure Packer where
  acc : Nat
  nacc : Nat
  out : List Byte
deriving DecidableEq, Repr

/-- `while NACC >= 8`: the top byte of the accumulator is written (R186). The first argument bounds the loop. -/
def Packer.drain : Nat → Packer → Packer
  | 0, p => p
  | fuel + 1, p =>
    if 8 ≤ p.nacc then
      Packer.drain fuel
        { acc := p.acc % 2 ^ (p.nacc - 8)
          nacc := p.nacc - 8
          out := p.out ++ [BitVec.ofNat 8 (p.acc >>> (p.nacc - 8))] }
    else p

/-- One symbol: `ACC <- (ACC << l) | b; NACC <- NACC + l`, then whole bytes are taken off (R186). -/
def Packer.feed (p : Packer) (e : CodeEntry) : Packer :=
  Packer.drain (p.nacc + e.code.len)
    { p with acc := (p.acc <<< e.code.len) ||| e.code.bits, nacc := p.nacc + e.code.len }

/-- The end of the text: what is left goes out as the last byte, padded with zeros (R186). The results are the bytes and
`PAD`. -/
def Packer.finish (p : Packer) : List Byte × Nat :=
  if 0 < p.nacc then (p.out ++ [BitVec.ofNat 8 (p.acc <<< (8 - p.nacc))], 8 - p.nacc) else (p.out, 0)

/-- The packer's data path over the entries of a text (R186). -/
def packerRun (es : List CodeEntry) : List Byte × Nat :=
  (es.foldl Packer.feed { acc := 0, nacc := 0, out := [] }).finish

/-! ## The bounded candidate and the tree walk (44_decode.md R208) -/

/-- One bit with a candidate register of `limit` bits: once the candidate is that long it takes no further bit and every
remaining bit is trailing (R208). `none` is the symbol that does not fit. -/
def boundedStep (t : List CodeEntry) (limit cap : Nat) (sc : Scan) (k : Nat) (b : Bool) : Option Scan :=
  if sc.cand.len = limit then some sc else Scan.step t cap sc k b

/-- The scan with the bounded candidate. -/
def boundedScan (t : List CodeEntry) (limit cap : Nat) : List Bool → Nat → Scan → Option Scan
  | [], _, sc => some sc
  | b :: bs, k, sc =>
    match boundedStep t limit cap sc k b with
    | none => none
    | some sc' => boundedScan t limit cap bs (k + 1) sc'

/-- What the tree walk holds between two bits: the node it is at, the symbols emitted, the first bit after the last
leaf. -/
structure Walk where
  node : Nat
  out : List Word
  start : Nat
deriving DecidableEq, Repr

/-- One bit of the walk: 0 goes to `left`, 1 to `right`; on a leaf its symbol is emitted and the walk returns to the
root (R208). -/
def Walk.step (nd : List NodeEntry) (root cap : Nat) (w : Walk) (k : Nat) (b : Bool) : Option Walk :=
  match nd[w.node]? with
  | none => none
  | some e =>
    let next := if b then e.right.toNat else e.left.toNat
    match nd[next]? with
    | none => none
    | some f =>
      if f.leaf then
        if w.out.length = cap then none else some { node := root, out := w.out ++ [f.sym], start := k + 1 }
      else some { w with node := next }

/-- The walk over the code bits from bit `k` on (R208). -/
def walkBits (nd : List NodeEntry) (root cap : Nat) : List Bool → Nat → Walk → Option Walk
  | [], _, w => some w
  | b :: bs, k, w =>
    match Walk.step nd root cap w k b with
    | none => none
    | some w' => walkBits nd root cap bs (k + 1) w'

end Sys2Proof.Machine
end

