-- ==== Sys2Proof/Safety.lean ====
section
/-! DEFINITION. The terms claims are stated in: what the spec says of objects (10_state.md R32 to R34), of bit strings and trees, the invariant of the machine, and which objects are written (70_reset_and_hazards.md R273). -/

namespace Sys2Proof.Machine

/-! ## Text and frequency table -/

/-- The distinct symbols of a text in the order in which they are first seen (R111). -/
def firstSeen : List Word → List Word
  | [] => []
  | x :: xs => x :: (firstSeen xs).filter (fun y => y != x)

/-- `FreqWF` for the entries (R33): the symbols are pairwise distinct. -/
def DistinctSymbols (t : List FreqEntry) : Prop := (t.map (·.sym)).Nodup

/-- `j` is the smallest index below `n` that has the property `p`. -/
def FirstWith (n : Nat) (p : Nat → Prop) (j : Nat) : Prop := j < n ∧ p j ∧ ∀ k, k < j → ¬ p k

/-- Entry `j` carries a symbol that an earlier entry carries (R241, sub-code `DUPSYM`). -/
def Repeats (syms : List Word) (j : Nat) : Prop := ∃ i, i < j ∧ syms[i]? = syms[j]?

/-! ## Code tables -/

/-- `CodeWF` for the entries, conditions (2) to (5) of R32, with codes read as bit strings. -/
structure CodeWF (c : Config) (t : List CodeEntry) : Prop where
  lengths : ∀ e ∈ t, 1 ≤ e.code.len ∧ e.code.len ≤ c.codeMax
  bits : ∀ e ∈ t, e.code.bits < 2 ^ e.code.len
  symbols : (t.map (·.sym)).Nodup
  prefixFree : ∀ (i j : Nat) (d e : CodeEntry),
    t[i]? = some d → t[j]? = some e → i ≠ j → ¬ d.code.str <+: e.code.str

/-- Entry `i` fails condition (2) of R32. -/
def BadLen (c : Config) (t : List CodeEntry) (i : Nat) : Prop :=
  ∃ e, t[i]? = some e ∧ (e.code.len = 0 ∨ c.codeMax < e.code.len)

/-- Entry `i` fails condition (3) of R32. -/
def BadBits (t : List CodeEntry) (i : Nat) : Prop := ∃ e, t[i]? = some e ∧ 2 ^ e.code.len ≤ e.code.bits

/-- Another entry's code is a prefix of that of entry `j`, or equal to it (R32 (5)). -/
def BadPrefix (t : List CodeEntry) (j : Nat) : Prop :=
  ∃ i d e, i ≠ j ∧ t[i]? = some d ∧ t[j]? = some e ∧ d.code.str <+: e.code.str

/-- No code of the table begins the bits. -/
def NoCodeLeads (t : List CodeEntry) (bs : List Bool) : Prop := ∀ e ∈ t, ¬ e.code.str <+: bs

/-- A bit string is the beginning of an infinite bit sequence. -/
def Begins (bs : List Bool) (f : Nat → Bool) : Prop := bs = (List.range bs.length).map f

/-- Entries of a table that spell a text: one for each symbol, in text order (R181). -/
def Spells (t : List CodeEntry) (es : List CodeEntry) (text : List Word) : Prop :=
  (∀ e ∈ es, e ∈ t) ∧ es.map (·.sym) = text

/-! ## Trees (R34) -/

/-- A child of an internal node (R31): a leaf has none, whatever its index fields hold. -/
def IsChild (nd : List NodeEntry) (k p : Nat) : Prop :=
  ∃ e, nd[p]? = some e ∧ e.leaf = false ∧ (e.left.toNat = k ∨ e.right.toNat = k)

/-- The frequency of an arena entry. -/
def freqAt (nd : List NodeEntry) (k : Nat) : Nat := (nd[k]?.map (·.freq.toNat)).getD 0

/-- The invariants of R34 for an arena with `n` leaves, and distinct leaf symbols (R165). -/
structure ArenaTree (nd : List NodeEntry) (n : Nat) : Prop where
  leaves_pos : 1 ≤ n
  size : nd.length = 2 * n - 1
  leaf : ∀ k e, nd[k]? = some e → k < n → e.leaf = true ∧ e.left = 0 ∧ e.right = 0
  inner : ∀ k e, nd[k]? = some e → n ≤ k →
    e.leaf = false ∧ e.sym = 0 ∧ e.left.toNat < k ∧ e.right.toNat < k ∧ e.left ≠ e.right ∧
      e.freq.toNat = freqAt nd e.left.toNat + freqAt nd e.right.toNat
  parent : ∀ k, k < 2 * n - 2 → ∃ p, IsChild nd k p ∧ ∀ q, IsChild nd k q → q = p
  symbols : ((nd.take n).map (·.sym)).Nodup
  total : freqAt nd (2 * n - 2) = ((List.range n).map (freqAt nd)).sum

/-- Where a bit string leads from node `k`: 0 is left, 1 is right, and nothing lies below a leaf (R161). -/
def descend (nd : List NodeEntry) : Nat → List Bool → Option Nat
  | k, [] => if k < nd.length then some k else none
  | k, b :: bs =>
    match nd[k]? with
    | none => none
    | some e => if e.leaf then none else descend nd (if b then e.right.toNat else e.left.toNat) bs

/-- The nodes that are live before merge `t` of a table of `n` entries: those made before it that no earlier internal
node has as a child (R133). -/
def LiveBefore (nd : List NodeEntry) (n t k : Nat) : Prop := k < n + t ∧ ∀ p, p < n + t → ¬ IsChild nd k p

/-- `less(a, b)` on arena indices (R131). -/
def lessAt (nd : List NodeEntry) (a b : Nat) : Prop :=
  freqAt nd a < freqAt nd b ∨ (freqAt nd a = freqAt nd b ∧ a < b)

/-- The whole of R34 for a state: a tree when `NODE_N` is not 0, and `ROOT = 0` when it is. -/
structure TreeInv (s : State) : Prop where
  none : s.nodeN = 0 → s.root = 0
  leaves_le : s.nodeN ≠ 0 → leafCount s.nodeN.toNat ≤ s.cfg.nMax
  root : s.nodeN ≠ 0 → s.root.toNat = 2 * leafCount s.nodeN.toNat - 2
  written : ∀ k, k < s.nodeN.toNat → (s.node.read? k).isSome
  tree : s.nodeN ≠ 0 → ArenaTree s.arena (leafCount s.nodeN.toNat)

/-! ## The invariant of the machine -/

/-- The values `STATUS` can hold (R24, R240 to R242). -/
def legalStatus : List (BitVec 9) :=
  [0x000, 0x100, 0x001, 0x002, 0x003, 0x004, 0x015, 0x025, 0x035, 0x045,
   0x016, 0x026, 0x036, 0x046, 0x056, 0x066, 0x076]

/-- What every step keeps: the configuration meets R7, every space is in canonical form and holds only cells that exist
(R62), `STATUS` is a value of the tables and `ERRINFO` is 0 when it is 0 (R24, R25), the tree is one of R34. -/
structure Inv (s : State) : Prop where
  cfg : s.cfg.WellFormed
  txtWf : Memory.wf s.txt
  bufWf : Memory.wf s.buf
  freqWf : Memory.wf s.freq
  nodeWf : Memory.wf s.node
  codeWf : Memory.wf s.code
  txtIn : ∀ p ∈ s.txt, p.1 < s.cfg.textMax
  bufIn : ∀ p ∈ s.buf, p.1 < s.cfg.bufMax
  freqIn : ∀ p ∈ s.freq, p.1 < 2 * s.cfg.nMax
  nodeIn : ∀ p ∈ s.node, p.1 < s.cfg.nodeMax
  codeIn : ∀ p ∈ s.code, p.1 < s.cfg.nMax * s.cfg.cstride ∧ p.1 % s.cfg.cstride < 2 + s.cfg.cw
  status : s.status ∈ legalStatus
  info : s.status = 0 → s.errinfo = 0
  tree : TreeInv s

/-! ## What a transaction leaves (the frame of R233 and of each command's rule) -/

/-- Whether the location holds a value that has been written; a register always does (R46). -/
def State.holds (s : State) : Loc → Bool
  | .reg _ => true
  | .txt i => (s.txt.read? i).isSome
  | .buf j => (s.buf.read? j).isSome
  | .freqSym i => (s.freq.read? (2 * i)).isSome
  | .freqCount i => (s.freq.read? (2 * i + 1)).isSome
  | .nodeFreq k => (s.node.read? k).isSome
  | .nodeKind k => (s.node.read? k).isSome
  | .nodeA k => (s.node.read? k).isSome
  | .nodeB k => (s.node.read? k).isSome
  | .codeSym i => (s.code.read? (Config.codeKey s.cfg i 0)).isSome
  | .codeLen i => (s.code.read? (Config.codeKey s.cfg i 1)).isSome
  | .codeBits i w => (s.code.read? (Config.codeKey s.cfg i (2 + w))).isSome

/-- From `s` to `t` no location outside `written` changes what it reads as or whether it has been written, and what is
not a location stays as well. -/
structure Keeps (s t : State) (written : Loc → Prop) : Prop where
  cfg : t.cfg = s.cfg
  pending : t.pending = s.pending
  returned : t.returned = s.returned
  stamp : t.stamp = s.stamp
  cells : ∀ l : Loc, l.valid s.cfg = true → ¬ written l → t.readLoc l = s.readLoc l ∧ t.holds l = s.holds l

/-- The registers every command may write (R24, R25). -/
def Loc.isResult (l : Loc) : Prop := l = .reg .status ∨ l = .reg .errinfo

/-- Whether the host may write a location and has it keep bits (R22, R62). -/
def Loc.writable : Loc → Bool
  | .reg .txtLen => true
  | .reg .bufLen => true
  | .reg .pad => true
  | .reg .freqN => true
  | .reg .codeN => true
  | .reg _ => false
  | .txt _ => true
  | .buf _ => true
  | .freqSym _ => true
  | .freqCount _ => true
  | .nodeFreq _ => false
  | .nodeKind _ => false
  | .nodeA _ => false
  | .nodeB _ => false
  | .codeSym _ => true
  | .codeLen _ => true
  | .codeBits _ _ => true

/-- The bits of a written word that a location keeps, zero-extended (R28, R63, R65). -/
def Loc.kept (l : Loc) (v : Word) : Word :=
  match l with
  | .reg .pad => v &&& 0x7
  | .buf _ => v &&& 0xFF
  | _ => v

/-! ## Objects whose every cell has been written (R273) -/

/-- Every cell of the text object has been written. -/
def TextWritten (s : State) : Prop := ∀ i, i < s.txtLen.toNat → (s.txt.read? i).isSome

/-- Every cell of the code table object has been written. -/
def CodesWritten (s : State) : Prop :=
  ∀ i j, i < s.codeN.toNat → j < 2 + s.cfg.cw → (s.code.read? (Config.codeKey s.cfg i j)).isSome

/-! ## Runs -/

/-- `k` steps, stopping at the first that does not answer a next state. -/
def run : Nat → State → Host.Outcome State Fault Refusal
  | 0, s => .next s
  | k + 1, s =>
    match step s with
    | .next t => run k t
    | .fault r => .fault r
    | .refused r => .refused r

/-- The run that makes every waiting transaction (R233). -/
def runPending (s : State) : Host.Outcome State Fault Refusal := run s.pending.length s

end Sys2Proof.Machine
end

