-- ==== Sys2Proof/Certificates/Slice0/Obligations.lean ====
section
/-! DEFINITION. The statements about the model, from the numbered rules of spec/ (OBLIGATIONS.json lists them). -/

open Sys2Proof Sys2Proof.Machine

/-! ## Command words (30_encoding.md) -/

/-- A sanity check of the decoder on words written out from R90 and R92. -/
def Obligations.WordsDecodeAsTabled : Prop :=
  decode 0x00000001 = .ok .count ∧ decode 0x00000004 = .ok .encode ∧ decode 0x00000005 = .ok (.decode false) ∧
    decode 0x00000105 = .ok (.decode true) ∧ decode 0x0000000F = .ok .clear ∧
    decode 0x00000006 = .error (.illegalCommand 0x00000006)

/-- R92: each row of the opcode map, and the legal words are exactly eight. -/
def Obligations.OpcodeMapRows : Prop :=
  ∀ w : Word,
    (decode w = .ok .nop ↔ w &&& 0xFFFFFFFF = 0x00000000) ∧
    (decode w = .ok .count ↔ w &&& 0xFFFFFFFF = 0x00000001) ∧
    (decode w = .ok .build ↔ w &&& 0xFFFFFFFF = 0x00000002) ∧
    (decode w = .ok .gen ↔ w &&& 0xFFFFFFFF = 0x00000003) ∧
    (decode w = .ok .encode ↔ w &&& 0xFFFFFFFF = 0x00000004) ∧
    (decode w = .ok (.decode (w.getLsbD 8)) ↔ w &&& 0xFFFFFEFF = 0x00000005) ∧
    (decode w = .ok .clear ↔ w &&& 0xFFFFFFFF = 0x0000000F) ∧
    ((∃ i, decode w = .ok i) ↔
      w ∈ [0x00000000, 0x00000001, 0x00000002, 0x00000003, 0x00000004, 0x00000005, 0x00000105, 0x0000000F])

/-- R93: the four conditions under which a word is illegal, and what an illegal word does when it is written to `CMD`. -/
def Obligations.IllegalWordsRaise : Prop :=
  ∀ (s : State) (w : Word) (rest : List Transaction), s.pending = .write 0 w :: rest →
    (w.extractLsb' 9 23 ≠ 0 ∨ w.extractLsb' 4 4 ≠ 0 ∨
      (0x6 ≤ (w.extractLsb' 0 4).toNat ∧ (w.extractLsb' 0 4).toNat ≤ 0xE) ∨
      (w.getLsbD 8 = true ∧ w.extractLsb' 0 4 ≠ 0x5)) →
    step s = .next { s.accept rest with status := 0x004, errinfo := w }

/-- R99: decoding is total, the eight words are their commands and every other word is illegal, and no word is accepted
by two rows of the table. -/
def Obligations.DecodingIsTotal : Prop :=
  (∀ w : Word, ∀ i : Instr, decode w = .ok i ↔
    (w = 0x00000000 ∧ i = .nop) ∨ (w = 0x00000001 ∧ i = .count) ∨ (w = 0x00000002 ∧ i = .build) ∨
    (w = 0x00000003 ∧ i = .gen) ∨ (w = 0x00000004 ∧ i = .encode) ∨
    ((w = 0x00000005 ∨ w = 0x00000105) ∧ i = .decode (w.getLsbD 8)) ∨ (w = 0x0000000F ∧ i = .clear)) ∧
  (∀ w : Word, (∀ i, decode w ≠ .ok i) → decode w = .error (.illegalCommand w)) ∧
  (∀ w : Word, ∀ r ∈ opcodeMap, ∀ r' ∈ opcodeMap, r.accepts w = true → r'.accepts w = true → r = r')

/-- Decode and encode agree on every word and every command, with the strict flag at both of its values. -/
def Obligations.DecodeEncodeAgree : Prop :=
  ∀ (w : Word) (i : Instr), decode w = .ok i ↔ encode i = w

/-! ## Steps and host transactions (45_control.md, 20_memory.md) -/

/-- R23: a write to `CMD` executes the command that the word encodes; a read of `CMD` returns 0 and has no effect. What
the step adds around `exec` is `accept`: the transaction no longer waits and the stamp of the free values moves on (log
entries 2 and 3). -/
def Obligations.StepRunsDecodedCommand : Prop :=
  (∀ (s : State) (w : Word) (i : Instr) (rest : List Transaction),
    s.pending = .write 0 w :: rest → decode w = .ok i →
    step s = exec i { s with pending := rest, stamp := s.stamp + 1 }) ∧
  (∀ (s : State) (rest : List Transaction), s.pending = .read 0 :: rest →
    step s = .next { s with pending := rest, stamp := s.stamp + 1, returned := s.returned ++ [0] })

/-- The model's own convention (log entry 4): a placed command word is what the very next step runs. -/
def Obligations.PlacedCommandRunsNext : Prop :=
  ∀ (s : State) (i : Instr),
    step (s.withFetchWord 32 (encode i).toNat) = exec i { s with stamp := s.stamp + 1 }

/-- The address map is one to one between the valid locations and the addresses that are not reserved. -/
def Obligations.AddressMapIsExact : Prop :=
  ∀ (c : Config) (a : Addr) (l : Loc), c.WellFormed →
    (locate c a = some l ↔ l.valid c = true ∧ l.addr c = a)

/-- R69: which addresses are reserved, and what a read and a write of one do. -/
def Obligations.ReservedAddressesAreInert : Prop :=
  ∀ (s : State) (a : Addr) (rest : List Transaction), s.cfg.WellFormed →
    (let region := a.toNat / 2 ^ 20
     let off := a.toNat % 2 ^ 20
     0x6 ≤ region ∨ (region = 0x0 ∧ 0xC < off) ∨ (region = 0x1 ∧ s.cfg.textMax ≤ off) ∨
       (region = 0x2 ∧ s.cfg.bufMax ≤ off) ∨ (region = 0x3 ∧ 2 * s.cfg.nMax ≤ off) ∨
       (region = 0x4 ∧ 4 * s.cfg.nodeMax ≤ off) ∨
       (region = 0x5 ∧ (s.cfg.nMax * s.cfg.cstride ≤ off ∨ 2 + s.cfg.cw ≤ off % s.cfg.cstride))) →
    (s.pending = .read a :: rest → step s = .next { s.accept rest with returned := s.returned ++ [0] }) ∧
    (∀ v, s.pending = .write a v :: rest → step s = .next (s.accept rest))

/-- R79: a write to a read-only location is ignored. -/
def Obligations.ReadOnlyWritesAreIgnored : Prop :=
  ∀ (s : State) (l : Loc) (v : Word) (rest : List Transaction), s.cfg.WellFormed → l.valid s.cfg = true →
    l ∈ [Loc.reg .status, .reg .errinfo, .reg .nodeN, .reg .root, .reg .cfgNMax, .reg .cfgTextMax, .reg .cfgBufMax] ∨
      (∃ k, l = .nodeFreq k ∨ l = .nodeKind k ∨ l = .nodeA k ∨ l = .nodeB k) →
    s.pending = .write (l.addr s.cfg) v :: rest → step s = .next (s.accept rest)

/-- R232: a host read returns the value of the location, or 0 at an address that names none, and changes nothing but the
list of the values that reads have returned. -/
def Obligations.HostReadReturnsLocation : Prop :=
  ∀ (s : State) (a : Addr) (rest : List Transaction), s.cfg.WellFormed → s.pending = .read a :: rest →
    ∃ v, step s = .next { s.accept rest with returned := s.returned ++ [v] } ∧
      (∀ l : Loc, l.valid s.cfg = true → l.addr s.cfg = a → v = (s.accept rest).readLoc l) ∧
      ((∀ l : Loc, l.valid s.cfg = true → l.addr s.cfg ≠ a) → v = 0)

/-- What a location holds: a written cell reads as its value, a register as its kept bits, a node entry as R67 lays it
out. -/
def Obligations.LocationsReadAsTheyHold : Prop :=
  ∀ s : State,
    (∀ i v, s.txt.read? i = some v → s.readLoc (.txt i) = v) ∧
    (∀ j v, s.buf.read? j = some v → s.readLoc (.buf j) = v.setWidth 32) ∧
    (∀ i v, s.freq.read? (2 * i) = some v → s.readLoc (.freqSym i) = v) ∧
    (∀ i v, s.freq.read? (2 * i + 1) = some v → s.readLoc (.freqCount i) = v) ∧
    (∀ k e, s.node.read? k = some e →
      s.readLoc (.nodeFreq k) = e.freq ∧
      s.readLoc (.nodeKind k) = (if e.leaf = true then 1 else 0) ∧
      s.readLoc (.nodeA k) = (if e.leaf = true then e.sym else e.left) ∧
      s.readLoc (.nodeB k) = (if e.leaf = true then 0 else e.right)) ∧
    (∀ i v, s.code.read? (i * s.cfg.cstride) = some v → s.readLoc (.codeSym i) = v) ∧
    (∀ i v, s.code.read? (i * s.cfg.cstride + 1) = some v → s.readLoc (.codeLen i) = v) ∧
    (∀ i w v, s.code.read? (i * s.cfg.cstride + (2 + w)) = some v → s.readLoc (.codeBits i w) = v) ∧
    s.readLoc (.reg .cmd) = 0 ∧ (s.readLoc (.reg .status)).toNat = s.status.toNat ∧
    s.readLoc (.reg .errinfo) = s.errinfo ∧ s.readLoc (.reg .txtLen) = s.txtLen ∧
    s.readLoc (.reg .bufLen) = s.bufLen ∧ (s.readLoc (.reg .pad)).toNat = s.pad.toNat ∧
    s.readLoc (.reg .freqN) = s.freqN ∧ s.readLoc (.reg .codeN) = s.codeN ∧
    s.readLoc (.reg .nodeN) = s.nodeN ∧ s.readLoc (.reg .root) = s.root ∧
    s.readLoc (.reg .cfgNMax) = BitVec.ofNat 32 s.cfg.nMax ∧
    s.readLoc (.reg .cfgTextMax) = BitVec.ofNat 32 s.cfg.textMax ∧
    s.readLoc (.reg .cfgBufMax) = BitVec.ofNat 32 s.cfg.bufMax

/-- A host write to a writable location stores the bits the location keeps, so the next read of it returns them, and no
other location changes, `STATUS` and `ERRINFO` among them. -/
def Obligations.HostWriteStoresOneLocation : Prop :=
  ∀ (s : State) (l : Loc) (v : Word) (rest : List Transaction), s.cfg.WellFormed → l.valid s.cfg = true →
    l.writable = true → s.pending = .write (l.addr s.cfg) v :: rest →
    ∃ t, step s = .next t ∧ t.readLoc l = l.kept v ∧ t.holds l = true ∧ Keeps (s.accept rest) t (fun l' => l' = l)

/-- Every transaction is always enabled and every command ends: a step answers a next state, and never changes the
configuration. -/
def Obligations.StepAlwaysAnswersNext : Prop := ∀ s : State, ∃ t, step s = .next t ∧ t.cfg = s.cfg

/-- The host's macro for a text leaves that text in the block, every cell of it written. -/
def Obligations.TextMacroLoadsText : Prop :=
  ∀ (s : State) (syms : List Word), s.cfg.WellFormed → syms.length ≤ s.cfg.textMax →
    s.pending = scriptTransactions s.cfg (textMacro syms) →
    ∃ t, runPending s = .next t ∧ t.text = syms ∧ t.txtLen.toNat = syms.length ∧ TextWritten t ∧
      t.status = s.status ∧ t.errinfo = s.errinfo

/-! ## Reset (10_state.md R45, 70_reset_and_hazards.md) -/

/-- R45: after reset every register reads 0, the `CFG_*` registers read their constants, no cell has been written and
every object is empty. -/
def Obligations.ResetLeavesEmptyBlock : Prop :=
  ∀ c : Config,
    (∀ r ∈ [Reg.status, .errinfo, .txtLen, .bufLen, .pad, .freqN, .codeN, .nodeN, .root],
      (State.resetWith c).readReg r = 0) ∧
    (State.resetWith c).readReg .cfgNMax = BitVec.ofNat 32 c.nMax ∧
    (State.resetWith c).readReg .cfgTextMax = BitVec.ofNat 32 c.textMax ∧
    (State.resetWith c).readReg .cfgBufMax = BitVec.ofNat 32 c.bufMax ∧
    (∀ l, (State.resetWith c).holds l = true → ∃ r, l = .reg r) ∧
    (State.resetWith c).text = [] ∧ (State.resetWith c).freqTable = [] ∧ (State.resetWith c).arena = [] ∧
    (State.resetWith c).codeTable = [] ∧ (State.resetWith c).bufferBits = []

/-- R272: from reset every command is defined. -/
def Obligations.CommandsAfterReset : Prop :=
  ∀ c : Config, c.WellFormed →
    exec .count (State.resetWith c) = .next (State.resetWith c) ∧
    exec .build (State.resetWith c) = .next { State.resetWith c with status := 0x001, errinfo := 0 } ∧
    exec .gen (State.resetWith c) = .next { State.resetWith c with status := 0x066, errinfo := 0 } ∧
    exec .encode (State.resetWith c) = .next (State.resetWith c) ∧
    (∀ strict, exec (.decode strict) (State.resetWith c) = .next (State.resetWith c))

/-- The invariant holds after reset, of the model's reset state and of the one of every legal configuration. -/
def Obligations.InvariantAtReset : Prop :=
  Inv State.reset ∧ ∀ c : Config, c.WellFormed → Inv (State.resetWith c)

/-- Every step keeps the invariant: the spaces stay canonical and inside their windows, `STATUS` stays a value of the
tables, and the arena stays a tree of R34. -/
def Obligations.StepKeepsInvariant : Prop := ∀ s t : State, Inv s → step s = .next t → Inv t

/-! ## Errors and results (60_exceptions.md) -/

/-- R248: a failing command changes `STATUS` and `ERRINFO` and nothing else, and they hold the record of one error. -/
def Obligations.FailingCommandKeepsState : Prop :=
  ∀ (i : Instr) (s t : State), exec i s = .next t → errField t.status ≠ 0 →
    ∃ e : CmdError, t = { s with status := e.status, errinfo := e.info }

/-- R240 to R243: the values an error leaves in the fields of `STATUS` and in `ERRINFO`. -/
def Obligations.ErrorRecordValues : Prop :=
  (∀ e : CmdError, errField e.status = e.code ∧ subField e.status = e.sub ∧ warnField e.status = false) ∧
  (CmdError.emptyAlphabet.status = 0x001 ∧ CmdError.emptyAlphabet.info = 0) ∧
  (∀ k, (CmdError.unknownSymbol k).status = 0x002 ∧ (CmdError.unknownSymbol k).info = BitVec.ofNat 32 k) ∧
  (∀ k, (CmdError.corruptStream k).status = 0x003 ∧ (CmdError.corruptStream k).info = BitVec.ofNat 32 k) ∧
  (∀ w, (CmdError.illegalCommand w).status = 0x004 ∧ (CmdError.illegalCommand w).info = w) ∧
  (∀ sub, (CmdError.capacity sub).info = 0 ∧
    (CmdError.capacity sub).status =
      match sub with | .symbols => 0x015 | .freqSum => 0x025 | .buffer => 0x035 | .text => 0x045) ∧
  (∀ sub k, (CmdError.operand sub k).info = BitVec.ofNat 32 k ∧
    (CmdError.operand sub k).status =
      match sub with
      | .length => 0x016 | .dupSym => 0x026 | .codeLen => 0x036 | .codeBits => 0x046 | .prefixed => 0x056
      | .noTree => 0x066 | .padRange => 0x076)

/-- After a successful command `STATUS` and `ERRINFO` are 0, but for a best-effort `DECODE` that warns. -/
def Obligations.SuccessRecordValues : Prop :=
  ∀ (i : Instr) (s t : State), exec i s = .next t → errField t.status = 0 →
    (t.status = 0 ∧ t.errinfo = 0) ∨ (i = .decode false ∧ t.status = 0x100)

/-- No command reads `STATUS` or `ERRINFO`: a recorded error never alters a later command. -/
def Obligations.CommandsIgnoreRecordedError : Prop :=
  ∀ (i : Instr) (s : State) (st : BitVec 9) (info : Word),
    exec i { s with status := st, errinfo := info } = exec i s

/-! ## NOP and CLEAR (45_control.md) -/

/-- R230: `NOP` completes; only `STATUS` and `ERRINFO` change. -/
def Obligations.NopClearsStatus : Prop :=
  ∀ s : State, exec .nop s = .next { s with status := 0, errinfo := 0 }

/-- R231: `CLEAR` completes; every register gets its reset value and every cell keeps what it holds. -/
def Obligations.ClearEmptiesObjects : Prop :=
  ∀ s : State, exec .clear s =
    .next { s with
      status := 0, errinfo := 0, txtLen := 0, bufLen := 0, pad := 0, freqN := 0, codeN := 0, nodeN := 0, root := 0 }

/-! ## COUNT (40_count.md) -/

/-- `COUNT` completes: entry `j` is the `j`-th distinct symbol of the text with the number of times it occurs. -/
def Obligations.CountTabulatesText : Prop :=
  ∀ s : State, s.cfg.WellFormed → s.txtLen.toNat ≤ s.cfg.textMax → (firstSeen s.text).length ≤ s.cfg.nMax →
    ∃ t, exec .count s = .next t ∧ t.status = 0 ∧ t.errinfo = 0 ∧
      t.freqN.toNat = (firstSeen s.text).length ∧ t.freqTable.map (·.sym) = firstSeen s.text ∧
      ∀ e ∈ t.freqTable, e.count = s.text.count e.sym

/-- R112: what holds of the table after every successful `COUNT`. -/
def Obligations.CountConservesFrequency : Prop :=
  ∀ s t : State, s.cfg.WellFormed → exec .count s = .next t → t.status = 0 →
    DistinctSymbols t.freqTable ∧ t.freqN.toNat ≤ t.cfg.nMax ∧
    (∀ x, x ∈ s.text ↔ ∃ e ∈ t.freqTable, e.sym = x) ∧ (∀ e ∈ t.freqTable, 1 ≤ e.count) ∧
    (t.freqTable.map (·.count)).sum = t.txtLen.toNat

/-- The errors of `COUNT` (R110), in test order. -/
def Obligations.CountRaises : Prop :=
  ∀ s : State,
    (s.cfg.textMax < s.txtLen.toNat → exec .count s = .next { s with status := 0x016, errinfo := 0x3 }) ∧
    (s.txtLen.toNat ≤ s.cfg.textMax → s.cfg.nMax < (firstSeen s.text).length →
      exec .count s = .next { s with status := 0x015, errinfo := 0 })

/-! ## BUILD (41_build.md) -/

/-- `BUILD` completes: a tree of R34 whose leaves are the table's entries in order and whose root is the last entry. -/
def Obligations.BuildMakesTree : Prop :=
  ∀ s : State, s.cfg.WellFormed → s.freqN.toNat ≤ s.cfg.nMax → s.freqN ≠ 0 → DistinctSymbols s.freqTable →
    totalCount s.freqTable < 2 ^ 32 →
    ∃ t, exec .build s = .next t ∧ t.status = 0 ∧ t.errinfo = 0 ∧
      t.nodeN.toNat = 2 * s.freqN.toNat - 1 ∧ t.root.toNat = 2 * s.freqN.toNat - 2 ∧
      ArenaTree t.arena s.freqN.toNat ∧
      ∀ (i : Nat) (e : FreqEntry), s.freqTable[i]? = some e →
        ∃ k : NodeEntry, t.arena[i]? = some k ∧ k.leaf = true ∧ k.sym = e.sym ∧ k.freq.toNat = e.count

/-- Merge `j` of `BUILD` takes the two least live nodes under `less`, the least as the left child (R131, R133). -/
def Obligations.BuildMergesTwoLeast : Prop :=
  ∀ s t : State, s.cfg.WellFormed → exec .build s = .next t → t.status = 0 →
    ∀ (j : Nat) (e : NodeEntry), t.arena[s.freqN.toNat + j]? = some e →
      LiveBefore t.arena s.freqN.toNat j e.left.toNat ∧ LiveBefore t.arena s.freqN.toNat j e.right.toNat ∧
      lessAt t.arena e.left.toNat e.right.toNat ∧
      (∀ k, LiveBefore t.arena s.freqN.toNat j k → k ≠ e.left.toNat → k ≠ e.right.toNat →
        lessAt t.arena e.right.toNat k) ∧
      e.freq.toNat = freqAt t.arena e.left.toNat + freqAt t.arena e.right.toNat

/-- R135: a table with one entry gives a single leaf as the root. -/
def Obligations.BuildSingleLeaf : Prop :=
  ∀ (s : State) (e : FreqEntry), s.cfg.WellFormed → s.freqTable = [e] →
    ∃ t, exec .build s = .next t ∧ t.status = 0 ∧ t.nodeN = 1 ∧ t.root = 0 ∧
      ∃ k : NodeEntry, t.arena = [k] ∧ k.leaf = true ∧ k.sym = e.sym ∧ k.freq.toNat = e.count

/-- The errors of `BUILD` (R130), in test order. -/
def Obligations.BuildRaises : Prop :=
  ∀ s : State,
    (s.cfg.nMax < s.freqN.toNat → exec .build s = .next { s with status := 0x016, errinfo := 0x6 }) ∧
    (s.freqN = 0 → exec .build s = .next { s with status := 0x001, errinfo := 0 }) ∧
    (∀ j, s.freqN.toNat ≤ s.cfg.nMax → FirstWith s.freqN.toNat (Repeats (s.freqTable.map (·.sym))) j →
      exec .build s = .next { s with status := 0x026, errinfo := BitVec.ofNat 32 j }) ∧
    (s.freqN.toNat ≤ s.cfg.nMax → DistinctSymbols s.freqTable → 2 ^ 32 ≤ totalCount s.freqTable →
      exec .build s = .next { s with status := 0x025, errinfo := 0 })

/-- Tree properties of R137 after every successful `BUILD`: no leaf lies deeper than `n - 1`, every leaf is reached from
the root by exactly one bit string, and the root's frequency is the total. -/
def Obligations.BuildTreeProperties : Prop :=
  ∀ s t : State, s.cfg.WellFormed → exec .build s = .next t → t.status = 0 →
    (∀ i, i < s.freqN.toNat → ∃ bs, descend t.arena t.root.toNat bs = some i ∧ bs.length ≤ s.freqN.toNat - 1 ∧
      ∀ bs', descend t.arena t.root.toNat bs' = some i → bs' = bs) ∧
    freqAt t.arena t.root.toNat = totalCount s.freqTable

/-- Weak optimality (R137): no prefix-free assignment of non-empty bit strings to the entries has a smaller weighted
length than the codes that `GEN` reads off the tree of `BUILD`. -/
def Obligations.HuffmanCodesAreOptimal : Prop :=
  ∀ s t u : State, s.cfg.WellFormed → exec .build s = .next t → t.status = 0 → exec .gen t = .next u →
    ∀ cs : List (List Bool), cs.length = s.freqN.toNat → (∀ b ∈ cs, b ≠ []) →
      (∀ (i j : Nat) (b d : List Bool), cs[i]? = some b → cs[j]? = some d → i ≠ j → ¬ b <+: d) →
      ((s.freqTable.zip u.codeTable).map fun p => p.1.count * p.2.code.len).sum ≤
        ((s.freqTable.zip cs).map fun p => p.1.count * p.2.length).sum

/-! ## GEN (42_gen.md) -/

/-- `GEN` completes on a tree: entry `i` is leaf `i`'s symbol with, for `n ≥ 2`, the one bit string that leads from the
root to it (R160, R161, R166). -/
def Obligations.GenAssignsPaths : Prop :=
  ∀ s : State, s.cfg.WellFormed → TreeInv s → s.nodeN ≠ 0 →
    ∃ t, exec .gen s = .next t ∧ t.status = 0 ∧ t.errinfo = 0 ∧
      t.codeN.toNat = (s.nodeN.toNat + 1) / 2 ∧
      ∀ i, i < (s.nodeN.toNat + 1) / 2 →
        ∃ (e : CodeEntry) (k : NodeEntry), t.codeTable[i]? = some e ∧ s.arena[i]? = some k ∧ e.sym = k.sym ∧
          e.code.bits < 2 ^ e.code.len ∧
          (2 ≤ (s.nodeN.toNat + 1) / 2 → descend s.arena s.root.toNat e.code.str = some i ∧
            ∀ bs, descend s.arena s.root.toNat bs = some i → bs = e.code.str)

/-- R162: the code of a single-leaf tree is the string "0". -/
def Obligations.GenSingleLeafCode : Prop :=
  ∀ s : State, s.cfg.WellFormed → s.nodeN = 1 →
    ∃ (t : State) (k : NodeEntry), exec .gen s = .next t ∧ t.status = 0 ∧ t.codeN = 1 ∧ s.arena = [k] ∧
      t.codeTable = [{ sym := k.sym, code := { len := 1, bits := 0 } }]

/-- The error of `GEN`: no tree. -/
def Obligations.GenRaisesNoTree : Prop :=
  ∀ s : State, s.nodeN = 0 → exec .gen s = .next { s with status := 0x066, errinfo := 0 }

/-- R163 and R165: the table of every successful `GEN` on a tree is well-formed, prefix-free above all, and complete for
`n ≥ 2`: every infinite bit sequence begins with exactly one code. -/
def Obligations.GenTableIsWellFormed : Prop :=
  ∀ s t : State, s.cfg.WellFormed → TreeInv s → exec .gen s = .next t → t.status = 0 →
    CodeWF t.cfg t.codeTable ∧ t.codeN.toNat ≤ t.cfg.nMax ∧
    (2 ≤ t.codeN.toNat → ∀ f : Nat → Bool, ∃ e ∈ t.codeTable, Begins e.code.str f ∧
      ∀ d ∈ t.codeTable, Begins d.code.str f → d = e) ∧
    (t.codeN = 1 → ∀ f : Nat → Bool, f 0 = true → ∀ e ∈ t.codeTable, ¬ Begins e.code.str f)

/-! ## Checks of the code table (10_state.md R32) -/

/-- Conditions (2) to (5) of R32 in their order, for `ENCODE` and for both forms of `DECODE`, once the tests before them
have passed. -/
def Obligations.CodeTableChecksInOrder : Prop :=
  ∀ (i : Instr) (s : State),
    (i = .encode ∧ s.txtLen.toNat ≤ s.cfg.textMax ∧ s.codeN.toNat ≤ s.cfg.nMax) ∨
      ((∃ strict, i = .decode strict) ∧ s.bufLen.toNat ≤ s.cfg.bufMax ∧ s.codeN.toNat ≤ s.cfg.nMax ∧
        s.pad.toNat ≤ 8 * s.bufLen.toNat) →
    (∀ j, FirstWith s.codeN.toNat (BadLen s.cfg s.codeTable) j →
      exec i s = .next { s with status := 0x036, errinfo := BitVec.ofNat 32 j }) ∧
    ((∀ k, ¬ BadLen s.cfg s.codeTable k) →
      (∀ j, FirstWith s.codeN.toNat (BadBits s.codeTable) j →
        exec i s = .next { s with status := 0x046, errinfo := BitVec.ofNat 32 j }) ∧
      ((∀ k, ¬ BadBits s.codeTable k) →
        (∀ j, FirstWith s.codeN.toNat (Repeats (s.codeTable.map (·.sym))) j →
          exec i s = .next { s with status := 0x026, errinfo := BitVec.ofNat 32 j }) ∧
        ((s.codeTable.map (·.sym)).Nodup →
          ∀ j, FirstWith s.codeN.toNat (BadPrefix s.codeTable) j →
            exec i s = .next { s with status := 0x056, errinfo := BitVec.ofNat 32 j })))

/-! ## ENCODE (43_encode.md) -/

/-- `ENCODE` completes: the bits of the buffer are the codes of the text's symbols in text order and then the least
number of zero bits that fills the last byte. -/
def Obligations.EncodePacksCodes : Prop :=
  ∀ (s : State) (es : List CodeEntry), s.cfg.WellFormed → s.txtLen.toNat ≤ s.cfg.textMax →
    s.codeN.toNat ≤ s.cfg.nMax → CodeWF s.cfg s.codeTable → Spells s.codeTable es s.text →
    ((es.map (·.code.len)).sum + 7) / 8 ≤ s.cfg.bufMax →
    ∃ t, exec .encode s = .next t ∧ t.status = 0 ∧ t.errinfo = 0 ∧
      t.bufLen.toNat = ((es.map (·.code.len)).sum + 7) / 8 ∧
      t.pad.toNat = (8 - (es.map (·.code.len)).sum % 8) % 8 ∧
      t.bufferBits = es.flatMap (fun e => e.code.str) ++ List.replicate t.pad.toNat false ∧
      ∀ j, j < t.bufLen.toNat → (t.buf.read? j).isSome = true

/-- R182: the first unknown symbol in text order, before any capacity error. -/
def Obligations.EncodeRaisesUnknownSymbol : Prop :=
  ∀ (s : State) (k : Nat), s.txtLen.toNat ≤ s.cfg.textMax → s.codeN.toNat ≤ s.cfg.nMax →
    CodeWF s.cfg s.codeTable →
    FirstWith s.txtLen.toNat (fun i => ∀ e ∈ s.codeTable, some e.sym ≠ s.text[i]?) k →
    exec .encode s = .next { s with status := 0x002, errinfo := BitVec.ofNat 32 k }

/-- The length errors of `ENCODE`, which are tested first, and the capacity error, which is tested last (R180, R185). -/
def Obligations.EncodeRaisesLengthOrCapacity : Prop :=
  ∀ s : State,
    (s.cfg.textMax < s.txtLen.toNat → exec .encode s = .next { s with status := 0x016, errinfo := 0x3 }) ∧
    (s.txtLen.toNat ≤ s.cfg.textMax → s.cfg.nMax < s.codeN.toNat →
      exec .encode s = .next { s with status := 0x016, errinfo := 0x7 }) ∧
    (∀ es : List CodeEntry, s.txtLen.toNat ≤ s.cfg.textMax → s.codeN.toNat ≤ s.cfg.nMax →
      CodeWF s.cfg s.codeTable → Spells s.codeTable es s.text →
      s.cfg.bufMax < ((es.map (·.code.len)).sum + 7) / 8 →
      exec .encode s = .next { s with status := 0x035, errinfo := 0 })

/-! ## DECODE (44_decode.md) -/

/-- The scan is unambiguous (R203): the bits are in exactly one way the codes of a list of entries and then a rest that no
code begins. -/
def Obligations.BitsParseUniquely : Prop :=
  ∀ (c : Config) (t : List CodeEntry) (bs : List Bool), CodeWF c t →
    ∃ (es : List CodeEntry) (rest : List Bool), (∀ e ∈ es, e ∈ t) ∧ NoCodeLeads t rest ∧
      bs = es.flatMap (fun e => e.code.str) ++ rest ∧
      ∀ (es' : List CodeEntry) (rest' : List Bool), (∀ e ∈ es', e ∈ t) → NoCodeLeads t rest' →
        bs = es'.flatMap (fun e => e.code.str) ++ rest' →
        es' = es ∧ rest' = rest

/-- Best-effort `DECODE` completes: the symbols of the codes at the front of the code bits are recovered, and it warns
exactly where the trailing bits are not clean (R203, R204, R206). -/
def Obligations.DecodeRecoversSymbols : Prop :=
  ∀ (s : State) (es : List CodeEntry) (rest : List Bool), s.cfg.WellFormed → s.bufLen.toNat ≤ s.cfg.bufMax →
    s.codeN.toNat ≤ s.cfg.nMax → s.pad.toNat ≤ 8 * s.bufLen.toNat → CodeWF s.cfg s.codeTable →
    (∀ e ∈ es, e ∈ s.codeTable) → NoCodeLeads s.codeTable rest →
    s.bufferBits.take (8 * s.bufLen.toNat - s.pad.toNat) = es.flatMap (fun e => e.code.str) ++ rest →
    es.length ≤ s.cfg.textMax →
    ∃ t, exec (.decode false) s = .next t ∧ t.text = es.map (·.sym) ∧ t.txtLen.toNat = es.length ∧
      (let start := (es.map (·.code.len)).sum
       let trailing := s.bufferBits.drop start
       if trailing.length ≤ 7 ∧ ∀ b ∈ trailing, b = false then t.status = 0 ∧ t.errinfo = 0
       else t.status = 0x100 ∧ t.errinfo.toNat = start)

/-- Strict `DECODE` completes with the same text where the trailing bits are clean, and raises `CorruptStreamError` with
the index of the first trailing bit where they are not (R204, R205). -/
def Obligations.StrictDecodeRecoversOrRaises : Prop :=
  ∀ (s : State) (es : List CodeEntry) (rest : List Bool), s.cfg.WellFormed → s.bufLen.toNat ≤ s.cfg.bufMax →
    s.codeN.toNat ≤ s.cfg.nMax → s.pad.toNat ≤ 8 * s.bufLen.toNat → CodeWF s.cfg s.codeTable →
    (∀ e ∈ es, e ∈ s.codeTable) → NoCodeLeads s.codeTable rest →
    s.bufferBits.take (8 * s.bufLen.toNat - s.pad.toNat) = es.flatMap (fun e => e.code.str) ++ rest →
    es.length ≤ s.cfg.textMax →
    (let start := (es.map (·.code.len)).sum
     let trailing := s.bufferBits.drop start
     (trailing.length ≤ 7 → (∀ b ∈ trailing, b = false) →
       ∃ t, exec (.decode true) s = .next t ∧ t.text = es.map (·.sym) ∧ t.txtLen.toNat = es.length ∧
         t.status = 0 ∧ t.errinfo = 0) ∧
     (7 < trailing.length ∨ (∃ b ∈ trailing, b = true) →
       exec (.decode true) s = .next { s with status := 0x003, errinfo := BitVec.ofNat 32 start }))

/-- The errors of both forms of `DECODE` that are tested before the table (R200). -/
def Obligations.DecodeRaisesOperandErrors : Prop :=
  ∀ (s : State) (strict : Bool),
    (s.cfg.bufMax < s.bufLen.toNat →
      exec (.decode strict) s = .next { s with status := 0x016, errinfo := 0x4 }) ∧
    (s.bufLen.toNat ≤ s.cfg.bufMax → s.cfg.nMax < s.codeN.toNat →
      exec (.decode strict) s = .next { s with status := 0x016, errinfo := 0x7 }) ∧
    (s.bufLen.toNat ≤ s.cfg.bufMax → s.codeN.toNat ≤ s.cfg.nMax → s.bufLen = 0 → s.pad ≠ 0 →
      exec (.decode strict) s = .next { s with status := 0x076, errinfo := s.pad.setWidth 32 })

/-- R207: a symbol beyond `TEXT_MAX` raises `CapacityError`/`TEXT`, in both modes. -/
def Obligations.DecodeRaisesTextCapacity : Prop :=
  ∀ (s : State) (strict : Bool) (es : List CodeEntry) (rest : List Bool), s.bufLen.toNat ≤ s.cfg.bufMax →
    s.codeN.toNat ≤ s.cfg.nMax → s.pad.toNat ≤ 8 * s.bufLen.toNat → CodeWF s.cfg s.codeTable →
    (∀ e ∈ es, e ∈ s.codeTable) → NoCodeLeads s.codeTable rest →
    s.bufferBits.take (8 * s.bufLen.toNat - s.pad.toNat) = es.flatMap (fun e => e.code.str) ++ rest →
    s.cfg.textMax < es.length →
    exec (.decode strict) s = .next { s with status := 0x045, errinfo := 0 }

/-- R247: the warning means that strict mode would have raised `CorruptStreamError` with this `ERRINFO`; without it the
two modes do the same. -/
def Obligations.WarningMeansStrictFails : Prop :=
  ∀ s t : State, exec (.decode false) s = .next t →
    (warnField t.status = true ↔
      exec (.decode true) s = .next { s with status := 0x003, errinfo := t.errinfo }) ∧
    (warnField t.status = false → exec (.decode true) s = .next t)

/-! ## Round trip -/

/-- R209: after a successful `ENCODE`, both forms of `DECODE` on the same buffer, pad count and table give the text back,
also from a state in which the host has put them back. -/
def Obligations.DecodeInvertsEncode : Prop :=
  ∀ (s t u : State) (strict : Bool), s.cfg.WellFormed → exec .encode s = .next t → t.status = 0 →
    u.cfg = t.cfg → u.bufLen = t.bufLen → u.pad = t.pad → u.bufferBits = t.bufferBits →
    u.codeN = t.codeN → u.codeTable = t.codeTable →
    ∃ v, exec (.decode strict) u = .next v ∧ v.status = 0 ∧ v.errinfo = 0 ∧ v.text = s.text ∧ v.txtLen = s.txtLen

/-- The round trip of SHIFR §8 as a run of the machine: `COUNT`, `BUILD`, `GEN`, `ENCODE` and then `DECODE` or
`DECODE.S` leave the text that was there, for every non-empty written text whose alphabet and codes fit. -/
def Obligations.PipelineRoundTrip : Prop :=
  ∀ (s : State) (strict : Bool), Inv s → TextWritten s → s.txtLen ≠ 0 → s.txtLen.toNat ≤ s.cfg.textMax →
    (firstSeen s.text).length ≤ s.cfg.nMax → s.txtLen.toNat * s.cfg.codeMax ≤ 8 * s.cfg.bufMax →
    s.pending = [.write 0 0x00000001, .write 0 0x00000002, .write 0 0x00000003, .write 0 0x00000004,
      .write 0 (if strict then 0x00000105 else 0x00000005)] →
    ∃ t, runPending s = .next t ∧ t.pending = [] ∧ t.status = 0 ∧ t.errinfo = 0 ∧ t.text = s.text ∧
      t.txtLen = s.txtLen

/-! ## What commands do not depend on and do not change -/

/-- The outcome of a command is a function of its input objects (R77): two states with the same configuration and the same
objects get the same record and the same result, whatever else they hold. -/
def Obligations.CommandsReadOnlyTheirObjects : Prop :=
  ∀ s s' : State, Inv s → Inv s' → s'.cfg = s.cfg →
    (s'.txtLen = s.txtLen → s'.text = s.text →
      ∃ t t', exec .count s = .next t ∧ exec .count s' = .next t' ∧ t'.status = t.status ∧ t'.errinfo = t.errinfo ∧
        (errField t.status = 0 → t'.freqN = t.freqN ∧ t'.freqTable = t.freqTable)) ∧
    (s'.freqN = s.freqN → s'.freqTable = s.freqTable →
      ∃ t t', exec .build s = .next t ∧ exec .build s' = .next t' ∧ t'.status = t.status ∧ t'.errinfo = t.errinfo ∧
        (errField t.status = 0 → t'.nodeN = t.nodeN ∧ t'.root = t.root ∧ t'.arena = t.arena)) ∧
    (s'.nodeN = s.nodeN → s'.arena = s.arena →
      ∃ t t', exec .gen s = .next t ∧ exec .gen s' = .next t' ∧ t'.status = t.status ∧ t'.errinfo = t.errinfo ∧
        (errField t.status = 0 → t'.codeN = t.codeN ∧ t'.codeTable = t.codeTable)) ∧
    (s'.txtLen = s.txtLen → s'.text = s.text → s'.codeN = s.codeN → s'.codeTable = s.codeTable →
      ∃ t t', exec .encode s = .next t ∧ exec .encode s' = .next t' ∧ t'.status = t.status ∧ t'.errinfo = t.errinfo ∧
        (errField t.status = 0 → t'.bufLen = t.bufLen ∧ t'.pad = t.pad ∧ t'.bufferBits = t.bufferBits)) ∧
    (∀ strict, s'.bufLen = s.bufLen → s'.pad = s.pad → s'.bufferBits = s.bufferBits → s'.codeN = s.codeN →
      s'.codeTable = s.codeTable →
      ∃ t t', exec (.decode strict) s = .next t ∧ exec (.decode strict) s' = .next t' ∧ t'.status = t.status ∧
        t'.errinfo = t.errinfo ∧ (errField t.status = 0 → t'.txtLen = t.txtLen ∧ t'.text = t.text))

/-- `ENCODE` and `DECODE` do not depend on the order of the code table's entries (R277). -/
def Obligations.CodecIgnoresEntryOrder : Prop :=
  ∀ s s' : State, s.cfg.WellFormed → s'.cfg = s.cfg → s'.codeN = s.codeN → s'.codeTable.Perm s.codeTable →
    (∀ t, s'.txtLen = s.txtLen → s'.text = s.text → exec .encode s = .next t → t.status = 0 →
      ∃ t', exec .encode s' = .next t' ∧ t'.status = 0 ∧ t'.bufLen = t.bufLen ∧ t'.pad = t.pad ∧
        t'.bufferBits = t.bufferBits) ∧
    (∀ strict t, s'.bufLen = s.bufLen → s'.pad = s.pad → s'.bufferBits = s.bufferBits →
      exec (.decode strict) s = .next t → errField t.status = 0 →
      ∃ t', exec (.decode strict) s' = .next t' ∧ t'.status = t.status ∧ t'.errinfo = t.errinfo ∧
        t'.txtLen = t.txtLen ∧ t'.text = t.text)

/-- The frames of `COUNT`, `BUILD` and `GEN` (R110, R130, R160): the entries of the result, its length registers, `STATUS`
and `ERRINFO` may change, nothing else. -/
def Obligations.TableCommandsFrame : Prop :=
  ∀ s t : State, s.cfg.WellFormed →
    (exec .count s = .next t → Keeps s t fun l => l.isResult ∨ l = .reg .freqN ∨
      ∃ i, i < (firstSeen s.text).length ∧ (l = .freqSym i ∨ l = .freqCount i)) ∧
    (exec .build s = .next t → Keeps s t fun l => l.isResult ∨ l = .reg .nodeN ∨ l = .reg .root ∨
      ∃ k, k < 2 * s.freqN.toNat - 1 ∧ (l = .nodeFreq k ∨ l = .nodeKind k ∨ l = .nodeA k ∨ l = .nodeB k)) ∧
    (exec .gen s = .next t → Keeps s t fun l => l.isResult ∨ l = .reg .codeN ∨
      ∃ i, i < (s.nodeN.toNat + 1) / 2 ∧ (l = .codeSym i ∨ l = .codeLen i ∨ ∃ w, l = .codeBits i w))

/-- The frames of `ENCODE` and `DECODE` (R180, R200): the bytes or symbols of the result, its length registers, `STATUS`
and `ERRINFO` may change, nothing else. -/
def Obligations.StreamCommandsFrame : Prop :=
  ∀ s t : State, s.cfg.WellFormed →
    (exec .encode s = .next t → Keeps s t fun l => l.isResult ∨ l = .reg .bufLen ∨ l = .reg .pad ∨
      ∃ (es : List CodeEntry) (j : Nat), Spells s.codeTable es s.text ∧
        j < ((es.map (·.code.len)).sum + 7) / 8 ∧ l = .buf j) ∧
    (∀ strict, exec (.decode strict) s = .next t → Keeps s t fun l => l.isResult ∨ l = .reg .txtLen ∨
      ∃ (es : List CodeEntry) (rest : List Bool) (i : Nat), (∀ e ∈ es, e ∈ s.codeTable) ∧
        NoCodeLeads s.codeTable rest ∧
        s.bufferBits.take (8 * s.bufLen.toNat - s.pad.toNat) = es.flatMap (fun e => e.code.str) ++ rest ∧
        i < es.length ∧ l = .txt i)

/-! ## The reference data paths -/

/-- The heap of R138 returns the same tree. -/
def Obligations.HeapBuildsSameTree : Prop := ∀ t : List FreqEntry, heapBuild t = buildNodes t

/-- The traversal of R164 records the code of R161 (R162 for one leaf) for every leaf, each once. -/
def Obligations.TraversalFindsSameCodes : Prop :=
  ∀ (nd : List NodeEntry) (n : Nat), ArenaTree nd n →
    (traversal nd (2 * n - 2)).length = n ∧
    ∀ i c, (i, c) ∈ traversal nd (2 * n - 2) ↔ i < n ∧ c = leafCode nd (2 * n - 2) n i

/-- The accumulator of R186 writes the bytes and the pad count of R183 and R184. -/
def Obligations.AccumulatorPacksSameBytes : Prop :=
  ∀ es : List CodeEntry, (∀ e ∈ es, e.code.bits < 2 ^ e.code.len) →
    packerRun es = (packBytes (streamOf es), padFor (streamOf es).length)

/-- R208: a candidate register bounded by the longest legal code gives the same symbols and the same first trailing
bit. -/
def Obligations.BoundedCandidateIsEnough : Prop :=
  ∀ (c : Config) (t : List CodeEntry) (cap : Nat) (bs : List Bool), CodeWF c t →
    (boundedScan t c.codeMax cap bs 0 Scan.begin).map (fun sc => (sc.out, sc.start)) =
      (scanBits t cap bs 0 Scan.begin).map (fun sc => (sc.out, sc.start))

/-- R208: on a table that `GEN` made from a tree with at least two leaves the tree walk recovers the same symbols at the
same bit positions, and the candidate is empty exactly when the walk is at the root. -/
def Obligations.TreeWalkRecoversSameSymbols : Prop :=
  ∀ (nd : List NodeEntry) (n cap : Nat) (bs : List Bool), ArenaTree nd n → 2 ≤ n →
    match scanBits (genTable nd (2 * n - 2)) cap bs 0 Scan.begin with
    | none => walkBits nd (2 * n - 2) cap bs 0 { node := 2 * n - 2, out := [], start := 0 } = none
    | some sc => ∃ w, walkBits nd (2 * n - 2) cap bs 0 { node := 2 * n - 2, out := [], start := 0 } = some w ∧
        w.out = sc.out ∧ w.start = sc.start ∧ (sc.cand.len = 0 ↔ w.node = 2 * n - 2)
end

