-- ==== Sys2Proof/Laws/Config.lean ====
section
/-! SUPPORT. Arithmetic of the configuration (spec 00_scope.md R6, R7). -/

namespace Sys2Proof

theorem Config.wf_iff (c : Config) : c.wf = true ↔ c.WellFormed := by
  simp only [Config.wf, Bool.and_eq_true, decide_eq_true_eq]
  constructor
  · rintro ⟨⟨⟨⟨⟨⟨h1, h2⟩, h3⟩, h4⟩, h5⟩, h6⟩, h7⟩; exact ⟨h1, h2, h3, h4, h5, h6, h7⟩
  · intro h; exact ⟨⟨⟨⟨⟨⟨h.nMax_pos, h.textMax_pos⟩, h.bufMax_pos⟩, h.text_fits⟩, h.buf_fits⟩, h.node_fits⟩, h.code_fits⟩

/-- The reference configuration meets R7. -/
theorem Config.ref_wellFormed : Config.ref.WellFormed := (Config.wf_iff _).1 (by decide)

/-- The small configuration meets R7. -/
theorem Config.tiny_wellFormed : Config.tiny.WellFormed := (Config.wf_iff _).1 (by decide)

theorem Config.codeMax_pos (c : Config) : 1 ≤ c.codeMax := by simp [Config.codeMax]

theorem Config.codeMax_le (c : Config) : c.codeMax ≤ 32 * c.cw := by simp only [Config.cw]; omega

theorem Config.cw_pos (c : Config) : 1 ≤ c.cw := by have := c.codeMax_pos; simp only [Config.cw]; omega

/-- `CSTRIDE >= 2 + CW` (R6). -/
theorem Config.words_le_cstride (c : Config) : 2 + c.cw ≤ c.cstride := by
  have h := Nat.lt_log2_self (n := 1 + c.cw)
  simp only [Config.cstride, Config.cshift]
  omega

/-- No smaller power of two is at least `2 + CW` (R6). -/
theorem Config.cstride_least (c : Config) (k : Nat) (h : 2 + c.cw ≤ 2 ^ k) : c.cstride ≤ 2 ^ k := by
  simp only [Config.cstride, Config.cshift]
  apply Nat.pow_le_pow_right (by omega)
  have h1 := Nat.log2_self_le (n := 1 + c.cw) (by omega)
  have : 2 ^ Nat.log2 (1 + c.cw) < 2 ^ k := by omega
  exact (Nat.pow_lt_pow_iff_right (by omega)).1 this

theorem Config.cstride_pos (c : Config) : 3 ≤ c.cstride := by
  have := c.words_le_cstride; have := c.cw_pos; omega

theorem Config.WellFormed.nMax_le {c : Config} (h : c.WellFormed) : c.nMax ≤ 2 ^ 18 := by
  have h1 := h.node_fits
  have h2 := h.nMax_pos
  simp only [Config.nodeMax] at h1
  omega

theorem Config.WellFormed.codeMax_lt {c : Config} (h : c.WellFormed) : c.codeMax < 2 ^ 32 := by
  have := h.nMax_le
  simp only [Config.codeMax]
  omega

/-- An entry's words stay in the entry's own range, and entries do not overlap. -/
theorem Config.key_inj {st i i' j j' : Nat} (hj : j < st) (hj' : j' < st) (h : i * st + j = i' * st + j') :
    i = i' ∧ j = j' := by
  have e1 : (i * st + j) / st = i := by
    rw [Nat.mul_comm, Nat.mul_add_div (by omega), Nat.div_eq_of_lt hj]; rfl
  have e2 : (i' * st + j') / st = i' := by
    rw [Nat.mul_comm, Nat.mul_add_div (by omega), Nat.div_eq_of_lt hj']; rfl
  have : i = i' := by rw [← e1, ← e2, h]
  subst this
  exact ⟨rfl, by omega⟩

end Sys2Proof
end

