-- ==== Sys2Proof/Laws/AddressMap.lean ====
section
/-! SUPPORT. The address map (20_memory.md R62 to R69), region by region: an offset and the location it names determine each other. -/

namespace Sys2Proof.Machine

theorem Reg.at?_eq_some {off : Nat} {r : Reg} : Reg.at? off = some r ↔ r.offset = off := by
  unfold Reg.at?
  constructor
  · intro h; simpa using List.find?_some h
  · rintro rfl; cases r <;> decide

theorem Reg.offset_le (r : Reg) : r.offset ≤ 0xC := by cases r <;> decide

theorem Reg.at?_eq_none {off : Nat} : Reg.at? off = none ↔ 0xC < off := by
  cases h : Reg.at? off with
  | some r =>
    have := Reg.at?_eq_some.1 h
    have := r.offset_le
    simp; omega
  | none =>
    simp only [true_iff]
    by_contra hc
    have : ∀ k : Fin 13, Reg.at? k.val ≠ none := by decide
    exact this ⟨off, by omega⟩ h

/-- The region and the offset of a valid location are those of R62. -/
theorem Loc.place_lt {c : Config} (hc : c.WellFormed) {l : Loc} (h : l.valid c = true) :
    (l.place c).1 ≤ 5 ∧ (l.place c).2 < 2 ^ 20 := by
  have h1 := hc.text_fits
  have h2 := hc.buf_fits
  have h3 := hc.node_fits
  have h4 := hc.code_fits
  have h5 := hc.nMax_le
  have h6 := c.words_le_cstride
  have hkey : ∀ i j, i < c.nMax → j < c.cstride → i * c.cstride + j < 2 ^ 20 := by
    intro i j hi hj
    have : (i + 1) * c.cstride ≤ c.nMax * c.cstride := Nat.mul_le_mul_right _ hi
    rw [Nat.succ_mul] at this
    omega
  cases l with
  | reg r => have := r.offset_le; simp only [Loc.place]; omega
  | codeSym i =>
    simp only [Loc.valid, decide_eq_true_eq] at h
    exact ⟨Nat.le_refl _, hkey i 0 h (by omega)⟩
  | codeLen i =>
    simp only [Loc.valid, decide_eq_true_eq] at h
    exact ⟨Nat.le_refl _, hkey i 1 h (by omega)⟩
  | codeBits i w =>
    simp only [Loc.valid, Bool.and_eq_true, decide_eq_true_eq] at h
    exact ⟨Nat.le_refl _, hkey i (2 + w) h.1 (by omega)⟩
  | _ => simp only [Loc.valid, decide_eq_true_eq] at h; simp only [Loc.place]; omega

theorem Loc.toNat_addr {c : Config} (hc : c.WellFormed) {l : Loc} (h : l.valid c = true) :
    (l.addr c).toNat = (l.place c).1 * 2 ^ 20 + (l.place c).2 := by
  have := Loc.place_lt hc h
  simp only [Loc.addr, BitVec.toNat_ofNat]
  omega

/-- Two addresses with the same region and offset are the same. -/
theorem addr_eq_of_place {a b : Addr} (h1 : a.toNat / 2 ^ 20 = b.toNat / 2 ^ 20)
    (h2 : a.toNat % 2 ^ 20 = b.toNat % 2 ^ 20) : a = b := by
  apply BitVec.eq_of_toNat_eq; omega

theorem locateFreq_eq {off : Nat} {l : Loc} :
    locateFreq off = l ↔ (∃ i, l = .freqSym i ∧ off = 2 * i) ∨ ∃ i, l = .freqCount i ∧ off = 2 * i + 1 := by
  unfold locateFreq
  split
  · constructor
    · rintro rfl; exact .inl ⟨_, rfl, by omega⟩
    · rintro (⟨i, rfl, h⟩ | ⟨i, rfl, h⟩)
      · congr 1; omega
      · omega
  · constructor
    · rintro rfl; exact .inr ⟨_, rfl, by omega⟩
    · rintro (⟨i, rfl, h⟩ | ⟨i, rfl, h⟩)
      · omega
      · congr 1; omega

theorem locateNode_eq {off : Nat} {l : Loc} :
    locateNode off = l ↔ (∃ k, l = .nodeFreq k ∧ off = 4 * k) ∨ (∃ k, l = .nodeKind k ∧ off = 4 * k + 1) ∨
      (∃ k, l = .nodeA k ∧ off = 4 * k + 2) ∨ ∃ k, l = .nodeB k ∧ off = 4 * k + 3 := by
  unfold locateNode
  split
  · constructor
    · rintro rfl; exact .inl ⟨_, rfl, by omega⟩
    · rintro (⟨i, rfl, h⟩ | ⟨i, rfl, h⟩ | ⟨i, rfl, h⟩ | ⟨i, rfl, h⟩)
      · congr 1; omega
      all_goals omega
  split
  · constructor
    · rintro rfl; exact .inr (.inl ⟨_, rfl, by omega⟩)
    · rintro (⟨i, rfl, h⟩ | ⟨i, rfl, h⟩ | ⟨i, rfl, h⟩ | ⟨i, rfl, h⟩)
      · omega
      · congr 1; omega
      all_goals omega
  split
  · constructor
    · rintro rfl; exact .inr (.inr (.inl ⟨_, rfl, by omega⟩))
    · rintro (⟨i, rfl, h⟩ | ⟨i, rfl, h⟩ | ⟨i, rfl, h⟩ | ⟨i, rfl, h⟩)
      · omega
      · omega
      · congr 1; omega
      · omega
  · constructor
    · rintro rfl; exact .inr (.inr (.inr ⟨_, rfl, by omega⟩))
    · rintro (⟨i, rfl, h⟩ | ⟨i, rfl, h⟩ | ⟨i, rfl, h⟩ | ⟨i, rfl, h⟩)
      · omega
      · omega
      · omega
      · congr 1; omega

/-- The entry and the word of an offset in region `CODE`. -/
theorem codeKey_div_mod (c : Config) {i j : Nat} (hj : j < c.cstride) :
    Config.codeKey c i j / c.cstride = i ∧ Config.codeKey c i j % c.cstride = j := by
  simp only [Config.codeKey]
  have e : i * c.cstride + j = c.cstride * i + j := by rw [Nat.mul_comm]
  rw [e, Nat.mul_add_div (by omega), Nat.mul_add_mod, Nat.div_eq_of_lt hj, Nat.mod_eq_of_lt hj]
  exact ⟨rfl, rfl⟩

theorem codeKey_eq (c : Config) (off : Nat) : Config.codeKey c (off / c.cstride) (off % c.cstride) = off := by
  simp only [Config.codeKey]
  rw [Nat.mul_comm]
  exact Nat.div_add_mod off c.cstride

theorem locateCode_eq {c : Config} {off : Nat} {l : Loc} (h : off % c.cstride < 2 + c.cw) :
    locateCode c off = l ↔ (∃ i, l = .codeSym i ∧ off = Config.codeKey c i 0) ∨
      (∃ i, l = .codeLen i ∧ off = Config.codeKey c i 1) ∨
      ∃ i w, w < c.cw ∧ l = .codeBits i w ∧ off = Config.codeKey c i (2 + w) := by
  have hs := c.words_le_cstride
  have hp := c.cstride_pos
  have hk := codeKey_eq c off
  have inv : ∀ i j, j < c.cstride → off = Config.codeKey c i j → off / c.cstride = i ∧ off % c.cstride = j := by
    rintro i j hj rfl; exact codeKey_div_mod c hj
  unfold locateCode
  split
  · rename_i h0
    constructor
    · rintro rfl; exact .inl ⟨_, rfl, by rw [← h0, hk]⟩
    · rintro (⟨i, rfl, h'⟩ | ⟨i, rfl, h'⟩ | ⟨i, w, hw, rfl, h'⟩)
      · rw [(inv i 0 (by omega) h').1]
      · have := (inv i 1 (by omega) h').2; omega
      · have := (inv i (2 + w) (by omega) h').2; omega
  split
  · rename_i h0 h1
    constructor
    · rintro rfl; exact .inr (.inl ⟨_, rfl, by rw [← h1, hk]⟩)
    · rintro (⟨i, rfl, h'⟩ | ⟨i, rfl, h'⟩ | ⟨i, w, hw, rfl, h'⟩)
      · have := (inv i 0 (by omega) h').2; omega
      · rw [(inv i 1 (by omega) h').1]
      · have := (inv i (2 + w) (by omega) h').2; omega
  · rename_i h0 h1
    constructor
    · rintro rfl
      refine .inr (.inr ⟨_, off % c.cstride - 2, by omega, rfl, ?_⟩)
      rw [show 2 + (off % c.cstride - 2) = off % c.cstride by omega, hk]
    · rintro (⟨i, rfl, h'⟩ | ⟨i, rfl, h'⟩ | ⟨i, w, hw, rfl, h'⟩)
      · have := (inv i 0 (by omega) h').2; omega
      · have := (inv i 1 (by omega) h').2; omega
      · obtain ⟨h2, h3⟩ := inv i (2 + w) (by omega) h'
        rw [h2, h3]; congr 1; omega

/-- What an address names, by its region and its offset (R62). -/
theorem locate_eq_some {c : Config} {a : Addr} {l : Loc} :
    locate c a = some l ↔ l.valid c = true ∧ l.place c = (a.toNat / 2 ^ 20, a.toNat % 2 ^ 20) := by
  unfold locate
  simp only
  generalize a.toNat / 2 ^ 20 = R
  generalize a.toNat % 2 ^ 20 = O
  have hs := c.words_le_cstride
  have hcw := c.cw_pos
  by_cases h0 : R = 0
  · subst h0
    simp only [if_true, Option.map_eq_some_iff, Reg.at?_eq_some]
    constructor
    · rintro ⟨r, rfl, rfl⟩; exact ⟨rfl, rfl⟩
    · rintro ⟨h, hp⟩; cases l <;> simp [Loc.place] at hp
      exact ⟨_, hp, rfl⟩
  rw [if_neg h0]
  by_cases h0 : R = 1
  · subst h0
    cases l <;> (simp [Loc.place, Loc.valid]; try omega)
  rw [if_neg h0]
  by_cases h0 : R = 2
  · subst h0
    cases l <;> (simp [Loc.place, Loc.valid]; try omega)
  rw [if_neg h0]
  by_cases h0 : R = 3
  · subst h0
    simp only [if_true]
    have : (if O < 2 * c.nMax then some (locateFreq O) else none) = some l ↔ O < 2 * c.nMax ∧ locateFreq O = l := by
      split <;> simp_all
    rw [this, locateFreq_eq]
    cases l <;> simp [Loc.place, Loc.valid] <;> omega
  rw [if_neg h0]
  by_cases h0 : R = 4
  · subst h0
    simp only [if_true]
    have : (if O < 4 * c.nodeMax then some (locateNode O) else none) = some l ↔ O < 4 * c.nodeMax ∧ locateNode O = l := by
      split <;> simp_all
    rw [this, locateNode_eq]
    cases l <;> simp [Loc.place, Loc.valid] <;> omega
  rw [if_neg h0]
  by_cases h0 : R = 5
  · subst h0
    simp only [if_true]
    have key : ∀ i j, j < c.cstride → (Config.codeKey c i j < c.nMax * c.cstride ↔ i < c.nMax) := by
      intro i j hj
      simp only [Config.codeKey]
      constructor
      · intro h
        by_contra hc
        have : c.nMax * c.cstride ≤ i * c.cstride := Nat.mul_le_mul_right _ (by omega)
        omega
      · intro h
        have : (i + 1) * c.cstride ≤ c.nMax * c.cstride := Nat.mul_le_mul_right _ h
        rw [Nat.succ_mul] at this
        omega
    constructor
    · intro h
      split at h
      · rename_i hh
        simp only [Option.some.injEq] at h
        rcases (locateCode_eq hh.2).1 h with ⟨i, rfl, rfl⟩ | ⟨i, rfl, rfl⟩ | ⟨i, w, hw, rfl, rfl⟩
        · simp [Loc.valid, Loc.place, (key i 0 (by omega)).1 hh.1]
        · simp [Loc.valid, Loc.place, (key i 1 (by omega)).1 hh.1]
        · simp [Loc.valid, Loc.place, (key i (2 + w) (by omega)).1 hh.1, hw]
      · cases h
    · rintro ⟨h, hp⟩
      cases l <;> simp [Loc.place] at hp <;> simp [Loc.valid] at h
      · subst hp
        rw [if_pos ⟨(key _ 0 (by omega)).2 h, by rw [(codeKey_div_mod c (by omega)).2]; omega⟩]
        rw [(locateCode_eq (by rw [(codeKey_div_mod c (by omega)).2]; omega)).2]
        exact .inl ⟨_, rfl, rfl⟩
      · subst hp
        rw [if_pos ⟨(key _ 1 (by omega)).2 h, by rw [(codeKey_div_mod c (by omega)).2]; omega⟩]
        rw [(locateCode_eq (by rw [(codeKey_div_mod c (by omega)).2]; omega)).2]
        exact .inr (.inl ⟨_, rfl, rfl⟩)
      · subst hp
        rw [if_pos ⟨(key _ _ (by omega)).2 h.1, by rw [(codeKey_div_mod c (by omega)).2]; omega⟩]
        rw [(locateCode_eq (by rw [(codeKey_div_mod c (by omega)).2]; omega)).2]
        exact .inr (.inr ⟨_, _, h.2, rfl, rfl⟩)
  rw [if_neg h0]
  simp
  intro hv hp
  cases l <;> simp [Loc.place] at hp <;> omega

/-! ## Reading and writing through the map -/

theorem State.hostRead_of_locate {s : State} {a : Addr} {l : Loc} (h : locate s.cfg a = some l) :
    s.hostRead a = s.readLoc l := by
  simp only [State.hostRead, h]

theorem State.hostRead_reserved {s : State} {a : Addr} (h : locate s.cfg a = none) : s.hostRead a = 0 := by
  simp only [State.hostRead, h]

theorem State.hostWrite_of_locate {s : State} {a : Addr} {l : Loc} {v : Word} (h : locate s.cfg a = some l) :
    s.hostWrite a v = s.writeLoc l v := by
  simp only [State.hostWrite, h]

theorem State.hostWrite_reserved {s : State} {a : Addr} {v : Word} (h : locate s.cfg a = none) :
    s.hostWrite a v = s := by
  simp only [State.hostWrite, h]

end Sys2Proof.Machine
end

