-- ==== Sys2Proof/Laws/Bits.lean ====
section
/-! SUPPORT. Codes as bit strings, and numbers as words. -/

namespace Sys2Proof.Machine

@[simp] theorem Code.length_str (c : Code) : c.str.length = c.len := by simp [Code.str]

theorem Code.getElem_str (c : Code) (t : Nat) (h : t < c.str.length) :
    c.str[t] = c.bits.testBit (c.len - 1 - t) := by simp [Code.str]

/-- Appending a bit appends it to the string. -/
theorem Code.str_append (c : Code) (b : Bool) : (c.append b).str = c.str ++ [b] := by
  apply List.ext_getElem
  · simp [Code.append]
  · intro t h1 h2
    simp only [Code.length_str, Code.append] at h1
    rw [Code.getElem_str]
    simp only [Code.append, Nat.testBit_or, Nat.testBit_shiftLeft]
    by_cases ht : t = c.len
    · subst ht
      have e : c.len + 1 - 1 - c.len = 0 := by omega
      rw [e]
      simp
      cases b <;> simp
    · have hlt : t < c.str.length := by simp; omega
      rw [List.getElem_append_left hlt, Code.getElem_str]
      have e : c.len + 1 - 1 - t = (c.len - 1 - t) + 1 := by omega
      rw [e]
      cases b <;> simp [Nat.testBit_succ]

@[simp] theorem Code.str_empty : Code.empty.str = [] := rfl

theorem Code.foldl_append_str (bs : List Bool) (c : Code) : (bs.foldl Code.append c).str = c.str ++ bs := by
  induction bs generalizing c with
  | nil => simp
  | cons b bs ih => simp [ih, Code.str_append]

/-- The string of the code of a bit string is that string. -/
@[simp] theorem Code.str_ofBits (bs : List Bool) : (Code.ofBits bs).str = bs := by
  simp [Code.ofBits, Code.foldl_append_str]

@[simp] theorem Code.len_ofBits (bs : List Bool) : (Code.ofBits bs).len = bs.length := by
  rw [← Code.length_str, Code.str_ofBits]

/-- No stored bit above the length. -/
def Code.fits (c : Code) : Prop := c.bits < 2 ^ c.len

theorem Code.fits_empty : Code.empty.fits := by simp [Code.fits, Code.empty]

theorem Code.fits_append {c : Code} (b : Bool) (h : c.fits) : (c.append b).fits := by
  simp only [Code.fits, Code.append] at *
  rw [Nat.pow_succ]
  apply Nat.or_lt_two_pow (n := c.len + 1)
  · rw [Nat.shiftLeft_eq]; rw [Nat.pow_succ]; omega
  · have : b.toNat < 2 := by cases b <;> simp
    calc b.toNat < 2 ^ 1 := by omega
      _ ≤ 2 ^ (c.len + 1) := Nat.pow_le_pow_right (by omega) (by omega)

theorem Code.fits_ofBits (bs : List Bool) : (Code.ofBits bs).fits := by
  unfold Code.ofBits
  have : ∀ c : Code, c.fits → (bs.foldl Code.append c).fits := by
    induction bs with
    | nil => intro c h; exact h
    | cons b bs ih => intro c h; exact ih _ (Code.fits_append b h)
  exact this _ Code.fits_empty

/-- Two codes without stray bits and with the same string are equal. -/
theorem Code.ext_of_str {c d : Code} (hc : c.fits) (hd : d.fits) (h : c.str = d.str) : c = d := by
  have hl : c.len = d.len := by rw [← Code.length_str c, h, Code.length_str]
  have hb : c.bits = d.bits := by
    apply Nat.eq_of_testBit_eq
    intro i
    by_cases hi : i < c.len
    · have h1 : c.len - 1 - i < c.str.length := by simp; omega
      have h2 : c.len - 1 - i < d.str.length := by simp; omega
      have e := Code.getElem_str c _ h1
      have e' := Code.getElem_str d _ h2
      have : c.str[c.len - 1 - i] = d.str[c.len - 1 - i] := by simp [h]
      rw [e, e', show c.len - 1 - (c.len - 1 - i) = i by omega,
        show d.len - 1 - (c.len - 1 - i) = i by omega] at this
      exact this
    · have hle : c.len ≤ i := by omega
      rw [Nat.testBit_lt_two_pow (Nat.lt_of_lt_of_le hc (Nat.pow_le_pow_right (by omega) hle)),
        Nat.testBit_lt_two_pow (Nat.lt_of_lt_of_le hd (Nat.pow_le_pow_right (by omega) (by omega)))]
  cases c; cases d; simp_all

theorem Code.ofBits_str {c : Code} (hc : c.fits) : Code.ofBits c.str = c :=
  Code.ext_of_str (Code.fits_ofBits _) hc (by simp)

/-- The numeric test of R9 says that one string begins the other. -/
theorem Code.leads_iff {c d : Code} (hc : c.fits) (hd : d.fits) : c.leads d = true ↔ c.str <+: d.str := by
  unfold Code.leads
  simp only [Bool.and_eq_true, decide_eq_true_eq, beq_iff_eq]
  constructor
  · rintro ⟨hl, hb⟩
    rw [List.prefix_iff_eq_take]
    apply List.ext_getElem
    · simp [hl]
    · intro t h1 h2
      rw [List.getElem_take, Code.getElem_str, Code.getElem_str, ← hb, Nat.testBit_shiftRight]
      simp only [Code.length_str] at h1
      congr 1
      omega
  · intro h
    have hl : c.len ≤ d.len := by simpa using h.length_le
    refine ⟨hl, ?_⟩
    have hf : (⟨c.len, d.bits >>> (d.len - c.len)⟩ : Code).fits := by
      show d.bits >>> (d.len - c.len) < 2 ^ c.len
      rw [Nat.shiftRight_eq_div_pow]
      apply Nat.div_lt_of_lt_mul
      rw [← Nat.pow_add]
      rw [show d.len - c.len + c.len = d.len by omega]
      exact hd
    have := Code.ext_of_str hf hc (by
      rw [List.prefix_iff_eq_take.1 h]
      apply List.ext_getElem
      · simp [hl]
      · intro t h1 h2
        rw [List.getElem_take, Code.getElem_str, Code.getElem_str, Nat.testBit_shiftRight]
        simp only [Code.length_str] at h1
        congr 1
        simp only
        omega)
    exact congrArg Code.bits this

/-! ## Words -/

@[simp] theorem length_natToWords (n b : Nat) : (natToWords n b).length = n := by
  induction n generalizing b with
  | zero => rfl
  | succ n ih => simp [natToWords, ih]

/-- The words of a number that fits hold that number. -/
theorem wordsToNat_natToWords (n b : Nat) (h : b < 2 ^ (32 * n)) : wordsToNat (natToWords n b) = b := by
  induction n generalizing b with
  | zero => simp at h; simp [natToWords, wordsToNat, h]
  | succ n ih =>
    have hb : b >>> 32 < 2 ^ (32 * n) := by
      rw [Nat.shiftRight_eq_div_pow]
      apply Nat.div_lt_of_lt_mul
      rw [← Nat.pow_add]
      rwa [show 32 + 32 * n = 32 * (n + 1) by omega]
    simp only [natToWords, wordsToNat, ih _ hb, BitVec.toNat_ofNat]
    rw [Nat.shiftRight_eq_div_pow]
    omega

theorem wordsToNat_lt (ws : List Word) : wordsToNat ws < 2 ^ (32 * ws.length) := by
  induction ws with
  | nil => simp [wordsToNat]
  | cons w ws ih =>
    simp only [wordsToNat, List.length_cons]
    rw [show 32 * (ws.length + 1) = 32 + 32 * ws.length by omega, Nat.pow_add]
    have := w.isLt
    nlinarith

end Sys2Proof.Machine
end

