-- ==== Sys2Proof/Laws/Checks.lean ====
section
/-! SUPPORT. The table checks: what each reports, and that none reports anything exactly when the table is well-formed (spec 10_state.md R32, R33). -/

namespace Sys2Proof.Machine

theorem smallest_eq_some {n : Nat} {p : Nat → Bool} {j : Nat} :
    smallest n p = some j ↔ j < n ∧ p j = true ∧ ∀ i, i < j → p i = false := by
  unfold smallest
  rw [List.find?_range_eq_some]
  simp only [List.mem_range, Bool.not_eq_eq_eq_not, Bool.not_true]
  tauto

theorem smallest_eq_none {n : Nat} {p : Nat → Bool} : smallest n p = none ↔ ∀ j, j < n → p j = false := by
  unfold smallest
  simp [List.find?_eq_none]

/-- What `dupSymbol` reports: the smallest index whose symbol stands at an earlier one (R241). -/
theorem dupSymbol_eq_some {syms : List Word} {j : Nat} :
    dupSymbol syms = some j ↔
      j < syms.length ∧ (∃ i, i < j ∧ syms[i]? = syms[j]?) ∧
        ∀ j', j' < j → ∀ i, i < j' → syms[i]? ≠ syms[j']? := by
  unfold dupSymbol
  rw [smallest_eq_some]
  simp only [List.any_eq_true, List.mem_range, beq_iff_eq, List.any_eq_false]

theorem dupSymbol_eq_none {syms : List Word} : dupSymbol syms = none ↔ syms.Nodup := by
  unfold dupSymbol
  rw [smallest_eq_none, List.nodup_iff_getElem?_ne_getElem?]
  simp only [List.any_eq_false, List.mem_range, beq_iff_eq]
  constructor
  · intro h i j hij hj; exact h j hj i hij
  · intro h j hj i hij; exact h i j hij hj

theorem leadsAt_iff {t : List CodeEntry} {i j : Nat} :
    leadsAt t i j = true ↔ ∃ d e, t[i]? = some d ∧ t[j]? = some e ∧ i ≠ j ∧ d.code.leads e.code = true := by
  unfold leadsAt
  split
  · rename_i d e hd he
    simp [hd, he]
  · rename_i h
    constructor
    · intro h'; cases h'
    · rintro ⟨d, e, hd, he, -⟩; exact absurd he (h d e hd)

theorem badLength_eq_none {c : Config} {t : List CodeEntry} :
    badLength c t = none ↔ ∀ e ∈ t, 1 ≤ e.code.len ∧ e.code.len ≤ c.codeMax := by
  unfold badLength
  rw [List.findIdx?_eq_none_iff]
  simp only [Bool.or_eq_false_iff, decide_eq_false_iff_not]
  exact forall₂_congr fun e _ => by omega

theorem badBits_eq_none {t : List CodeEntry} : badBits t = none ↔ ∀ e ∈ t, e.code.fits := by
  unfold badBits
  rw [List.findIdx?_eq_none_iff]
  simp only [decide_eq_false_iff_not, Nat.not_le]
  exact Iff.rfl

theorem badPrefix_eq_none {t : List CodeEntry} (h : ∀ e ∈ t, e.code.fits) :
    badPrefix t = none ↔ ∀ (i j : Nat) (d e : CodeEntry),
      t[i]? = some d → t[j]? = some e → i ≠ j → ¬ d.code.str <+: e.code.str := by
  unfold badPrefix
  rw [smallest_eq_none]
  simp only [List.any_eq_false, List.mem_range, leadsAt_iff]
  constructor
  · intro hh i j d e hd he hij hp
    have hi : i < t.length := (List.getElem?_eq_some_iff.1 hd).1
    have hj : j < t.length := (List.getElem?_eq_some_iff.1 he).1
    refine hh j hj i hi ⟨d, e, hd, he, hij, ?_⟩
    exact (Code.leads_iff (h d (List.mem_of_getElem? hd)) (h e (List.mem_of_getElem? he))).2 hp
  · rintro hh j hj i hi ⟨d, e, hd, he, hij, hp⟩
    exact hh i j d e hd he hij
      ((Code.leads_iff (h d (List.mem_of_getElem? hd)) (h e (List.mem_of_getElem? he))).1 hp)

/-- The four conditions find nothing exactly when the table is well-formed (R32). -/
theorem codeTableError_eq_none {c : Config} {t : List CodeEntry} : codeTableError c t = none ↔ CodeWF c t := by
  constructor
  · intro h
    unfold codeTableError at h
    split at h
    · cases h
    · rename_i h1
      split at h
      · cases h
      · rename_i h2
        split at h
        · cases h
        · rename_i h3
          split at h
          · cases h
          · rename_i h4
            have hb := badBits_eq_none.1 h2
            exact ⟨badLength_eq_none.1 h1, hb, dupSymbol_eq_none.1 h3, (badPrefix_eq_none hb).1 h4⟩
  · intro h
    have h1 := badLength_eq_none.2 h.lengths
    have h2 := badBits_eq_none.2 h.bits
    have h3 := dupSymbol_eq_none.2 h.symbols
    have h4 := (badPrefix_eq_none h.bits).2 h.prefixFree
    simp [codeTableError, h1, h2, h3, h4]

/-- Whatever the checks report is an `OperandError`. -/
theorem codeTableError_operand {c : Config} {t : List CodeEntry} {e : CmdError} (h : codeTableError c t = some e) :
    ∃ sub info, e = .operand sub info ∧ sub ≠ .noTree ∧ sub ≠ .padRange ∧ sub ≠ .length := by
  unfold codeTableError at h
  split at h
  · cases h; exact ⟨_, _, rfl, by simp, by simp, by simp⟩
  · split at h
    · cases h; exact ⟨_, _, rfl, by simp, by simp, by simp⟩
    · split at h
      · cases h; exact ⟨_, _, rfl, by simp, by simp, by simp⟩
      · split at h
        · cases h; exact ⟨_, _, rfl, by simp, by simp, by simp⟩
        · cases h

/-- In a well-formed table two entries with the same code string are one entry. -/
theorem CodeWF.eq_of_prefix {c : Config} {t : List CodeEntry} (h : CodeWF c t) {d e : CodeEntry} (hd : d ∈ t)
    (he : e ∈ t) (hp : d.code.str <+: e.code.str) : d = e := by
  obtain ⟨i, hi⟩ := List.getElem?_of_mem hd
  obtain ⟨j, hj⟩ := List.getElem?_of_mem he
  by_cases hij : i = j
  · subst hij; rw [hi] at hj; exact Option.some.inj hj
  · exact absurd hp (h.prefixFree i j d e hi hj hij)

/-- In a well-formed table the entry of a symbol is the one with that symbol. -/
theorem CodeWF.lookup_of_mem {c : Config} {t : List CodeEntry} (h : CodeWF c t) {e : CodeEntry} (he : e ∈ t) :
    lookup t e.sym = some e := by
  unfold lookup
  cases hf : t.find? (fun d => d.sym == e.sym) with
  | none => have := List.find?_eq_none.1 hf e he; simp at this
  | some d =>
    have h1 := List.find?_some hf
    have h2 := List.mem_of_find?_eq_some hf
    simp only [beq_iff_eq] at h1
    rw [List.inj_on_of_nodup_map h.symbols h2 he h1]

/-- In a well-formed table the entry whose code is a candidate is the one with that code. -/
theorem CodeWF.matchCode_of_mem {c : Config} {t : List CodeEntry} (h : CodeWF c t) {e : CodeEntry} (he : e ∈ t) :
    matchCode t e.code = some e := by
  unfold matchCode
  cases hf : t.find? (fun d => d.code == e.code) with
  | none => have := List.find?_eq_none.1 hf e he; simp at this
  | some d =>
    have h1 := List.find?_some hf
    have h2 := List.mem_of_find?_eq_some hf
    simp only [beq_iff_eq] at h1
    rw [h.eq_of_prefix h2 he (by rw [h1])]

theorem matchCode_eq_some {t : List CodeEntry} {cand : Code} {e : CodeEntry} (h : matchCode t cand = some e) :
    e ∈ t ∧ e.code = cand := by
  unfold matchCode at h
  exact ⟨List.mem_of_find?_eq_some h, by simpa using List.find?_some h⟩

end Sys2Proof.Machine
end

