-- ==== Sys2Proof/Laws/Count.lean ====
section
/-! SUPPORT. What the loop of COUNT gives: the first-seen symbols with their numbers of occurrences, where they fit (spec 40_count.md R110 to R112). -/

namespace Sys2Proof.Machine

/-- The table of a text, said without the loop. -/
def countTable (xs : List Word) : List FreqEntry := (firstSeen xs).map fun x => { sym := x, count := xs.count x }

theorem mem_firstSeen {xs : List Word} {x : Word} : x ∈ firstSeen xs ↔ x ∈ xs := by
  induction xs with
  | nil => simp [firstSeen]
  | cons y ys ih =>
    simp only [firstSeen, List.mem_cons, List.mem_filter, ih, bne_iff_ne, ne_eq]
    tauto

theorem nodup_firstSeen (xs : List Word) : (firstSeen xs).Nodup := by
  induction xs with
  | nil => simp [firstSeen]
  | cons y ys ih =>
    simp only [firstSeen, List.nodup_cons, List.mem_filter, bne_iff_ne, ne_eq, not_true, and_false, not_false_iff,
      true_and]
    exact ih.filter _

theorem bump_eq_none {x : Word} {t : List FreqEntry} : bump x t = none ↔ x ∉ t.map (·.sym) := by
  induction t with
  | nil => simp [bump]
  | cons e t ih =>
    simp only [bump, List.map_cons, List.mem_cons, not_or]
    split
    · rename_i h; simp [h]
    · rename_i h
      rw [Option.map_eq_none_iff, ih]
      exact ⟨fun h' => ⟨fun h'' => h h''.symm, h'⟩, fun h' => h'.2⟩

theorem bump_eq_some {x : Word} {t t' : List FreqEntry} (hn : (t.map (·.sym)).Nodup) (h : bump x t = some t') :
    t' = t.map fun e => { e with count := e.count + if e.sym = x then 1 else 0 } := by
  induction t generalizing t' with
  | nil => simp [bump] at h
  | cons e t ih =>
    simp only [List.map_cons, List.nodup_cons] at hn
    simp only [bump] at h
    split at h
    · rename_i he
      cases h
      simp only [List.map_cons, he, if_true]
      congr 1
      rw [List.map_congr_left (g := id)]
      · simp
      · intro d hd
        have : d.sym ≠ x := by
          rintro rfl
          exact hn.1 (by rw [he]; exact List.mem_map_of_mem hd)
        simp [this]
    · rename_i he
      obtain ⟨t'', h1, h2⟩ := Option.map_eq_some_iff.1 h
      rw [← h2, ih hn.2 h1]
      simp [he]

/-- The table after a further text `xs`, starting from a table with entries already. -/
def extendTable (t : List FreqEntry) (xs : List Word) : List FreqEntry :=
  (t.map fun e => { e with count := e.count + xs.count e.sym })
    ++ ((firstSeen xs).filter fun x => decide (x ∉ t.map (·.sym))).map fun x => { sym := x, count := xs.count x }

theorem tally_eq (cap : Nat) (xs : List Word) (t : List FreqEntry) (hn : (t.map (·.sym)).Nodup)
    (hc : t.length ≤ cap) :
    tally cap xs t = if (extendTable t xs).length ≤ cap then some (extendTable t xs) else none := by
  induction xs generalizing t with
  | nil => simp [tally, extendTable, firstSeen, hc]
  | cons x xs ih =>
    simp only [tally]
    cases hb : bump x t with
    | some t' =>
      have ht' := bump_eq_some hn hb
      have hsyms : t'.map (·.sym) = t.map (·.sym) := by rw [ht']; simp [Function.comp_def]
      have hx : x ∈ t.map (·.sym) := by
        by_contra hx
        rw [bump_eq_none.2 hx] at hb
        cases hb
      simp only
      rw [ih t' (by rw [hsyms]; exact hn) (by rw [ht']; simpa using hc)]
      have : extendTable t' xs = extendTable t (x :: xs) := by
        unfold extendTable
        congr 1
        · rw [ht', List.map_map]
          apply List.map_congr_left
          intro e he
          simp only [Function.comp, List.count_cons, beq_iff_eq]
          congr 1
          by_cases hex : e.sym = x
          · simp [hex]; omega
          · simp [hex, Ne.symm hex]
        · rw [hsyms]
          simp only [firstSeen, List.filter_cons, List.filter_filter]
          rw [if_neg (by simpa using hx)]
          have hf : (firstSeen xs).filter (fun a => decide (a ∉ t.map (·.sym)) && a != x) =
              (firstSeen xs).filter (fun a => decide (a ∉ t.map (·.sym))) := by
            apply List.filter_congr
            intro a _
            by_cases ha : a = x
            · subst ha; simp [hx]
            · simp [ha]
          rw [hf]
          apply List.map_congr_left
          intro a ha
          have hax : a ≠ x := by
            rintro rfl
            simp only [List.mem_filter, decide_eq_true_eq] at ha
            exact ha.2 hx
          simp [Ne.symm hax]
      rw [this]
    | none =>
      have hx := bump_eq_none.1 hb
      have hlen : t.length + 1 ≤ (extendTable t (x :: xs)).length := by
        have hxd : decide (x ∉ t.map (·.sym)) = true := by simpa using hx
        simp only [extendTable, firstSeen, List.filter_cons, hxd, if_true, List.length_append, List.length_map,
          List.length_cons]
        omega
      simp only
      split
      · rename_i heq
        rw [if_neg (by omega)]
      · rename_i hne
        have hn' : ((t ++ [({ sym := x, count := 1 } : FreqEntry)]).map (·.sym)).Nodup := by
          rw [List.map_append, List.nodup_append]
          refine ⟨hn, by simp, ?_⟩
          intro a ha b hb'
          simp only [List.map_cons, List.map_nil, List.mem_singleton] at hb'
          rintro rfl
          exact hx (hb' ▸ ha)
        rw [ih _ hn' (by simp; omega)]
        have : extendTable (t ++ [{ sym := x, count := 1 }]) xs = extendTable t (x :: xs) := by
          have hxd : decide (x ∉ t.map (·.sym)) = true := by simpa using hx
          simp only [extendTable, firstSeen, List.map_append, List.map_cons, List.map_nil, List.append_assoc,
            List.filter_cons, hxd, if_true, List.filter_filter]
          congr 1
          · apply List.map_congr_left
            intro e he
            have : e.sym ≠ x := by rintro rfl; exact hx (List.mem_map_of_mem he)
            simp [Ne.symm this]
          · simp only [List.cons_append, List.nil_append]
            congr 1
            · simp [Nat.add_comm]
            · have hf : (firstSeen xs).filter (fun a => decide (a ∉ t.map (·.sym) ++ [x])) =
                  (firstSeen xs).filter (fun a => decide (a ∉ t.map (·.sym)) && a != x) := by
                apply List.filter_congr
                intro a _
                by_cases ha : a = x
                · subst ha; simp
                · simp [ha]
              rw [hf]
              apply List.map_congr_left
              intro a ha
              have hax : a ≠ x := by
                rintro rfl
                simp at ha
              simp [Ne.symm hax]
        rw [this]

/-- The loop of COUNT from the empty table: the table of the text, where it fits. -/
theorem tally_nil (cap : Nat) (xs : List Word) :
    tally cap xs [] = if (firstSeen xs).length ≤ cap then some (countTable xs) else none := by
  rw [tally_eq cap xs [] (by simp) (by simp)]
  have : extendTable [] xs = countTable xs := by
    have : (firstSeen xs).filter (fun _ => true) = firstSeen xs := List.filter_eq_self.2 (by simp)
    simp [extendTable, countTable, this]
  rw [this]
  simp [countTable]

@[simp] theorem length_countTable (xs : List Word) : (countTable xs).length = (firstSeen xs).length := by
  simp [countTable]

theorem countTable_syms (xs : List Word) : (countTable xs).map (·.sym) = firstSeen xs := by
  simp [countTable, Function.comp_def]

/-- Frequency conservation (R112). -/
theorem countTable_total (xs : List Word) : ((countTable xs).map (·.count)).sum = xs.length := by
  have h : ∀ (l : List Word), l.Nodup → (∀ x ∈ xs, x ∈ l) → (l.map fun x => xs.count x).sum = xs.length := by
    induction xs with
    | nil => intro l _ _; simp
    | cons y ys ih =>
      intro l hl hm
      have h1 := ih l hl (fun x hx => hm x (List.mem_cons_of_mem _ hx))
      have h2 : (l.map fun x => (y :: ys).count x) = l.map fun x => ys.count x + if y = x then 1 else 0 := by
        apply List.map_congr_left
        intro x _
        simp [List.count_cons]
      have h3 : (l.map fun x => if y = x then 1 else 0).sum = 1 := by
        have hy := hm y (List.mem_cons_self)
        have hsum : ∀ l : List Word, (l.map fun x => if y = x then 1 else 0).sum = l.count y := by
          intro l
          induction l with
          | nil => rfl
          | cons a l ihl => simp only [List.map_cons, List.sum_cons, ihl, List.count_cons, beq_iff_eq]; grind
        rw [hsum, List.count_eq_one_of_mem hl hy]
      rw [h2, List.sum_map_add, h1, h3]
      simp
  have := h (firstSeen xs) (nodup_firstSeen xs) (fun x hx => mem_firstSeen.2 hx)
  simpa [countTable, Function.comp_def] using this

end Sys2Proof.Machine
end

