-- ==== Sys2Proof/Laws/Path.lean ====
section
/-! SUPPORT. Paths in a tree of R34: the climb of GEN finds the one bit string that leads from the root to a node, so the codes are prefix-free, complete and short enough (spec 42_gen.md R161 to R165, 41_build.md R137). -/

namespace Sys2Proof.Machine

theorem childSide_eq_some {e : NodeEntry} {k : Nat} {b : Bool} (h : childSide e k = some b) :
    e.leaf = false ∧ (if b then e.right.toNat else e.left.toNat) = k := by
  unfold childSide at h
  split at h
  · cases h
  · rename_i hl
    split at h
    · rename_i h1; cases h; exact ⟨by simpa using hl, by simpa using h1⟩
    · split at h
      · rename_i h1; cases h; exact ⟨by simpa using hl, by simpa using h1⟩
      · cases h

theorem childSide_isSome {nd : List NodeEntry} {k p : Nat} {e : NodeEntry} (he : nd[p]? = some e)
    (h : IsChild nd k p) : ∃ b, childSide e k = some b := by
  obtain ⟨e', he', hl, hc⟩ := h
  rw [he] at he'
  cases he'
  unfold childSide
  rw [hl]
  by_cases h1 : e.left.toNat = k
  · exact ⟨false, by simp [h1]⟩
  · exact ⟨true, by simp [h1, hc.resolve_left h1]⟩

/-- What the search for a parent finds. -/
theorem parentOf_eq_some {nd : List NodeEntry} {k p : Nat} {b : Bool} (h : parentOf nd k = some (p, b)) :
    ∃ e, nd[p]? = some e ∧ childSide e k = some b := by
  unfold parentOf at h
  obtain ⟨q, -, hq⟩ := List.exists_of_findSome?_eq_some h
  cases he : nd[q]? with
  | none => simp [he] at hq
  | some e =>
    simp only [he, Option.map_eq_some_iff, Prod.mk.injEq] at hq
    obtain ⟨b', hb, rfl, rfl⟩ := hq
    exact ⟨e, he, hb⟩

/-- The search for a parent finds one wherever there is one. -/
theorem parentOf_isSome {nd : List NodeEntry} {k p : Nat} (h : IsChild nd k p) : ∃ q b, parentOf nd k = some (q, b) := by
  cases hp : parentOf nd k with
  | some x => exact ⟨x.1, x.2, rfl⟩
  | none =>
    unfold parentOf at hp
    rw [List.findSome?_eq_none_iff] at hp
    obtain ⟨e, he, hl, hc⟩ := h
    have hpl := (List.getElem?_eq_some_iff.1 he).1
    have h1 := hp p (List.mem_range.2 hpl)
    obtain ⟨b, hb⟩ := childSide_isSome he ⟨e, he, hl, hc⟩
    simp [he, hb] at h1

theorem isChild_of_parentOf {nd : List NodeEntry} {k p : Nat} {b : Bool} (h : parentOf nd k = some (p, b)) :
    IsChild nd k p := by
  obtain ⟨e, he, hb⟩ := parentOf_eq_some h
  obtain ⟨hl, hc⟩ := childSide_eq_some hb
  refine ⟨e, he, hl, ?_⟩
  cases b
  · exact .inl (by simpa using hc)
  · exact .inr (by simpa using hc)

/-! ## Descending -/

theorem descend_append (nd : List NodeEntry) (k : Nat) (xs ys : List Bool) :
    descend nd k (xs ++ ys) = (descend nd k xs).bind fun m => descend nd m ys := by
  induction xs generalizing k with
  | nil =>
    simp only [List.nil_append, descend]
    split
    · rfl
    · rename_i h
      cases ys with
      | nil => simp [descend, h]
      | cons b ys => simp [descend, List.getElem?_eq_none (Nat.le_of_not_lt h)]
  | cons b xs ih =>
    simp only [List.cons_append, descend]
    cases nd[k]? with
    | none => rfl
    | some e =>
      simp only
      split
      · rfl
      · exact ih _

theorem descend_lt {nd : List NodeEntry} {k m : Nat} {bs : List Bool} (h : descend nd k bs = some m) :
    m < nd.length := by
  induction bs generalizing k with
  | nil =>
    simp only [descend] at h
    split at h
    · cases h; assumption
    · cases h
  | cons b bs ih =>
    simp only [descend] at h
    cases he : nd[k]? with
    | none => simp [he] at h
    | some e =>
      simp only [he] at h
      split at h
      · cases h
      · exact ih h

/-- Nothing lies below a leaf. -/
theorem descend_leaf {nd : List NodeEntry} {k m : Nat} {e : NodeEntry} {bs : List Bool} (he : nd[k]? = some e)
    (hl : e.leaf = true) (h : descend nd k bs = some m) : bs = [] := by
  cases bs with
  | nil => rfl
  | cons b bs => simp [descend, he, hl] at h

theorem descend_child {nd : List NodeEntry} {k p : Nat} {e : NodeEntry} {b : Bool} (he : nd[p]? = some e)
    (h : childSide e k = some b) (hk : k < nd.length) : descend nd p [b] = some k := by
  obtain ⟨hl, hc⟩ := childSide_eq_some h
  simp [descend, he, hl, hc, hk]

/-- A single bit leads to a child. -/
theorem childSide_of_descend {nd : List NodeEntry} {k p : Nat} {b : Bool} (h : descend nd p [b] = some k) :
    ∃ e, nd[p]? = some e ∧ e.leaf = false ∧ (if b then e.right.toNat else e.left.toNat) = k := by
  simp only [descend] at h
  cases he : nd[p]? with
  | none => simp [he] at h
  | some e =>
    simp only [he] at h
    cases hl : e.leaf with
    | true => simp [hl] at h
    | false =>
      rw [hl, if_neg (by simp)] at h
      by_cases hc : (if b then e.right.toNat else e.left.toNat) < nd.length
      · rw [if_pos hc] at h
        exact ⟨e, rfl, hl, Option.some.inj h⟩
      · rw [if_neg hc] at h
        cases h

namespace ArenaTree

variable {nd : List NodeEntry} {n : Nat}

theorem root_lt (h : ArenaTree nd n) : 2 * n - 2 < nd.length := by
  have := h.leaves_pos; have := h.size; omega

/-- A parent is an internal node above its child. -/
theorem parent_bounds (h : ArenaTree nd n) {k p : Nat} (hc : IsChild nd k p) : n ≤ p ∧ k < p ∧ p ≤ 2 * n - 2 := by
  obtain ⟨e, he, hl, hk⟩ := hc
  have hp := (List.getElem?_eq_some_iff.1 he).1
  have hpn : n ≤ p := by
    by_contra hc
    have := (h.leaf p e he (by omega)).1
    rw [hl] at this; cases this
  obtain ⟨_, _, h3, h4, _⟩ := h.inner p e he hpn
  have := h.size
  refine ⟨hpn, by omega, by omega⟩

/-- Every node but the root has a parent, and the climb finds it. -/
theorem parentOf (h : ArenaTree nd n) {k : Nat} (hk : k < 2 * n - 2) :
    ∃ p b, Machine.parentOf nd k = some (p, b) ∧ IsChild nd k p := by
  obtain ⟨p, hp, -⟩ := h.parent k hk
  obtain ⟨q, b, hq⟩ := parentOf_isSome hp
  exact ⟨q, b, hq, isChild_of_parentOf hq⟩

theorem pathBits_step (h : ArenaTree nd n) {fuel k : Nat} (hk : k < 2 * n - 2) :
    ∃ p b, Machine.parentOf nd k = some (p, b) ∧ n ≤ p ∧ k < p ∧ p ≤ 2 * n - 2 ∧ descend nd p [b] = some k ∧
      pathBits nd (2 * n - 2) (fuel + 1) k = pathBits nd (2 * n - 2) fuel p ++ [b] := by
  obtain ⟨p, b, hp, hc⟩ := h.parentOf hk
  obtain ⟨h1, h2, h3⟩ := h.parent_bounds hc
  obtain ⟨e, he, hb⟩ := parentOf_eq_some hp
  have := h.root_lt
  refine ⟨p, b, hp, h1, h2, h3, descend_child he hb (by omega), ?_⟩
  simp only [pathBits, hp]
  rw [if_neg (by omega)]

/-- The path of a node leads from the root to it (R161). -/
theorem descend_path (h : ArenaTree nd n) {fuel k : Nat} (hk : k ≤ 2 * n - 2) (hf : 2 * n - 2 < fuel + k) :
    descend nd (2 * n - 2) (pathBits nd (2 * n - 2) fuel k) = some k := by
  induction fuel generalizing k with
  | zero => omega
  | succ f ih =>
    by_cases hr : k = 2 * n - 2
    · have := h.root_lt
      simp only [pathBits, hr, if_true, descend]
      rw [if_pos this]
    · obtain ⟨p, b, -, -, h2, h3, h4, h5⟩ := h.pathBits_step (fuel := f) (k := k) (by omega)
      rw [h5, descend_append, ih (k := p) h3 (by omega)]
      exact h4

/-- A path is no longer than the internal nodes on it (R137, R163). -/
theorem length_path (h : ArenaTree nd n) {fuel k : Nat} :
    (pathBits nd (2 * n - 2) fuel k).length ≤ 2 * n - 2 - k ∧
      (k < n → 2 ≤ n → (pathBits nd (2 * n - 2) fuel k).length ≤ n - 1) := by
  have hb : ∀ fuel k, (pathBits nd (2 * n - 2) fuel k).length ≤ 2 * n - 2 - k := by
    intro fuel
    induction fuel with
    | zero => intro k; simp [pathBits]
    | succ f ih =>
      intro k
      by_cases hk : k < 2 * n - 2
      · obtain ⟨p, b, -, -, h2, h3, -, h5⟩ := h.pathBits_step (fuel := f) hk
        rw [h5]
        have := ih p
        simp only [List.length_append, List.length_singleton]
        omega
      · simp only [pathBits]
        split
        · simp
        · rename_i hr
          cases hp : Machine.parentOf nd k with
          | none => simp
          | some x =>
            have := h.parent_bounds (isChild_of_parentOf (p := x.1) (b := x.2) hp)
            omega
  refine ⟨hb fuel k, fun hk hn => ?_⟩
  cases fuel with
  | zero => simp [pathBits]
  | succ f =>
    obtain ⟨p, b, -, h1, h2, h3, -, h5⟩ := h.pathBits_step (fuel := f) (k := k) (by omega)
    rw [h5]
    have := hb f p
    simp only [List.length_append, List.length_singleton]
    omega

/-- There is one bit string only that leads from the root to a node (R161). -/
theorem path_unique (h : ArenaTree nd n) {bs : List Bool} {fuel k : Nat}
    (hd : descend nd (2 * n - 2) bs = some k) (hf : 2 * n - 2 < fuel + k) :
    pathBits nd (2 * n - 2) fuel k = bs := by
  induction bs using List.reverseRecOn generalizing k fuel with
  | nil =>
    simp only [descend] at hd
    split at hd
    · cases hd
      cases fuel with
      | zero => omega
      | succ f => simp [pathBits]
    · cases hd
  | append_singleton xs b ih =>
    rw [descend_append] at hd
    obtain ⟨p, hp, hk⟩ := Option.bind_eq_some_iff.1 hd
    obtain ⟨e, he, hl, hc⟩ := childSide_of_descend hk
    have hchild : IsChild nd k p := by
      refine ⟨e, he, hl, ?_⟩
      cases b
      · exact .inl (by simpa using hc)
      · exact .inr (by simpa using hc)
    obtain ⟨h1, h2, h3⟩ := h.parent_bounds hchild
    cases fuel with
    | zero => omega
    | succ f =>
      obtain ⟨q, b', hq, -, -, -, -, h5⟩ := h.pathBits_step (fuel := f) (k := k) (by omega)
      obtain ⟨r, -, hr⟩ := h.parent k (by omega)
      have hqp : q = p := by rw [hr q (isChild_of_parentOf hq), hr p hchild]
      subst hqp
      have hbb : b' = b := by
        obtain ⟨e', he', hb'⟩ := parentOf_eq_some hq
        rw [he] at he'
        cases he'
        have hc' := (childSide_eq_some hb').2
        obtain ⟨_, _, _, _, hne, _⟩ := h.inner q e he (by omega)
        have hne' : e.left.toNat ≠ e.right.toNat := fun e1 => hne (BitVec.eq_of_toNat_eq e1)
        cases b <;> cases b' <;> simp_all
      rw [h5, ih hp (by omega), hbb]

/-- From an internal node every long enough bit string leads to a leaf (R165: the code is complete). -/
theorem descend_complete (h : ArenaTree nd n) {k : Nat} (hk : k ≤ 2 * n - 2) (bs : List Bool)
    (hl : k + 1 ≤ bs.length + n) : ∃ xs i, xs <+: bs ∧ i < n ∧ descend nd k xs = some i := by
  induction k using Nat.strong_induction_on generalizing bs with
  | _ k ih =>
    have hr := h.root_lt
    by_cases hkn : k < n
    · exact ⟨[], k, List.nil_prefix, hkn, by simp only [descend]; rw [if_pos (by omega)]⟩
    · cases bs with
      | nil => simp only [List.length_nil] at hl; omega
      | cons b bs =>
        have hkl : k < nd.length := by omega
        have he := List.getElem?_eq_getElem hkl
        obtain ⟨h1, _, h3, h4, _⟩ := h.inner k _ he (by omega)
        simp only [List.length_cons] at hl
        obtain ⟨xs, i, hp, hi, hd⟩ := ih (if b then nd[k].right.toNat else nd[k].left.toNat)
          (by split <;> omega) (by split <;> omega) bs (by split <;> omega)
        refine ⟨b :: xs, i, List.cons_prefix_cons.2 ⟨rfl, hp⟩, hi, ?_⟩
        simp [descend, he, h1, hd]

/-- The bits of leaf `i` as GEN finds them. -/
theorem descend_leafPath (h : ArenaTree nd n) {i : Nat} (hi : i < n) :
    descend nd (2 * n - 2) (pathBits nd (2 * n - 2) nd.length i) = some i := by
  have := h.size
  exact h.descend_path (by omega) (by omega)

theorem leaf_get (h : ArenaTree nd n) {i : Nat} (hi : i < n) :
    ∃ e, nd[i]? = some e ∧ e.leaf = true := by
  have := h.size
  have he := List.getElem?_eq_getElem (l := nd) (i := i) (by omega)
  exact ⟨_, he, (h.leaf i _ he hi).1⟩

/-- The path of one leaf does not begin the path of another (R165). -/
theorem path_prefix (h : ArenaTree nd n) {i j : Nat} (hi : i < n) (hj : j < n)
    (hp : pathBits nd (2 * n - 2) nd.length i <+: pathBits nd (2 * n - 2) nd.length j) : i = j := by
  obtain ⟨rest, hr⟩ := hp
  have h1 := h.descend_leafPath hi
  have h2 := h.descend_leafPath hj
  rw [← hr, descend_append, h1] at h2
  simp only [Option.bind_some] at h2
  obtain ⟨e, he, hl⟩ := h.leaf_get hi
  have hnil := descend_leaf he hl h2
  subst hnil
  simp only [descend] at h2
  split at h2
  · exact Option.some.inj h2
  · cases h2

end ArenaTree

/-! ## The table of GEN -/

theorem leafCount_size {nd : List NodeEntry} {n : Nat} (h : ArenaTree nd n) : leafCount nd.length = n := by
  have := h.size; have := h.leaves_pos
  simp only [leafCount]; omega

/-- The table of a tree, entry by entry (R166). -/
theorem genTable_eq {nd : List NodeEntry} {n : Nat} (h : ArenaTree nd n) (root : Nat) :
    genTable nd root = (List.range n).pmap
      (fun i (hi : i < nd.length) => { sym := nd[i].sym, code := leafCode nd root n i })
      (fun i hi => by have := h.size; have := List.mem_range.1 hi; omega) := by
  unfold genTable
  rw [leafCount_size h]
  have hsz := h.size
  have : ∀ (l : List Nat) (hl : ∀ i ∈ l, i < nd.length),
      l.filterMap (genEntry nd root n) =
        l.pmap (fun i (hi : i < nd.length) => ({ sym := nd[i].sym, code := leafCode nd root n i } : CodeEntry)) hl := by
    intro l hl
    induction l with
    | nil => rfl
    | cons i l ih =>
      have hi : i < nd.length := hl i List.mem_cons_self
      rw [List.filterMap_cons]
      simp only [genEntry, List.getElem?_eq_getElem hi, Option.map_some, List.pmap_cons]
      rw [ih]
  exact this _ _

@[simp] theorem length_genTable {nd : List NodeEntry} {n : Nat} (h : ArenaTree nd n) (root : Nat) :
    (genTable nd root).length = n := by rw [genTable_eq h]; simp

theorem getElem?_genTable {nd : List NodeEntry} {n : Nat} (h : ArenaTree nd n) (root : Nat) {i : Nat} (hi : i < n) :
    ∃ e, nd[i]? = some e ∧ (genTable nd root)[i]? = some { sym := e.sym, code := leafCode nd root n i } := by
  have hl : i < nd.length := by have := h.size; omega
  refine ⟨nd[i], List.getElem?_eq_getElem hl, ?_⟩
  rw [genTable_eq h]
  simp [hi]

theorem fits_leafCode (nd : List NodeEntry) (root n i : Nat) : (leafCode nd root n i).fits := by
  unfold leafCode
  split
  · simp [Code.fits]
  · exact Code.fits_ofBits _

/-- The string of a leaf's code where there are several leaves: its path (R161). -/
theorem str_leafCode {nd : List NodeEntry} {root n i : Nat} (hn : n ≠ 1) :
    (leafCode nd root n i).str = pathBits nd root nd.length i := by
  simp [leafCode, hn, pathCode]

/-- The lengths of the codes of a tree (R163). -/
theorem len_leafCode {nd : List NodeEntry} {n i : Nat} (h : ArenaTree nd n) (hi : i < n) :
    1 ≤ (leafCode nd (2 * n - 2) n i).len ∧ (leafCode nd (2 * n - 2) n i).len ≤ max 1 (n - 1) := by
  by_cases hn : n = 1
  · simp [leafCode, hn]
  · have hp := h.leaves_pos
    rw [← Code.length_str, str_leafCode hn]
    have h1 := (h.length_path (fuel := nd.length) (k := i)).2 hi (by omega)
    refine ⟨?_, by omega⟩
    by_contra hc
    have hnil : pathBits nd (2 * n - 2) nd.length i = [] := List.length_eq_zero_iff.1 (by omega)
    have := h.descend_leafPath hi
    rw [hnil] at this
    have hr := h.root_lt
    simp only [descend] at this
    rw [if_pos hr] at this
    have := Option.some.inj this
    omega

/-- The table of a tree is well-formed (R165). -/
theorem genTable_wf {c : Config} {nd : List NodeEntry} {n : Nat} (h : ArenaTree nd n) (hn : n ≤ c.nMax) :
    CodeWF c (genTable nd (2 * n - 2)) := by
  have hmem : ∀ e ∈ genTable nd (2 * n - 2), ∃ i, i < n ∧ e.code = leafCode nd (2 * n - 2) n i := by
    intro e he
    obtain ⟨i, hi⟩ := List.getElem?_of_mem he
    have hil := (List.getElem?_eq_some_iff.1 hi).1
    rw [length_genTable h] at hil
    obtain ⟨f, -, hf⟩ := getElem?_genTable h (2 * n - 2) hil
    rw [hi] at hf
    exact ⟨i, hil, by rw [Option.some.inj hf]⟩
  refine ⟨?_, ?_, ?_, ?_⟩
  · intro e he
    obtain ⟨i, hi, hc⟩ := hmem e he
    have := len_leafCode h hi
    rw [hc]
    simp only [Config.codeMax]
    omega
  · intro e he
    obtain ⟨i, hi, hc⟩ := hmem e he
    rw [hc]
    exact fits_leafCode _ _ _ _
  · have : (genTable nd (2 * n - 2)).map (·.sym) = (nd.take n).map (·.sym) := by
      apply List.ext_getElem?
      intro i
      by_cases hi : i < n
      · obtain ⟨e, he, hf⟩ := getElem?_genTable h (2 * n - 2) hi
        simp [hf, hi, he]
      · have h1 : (genTable nd (2 * n - 2))[i]? = none := List.getElem?_eq_none (by rw [length_genTable h]; omega)
        simp [h1, hi]
    rw [this]
    exact h.symbols
  · intro i j d e hd he hij hp
    have hi := (List.getElem?_eq_some_iff.1 hd).1
    have hj := (List.getElem?_eq_some_iff.1 he).1
    rw [length_genTable h] at hi hj
    obtain ⟨_, -, hf⟩ := getElem?_genTable h (2 * n - 2) hi
    obtain ⟨_, -, hg⟩ := getElem?_genTable h (2 * n - 2) hj
    rw [hd] at hf
    rw [he] at hg
    cases hf
    cases hg
    have hn1 : n ≠ 1 := by omega
    rw [str_leafCode hn1, str_leafCode hn1] at hp
    exact hij (h.path_prefix hi hj hp)

end Sys2Proof.Machine
end

