-- ==== Sys2Proof/Laws/Memory.lean ====
section
/-! SUPPORT. What reading and writing a storage space do, and that every operation keeps the canonical form. -/

namespace Sys2Proof.Machine

variable {α : Type}

theorem Memory.read?_write_same (m : Memory α) (a : Nat) (v : α) : (m.write a v).read? a = some v := by
  induction m with
  | nil => simp [Memory.write, Memory.read?]
  | cons p m ih =>
    obtain ⟨i, w⟩ := p
    simp only [Memory.write]
    split
    · simp [Memory.read?]
    · split
      · simp [Memory.read?]
      · rename_i h1 h2
        simp only [Memory.read?, ih]
        rw [if_neg (by omega)]

theorem Memory.read?_write_other (m : Memory α) {a b : Nat} (v : α) (h : b ≠ a) :
    (m.write a v).read? b = m.read? b := by
  induction m with
  | nil => simp [Memory.write, Memory.read?, Ne.symm h]
  | cons p m ih =>
    obtain ⟨i, w⟩ := p
    simp only [Memory.write]
    split
    · simp [Memory.read?, Ne.symm h]
    · split
      · rename_i h1 h2
        subst h2
        simp [Memory.read?, Ne.symm h]
      · simp only [Memory.read?, ih]

/-- Reading after writing one cell. -/
theorem Memory.read?_write (m : Memory α) (a b : Nat) (v : α) :
    (m.write a v).read? b = if b = a then some v else m.read? b := by
  split
  · rename_i h; subst h; exact m.read?_write_same b v
  · rename_i h; exact m.read?_write_other v h

/-- Every index a write lists was listed before or is the one written. -/
theorem Memory.mem_write {m : Memory α} {a : Nat} {v : α} {p : Nat × α} (h : p ∈ m.write a v) :
    p = (a, v) ∨ p ∈ m := by
  induction m with
  | nil => simpa [Memory.write] using h
  | cons q m ih =>
    obtain ⟨i, w⟩ := q
    simp only [Memory.write] at h
    split at h
    · simpa using h
    · split at h
      · rcases List.mem_cons.1 h with h | h
        · exact .inl h
        · exact .inr (List.mem_cons_of_mem _ h)
      · rcases List.mem_cons.1 h with h | h
        · exact .inr (by simp [h])
        · rcases ih h with h | h
          · exact .inl h
          · exact .inr (List.mem_cons_of_mem _ h)

theorem Memory.write_wf {m : Memory α} (a : Nat) (v : α) (h : m.wf) : (m.write a v).wf := by
  induction m with
  | nil => simp [Memory.write, Memory.wf]
  | cons q m ih =>
    obtain ⟨i, w⟩ := q
    simp only [Memory.wf, List.pairwise_cons] at h ih ⊢
    simp only [Memory.write]
    split
    · rename_i hlt
      refine List.pairwise_cons.2 ⟨?_, List.pairwise_cons.2 h⟩
      intro p hp
      rcases List.mem_cons.1 hp with rfl | hp
      · exact hlt
      · exact Nat.lt_trans hlt (h.1 p hp)
    · split
      · rename_i _ heq
        subst heq
        exact List.pairwise_cons.2 ⟨h.1, h.2⟩
      · refine List.pairwise_cons.2 ⟨?_, ih h.2⟩
        intro p hp
        rcases Memory.mem_write hp with rfl | hp
        · show i < a; omega
        · exact h.1 p hp

theorem Memory.writeFrom_wf {m : Memory α} (b : Nat) (vs : List α) (h : m.wf) : (m.writeFrom b vs).wf := by
  induction vs generalizing m b with
  | nil => exact h
  | cons v vs ih => exact ih (b + 1) (Memory.write_wf b v h)

/-- Reading after writing consecutive cells: the list inside its range, what was there outside it. -/
theorem Memory.read?_writeFrom (m : Memory α) (b : Nat) (vs : List α) (a : Nat) :
    (m.writeFrom b vs).read? a = if b ≤ a ∧ a < b + vs.length then vs[a - b]? else m.read? a := by
  induction vs generalizing m b with
  | nil => simp [Memory.writeFrom]
  | cons v vs ih =>
    simp only [Memory.writeFrom, ih, Memory.read?_write, List.length_cons]
    by_cases h1 : a = b
    · subst h1
      rw [if_neg (by omega), if_pos rfl, if_pos (by omega)]
      simp
    · by_cases h2 : b + 1 ≤ a ∧ a < b + 1 + vs.length
      · rw [if_pos h2, if_pos (by omega)]
        obtain ⟨k, rfl⟩ : ∃ k, a = b + 1 + k := ⟨a - (b + 1), by omega⟩
        rw [show b + 1 + k - b = k + 1 by omega, show b + 1 + k - (b + 1) = k by omega]
        simp
      · rw [if_neg h2, if_neg h1, if_neg (by omega)]

theorem Memory.mem_writeFrom {m : Memory α} {b : Nat} {vs : List α} {p : Nat × α} (h : p ∈ m.writeFrom b vs) :
    p ∈ m ∨ (b ≤ p.1 ∧ p.1 < b + vs.length) := by
  induction vs generalizing m b with
  | nil => exact .inl h
  | cons v vs ih =>
    rcases ih h with h | h
    · rcases Memory.mem_write h with rfl | h
      · exact .inr (by simp)
      · exact .inl h
    · exact .inr (by simp only [List.length_cons]; omega)

theorem Memory.read?_of_mem {m : Memory α} (hm : m.wf) {p : Nat × α} (h : p ∈ m) : m.read? p.1 = some p.2 := by
  induction m with
  | nil => cases h
  | cons q m ih =>
    obtain ⟨i, w⟩ := q
    have hm' := List.pairwise_cons.1 hm
    rcases List.mem_cons.1 h with rfl | h
    · simp [Memory.read?]
    · have := hm'.1 p h
      simp only [Memory.read?]
      rw [if_neg (by simp only at this; omega)]
      exact ih hm'.2 h

theorem Memory.mem_of_read? {m : Memory α} {a : Nat} {v : α} (h : m.read? a = some v) : (a, v) ∈ m := by
  induction m with
  | nil => simp [Memory.read?] at h
  | cons q m ih =>
    obtain ⟨i, w⟩ := q
    simp only [Memory.read?] at h
    split at h
    · rename_i hi
      subst hi
      simp_all
    · exact List.mem_cons_of_mem _ (ih h)

/-- Two spaces in canonical form that read alike are equal. -/
theorem Memory.ext_of_wf {m m' : Memory α} (h : m.wf) (h' : m'.wf) (hr : ∀ a, m.read? a = m'.read? a) : m = m' := by
  induction m generalizing m' with
  | nil =>
    cases m' with
    | nil => rfl
    | cons q m' => have := hr q.1; simp [Memory.read?] at this
  | cons p m ih =>
    cases m' with
    | nil => have := hr p.1; simp [Memory.read?] at this
    | cons q m' =>
      obtain ⟨i, w⟩ := p
      obtain ⟨j, x⟩ := q
      have hp := List.pairwise_cons.1 h
      have hq := List.pairwise_cons.1 h'
      have e1 : (i, w) ∈ (j, x) :: m' := Memory.mem_of_read? (by rw [← hr]; simp [Memory.read?])
      have e2 : (j, x) ∈ (i, w) :: m := Memory.mem_of_read? (by rw [hr]; simp [Memory.read?])
      have hij : i = j := by
        rcases List.mem_cons.1 e1 with e1 | e1
        · simpa using congrArg Prod.fst e1
        · rcases List.mem_cons.1 e2 with e2 | e2
          · simpa using (congrArg Prod.fst e2).symm
          · have a := hq.1 _ e1
            have b := hp.1 _ e2
            simp only at a b
            omega
      subst hij
      have hw : w = x := by
        have := hr i
        simpa [Memory.read?] using this
      subst hw
      congr 1
      refine ih hp.2 hq.2 fun a => ?_
      by_cases ha : i = a
      · subst ha
        have n1 : Memory.read? m i = none := by
          cases hh : Memory.read? m i with
          | none => rfl
          | some v => have := hp.1 _ (Memory.mem_of_read? hh); simp at this
        have n2 : Memory.read? m' i = none := by
          cases hh : Memory.read? m' i with
          | none => rfl
          | some v => have := hq.1 _ (Memory.mem_of_read? hh); simp at this
        rw [n1, n2]
      · have := hr a
        simpa [Memory.read?, ha] using this

end Sys2Proof.Machine
end

