-- ==== Sys2Proof/Laws/State.lean ====
section
/-! SUPPORT. Every field of State after every shared update, so that no later proof unfolds a record update. Each theorem is one rewrite rule for each field. -/

namespace Sys2Proof.Machine

variable (s : State)

/-- The fields after taking a typed error. -/
@[simp] theorem State.raise_fields (e : CmdError) :
    (s.raise e).cfg = s.cfg ∧
    (s.raise e).status = e.status ∧
    (s.raise e).errinfo = e.info ∧
    (s.raise e).txtLen = s.txtLen ∧
    (s.raise e).bufLen = s.bufLen ∧
    (s.raise e).pad = s.pad ∧
    (s.raise e).freqN = s.freqN ∧
    (s.raise e).codeN = s.codeN ∧
    (s.raise e).nodeN = s.nodeN ∧
    (s.raise e).root = s.root ∧
    (s.raise e).txt = s.txt ∧
    (s.raise e).buf = s.buf ∧
    (s.raise e).freq = s.freq ∧
    (s.raise e).node = s.node ∧
    (s.raise e).code = s.code ∧
    (s.raise e).pending = s.pending ∧
    (s.raise e).returned = s.returned ∧
    (s.raise e).stamp = s.stamp := by
  refine ⟨rfl, rfl, rfl, rfl, rfl, rfl, rfl, rfl, rfl, rfl, rfl, rfl, rfl, rfl, rfl, rfl, rfl, rfl⟩

/-- The fields after a success without a warning. -/
@[simp] theorem State.succeed_fields :
    (s.succeed).cfg = s.cfg ∧
    (s.succeed).status = statusOk ∧
    (s.succeed).errinfo = 0 ∧
    (s.succeed).txtLen = s.txtLen ∧
    (s.succeed).bufLen = s.bufLen ∧
    (s.succeed).pad = s.pad ∧
    (s.succeed).freqN = s.freqN ∧
    (s.succeed).codeN = s.codeN ∧
    (s.succeed).nodeN = s.nodeN ∧
    (s.succeed).root = s.root ∧
    (s.succeed).txt = s.txt ∧
    (s.succeed).buf = s.buf ∧
    (s.succeed).freq = s.freq ∧
    (s.succeed).node = s.node ∧
    (s.succeed).code = s.code ∧
    (s.succeed).pending = s.pending ∧
    (s.succeed).returned = s.returned ∧
    (s.succeed).stamp = s.stamp := by
  refine ⟨rfl, rfl, rfl, rfl, rfl, rfl, rfl, rfl, rfl, rfl, rfl, rfl, rfl, rfl, rfl, rfl, rfl, rfl⟩

/-- The fields after a success with a warning. -/
@[simp] theorem State.succeedWarning_fields (k : Nat) :
    (s.succeedWarning k).cfg = s.cfg ∧
    (s.succeedWarning k).status = statusWarn ∧
    (s.succeedWarning k).errinfo = BitVec.ofNat 32 k ∧
    (s.succeedWarning k).txtLen = s.txtLen ∧
    (s.succeedWarning k).bufLen = s.bufLen ∧
    (s.succeedWarning k).pad = s.pad ∧
    (s.succeedWarning k).freqN = s.freqN ∧
    (s.succeedWarning k).codeN = s.codeN ∧
    (s.succeedWarning k).nodeN = s.nodeN ∧
    (s.succeedWarning k).root = s.root ∧
    (s.succeedWarning k).txt = s.txt ∧
    (s.succeedWarning k).buf = s.buf ∧
    (s.succeedWarning k).freq = s.freq ∧
    (s.succeedWarning k).node = s.node ∧
    (s.succeedWarning k).code = s.code ∧
    (s.succeedWarning k).pending = s.pending ∧
    (s.succeedWarning k).returned = s.returned ∧
    (s.succeedWarning k).stamp = s.stamp := by
  refine ⟨rfl, rfl, rfl, rfl, rfl, rfl, rfl, rfl, rfl, rfl, rfl, rfl, rfl, rfl, rfl, rfl, rfl, rfl⟩

/-- The fields after making the oldest transaction. -/
@[simp] theorem State.accept_fields (ts : List Transaction) :
    (s.accept ts).cfg = s.cfg ∧
    (s.accept ts).status = s.status ∧
    (s.accept ts).errinfo = s.errinfo ∧
    (s.accept ts).txtLen = s.txtLen ∧
    (s.accept ts).bufLen = s.bufLen ∧
    (s.accept ts).pad = s.pad ∧
    (s.accept ts).freqN = s.freqN ∧
    (s.accept ts).codeN = s.codeN ∧
    (s.accept ts).nodeN = s.nodeN ∧
    (s.accept ts).root = s.root ∧
    (s.accept ts).txt = s.txt ∧
    (s.accept ts).buf = s.buf ∧
    (s.accept ts).freq = s.freq ∧
    (s.accept ts).node = s.node ∧
    (s.accept ts).code = s.code ∧
    (s.accept ts).pending = ts ∧
    (s.accept ts).returned = s.returned ∧
    (s.accept ts).stamp = s.stamp + 1 := by
  refine ⟨rfl, rfl, rfl, rfl, rfl, rfl, rfl, rfl, rfl, rfl, rfl, rfl, rfl, rfl, rfl, rfl, rfl, rfl⟩

/-- The fields after placing a transaction first. -/
@[simp] theorem State.issue_fields (t : Transaction) :
    (s.issue t).cfg = s.cfg ∧
    (s.issue t).status = s.status ∧
    (s.issue t).errinfo = s.errinfo ∧
    (s.issue t).txtLen = s.txtLen ∧
    (s.issue t).bufLen = s.bufLen ∧
    (s.issue t).pad = s.pad ∧
    (s.issue t).freqN = s.freqN ∧
    (s.issue t).codeN = s.codeN ∧
    (s.issue t).nodeN = s.nodeN ∧
    (s.issue t).root = s.root ∧
    (s.issue t).txt = s.txt ∧
    (s.issue t).buf = s.buf ∧
    (s.issue t).freq = s.freq ∧
    (s.issue t).node = s.node ∧
    (s.issue t).code = s.code ∧
    (s.issue t).pending = t :: s.pending ∧
    (s.issue t).returned = s.returned ∧
    (s.issue t).stamp = s.stamp := by
  refine ⟨rfl, rfl, rfl, rfl, rfl, rfl, rfl, rfl, rfl, rfl, rfl, rfl, rfl, rfl, rfl, rfl, rfl, rfl⟩

/-- The fields after emptying every object. -/
@[simp] theorem State.emptyObjects_fields :
    (s.emptyObjects).cfg = s.cfg ∧
    (s.emptyObjects).status = s.status ∧
    (s.emptyObjects).errinfo = s.errinfo ∧
    (s.emptyObjects).txtLen = 0 ∧
    (s.emptyObjects).bufLen = 0 ∧
    (s.emptyObjects).pad = 0 ∧
    (s.emptyObjects).freqN = 0 ∧
    (s.emptyObjects).codeN = 0 ∧
    (s.emptyObjects).nodeN = 0 ∧
    (s.emptyObjects).root = 0 ∧
    (s.emptyObjects).txt = s.txt ∧
    (s.emptyObjects).buf = s.buf ∧
    (s.emptyObjects).freq = s.freq ∧
    (s.emptyObjects).node = s.node ∧
    (s.emptyObjects).code = s.code ∧
    (s.emptyObjects).pending = s.pending ∧
    (s.emptyObjects).returned = s.returned ∧
    (s.emptyObjects).stamp = s.stamp := by
  refine ⟨rfl, rfl, rfl, rfl, rfl, rfl, rfl, rfl, rfl, rfl, rfl, rfl, rfl, rfl, rfl, rfl, rfl, rfl⟩

/-- The fields after the commit of COUNT. -/
@[simp] theorem State.commitFreq_fields (t : List FreqEntry) :
    (s.commitFreq t).cfg = s.cfg ∧
    (s.commitFreq t).status = s.status ∧
    (s.commitFreq t).errinfo = s.errinfo ∧
    (s.commitFreq t).txtLen = s.txtLen ∧
    (s.commitFreq t).bufLen = s.bufLen ∧
    (s.commitFreq t).pad = s.pad ∧
    (s.commitFreq t).freqN = BitVec.ofNat 32 t.length ∧
    (s.commitFreq t).codeN = s.codeN ∧
    (s.commitFreq t).nodeN = s.nodeN ∧
    (s.commitFreq t).root = s.root ∧
    (s.commitFreq t).txt = s.txt ∧
    (s.commitFreq t).buf = s.buf ∧
    (s.commitFreq t).freq = s.freq.writeFrom 0 (freqWords t) ∧
    (s.commitFreq t).node = s.node ∧
    (s.commitFreq t).code = s.code ∧
    (s.commitFreq t).pending = s.pending ∧
    (s.commitFreq t).returned = s.returned ∧
    (s.commitFreq t).stamp = s.stamp := by
  refine ⟨rfl, rfl, rfl, rfl, rfl, rfl, rfl, rfl, rfl, rfl, rfl, rfl, rfl, rfl, rfl, rfl, rfl, rfl⟩

/-- The fields after the commit of BUILD. -/
@[simp] theorem State.commitTree_fields (nd : List NodeEntry) (r : Nat) :
    (s.commitTree nd r).cfg = s.cfg ∧
    (s.commitTree nd r).status = s.status ∧
    (s.commitTree nd r).errinfo = s.errinfo ∧
    (s.commitTree nd r).txtLen = s.txtLen ∧
    (s.commitTree nd r).bufLen = s.bufLen ∧
    (s.commitTree nd r).pad = s.pad ∧
    (s.commitTree nd r).freqN = s.freqN ∧
    (s.commitTree nd r).codeN = s.codeN ∧
    (s.commitTree nd r).nodeN = BitVec.ofNat 32 nd.length ∧
    (s.commitTree nd r).root = BitVec.ofNat 32 r ∧
    (s.commitTree nd r).txt = s.txt ∧
    (s.commitTree nd r).buf = s.buf ∧
    (s.commitTree nd r).freq = s.freq ∧
    (s.commitTree nd r).node = s.node.writeFrom 0 nd ∧
    (s.commitTree nd r).code = s.code ∧
    (s.commitTree nd r).pending = s.pending ∧
    (s.commitTree nd r).returned = s.returned ∧
    (s.commitTree nd r).stamp = s.stamp := by
  refine ⟨rfl, rfl, rfl, rfl, rfl, rfl, rfl, rfl, rfl, rfl, rfl, rfl, rfl, rfl, rfl, rfl, rfl, rfl⟩

/-- The fields after the commit of GEN. -/
@[simp] theorem State.commitCodes_fields (t : List CodeEntry) :
    (s.commitCodes t).cfg = s.cfg ∧
    (s.commitCodes t).status = s.status ∧
    (s.commitCodes t).errinfo = s.errinfo ∧
    (s.commitCodes t).txtLen = s.txtLen ∧
    (s.commitCodes t).bufLen = s.bufLen ∧
    (s.commitCodes t).pad = s.pad ∧
    (s.commitCodes t).freqN = s.freqN ∧
    (s.commitCodes t).codeN = BitVec.ofNat 32 t.length ∧
    (s.commitCodes t).nodeN = s.nodeN ∧
    (s.commitCodes t).root = s.root ∧
    (s.commitCodes t).txt = s.txt ∧
    (s.commitCodes t).buf = s.buf ∧
    (s.commitCodes t).freq = s.freq ∧
    (s.commitCodes t).node = s.node ∧
    (s.commitCodes t).code = writeCodes s.cfg s.code 0 t ∧
    (s.commitCodes t).pending = s.pending ∧
    (s.commitCodes t).returned = s.returned ∧
    (s.commitCodes t).stamp = s.stamp := by
  refine ⟨rfl, rfl, rfl, rfl, rfl, rfl, rfl, rfl, rfl, rfl, rfl, rfl, rfl, rfl, rfl, rfl, rfl, rfl⟩

/-- The fields after the commit of ENCODE. -/
@[simp] theorem State.commitBuffer_fields (bs : List Bool) :
    (s.commitBuffer bs).cfg = s.cfg ∧
    (s.commitBuffer bs).status = s.status ∧
    (s.commitBuffer bs).errinfo = s.errinfo ∧
    (s.commitBuffer bs).txtLen = s.txtLen ∧
    (s.commitBuffer bs).bufLen = BitVec.ofNat 32 (bytesFor bs.length) ∧
    (s.commitBuffer bs).pad = BitVec.ofNat 3 (padFor bs.length) ∧
    (s.commitBuffer bs).freqN = s.freqN ∧
    (s.commitBuffer bs).codeN = s.codeN ∧
    (s.commitBuffer bs).nodeN = s.nodeN ∧
    (s.commitBuffer bs).root = s.root ∧
    (s.commitBuffer bs).txt = s.txt ∧
    (s.commitBuffer bs).buf = s.buf.writeFrom 0 (packBytes bs) ∧
    (s.commitBuffer bs).freq = s.freq ∧
    (s.commitBuffer bs).node = s.node ∧
    (s.commitBuffer bs).code = s.code ∧
    (s.commitBuffer bs).pending = s.pending ∧
    (s.commitBuffer bs).returned = s.returned ∧
    (s.commitBuffer bs).stamp = s.stamp := by
  refine ⟨rfl, rfl, rfl, rfl, rfl, rfl, rfl, rfl, rfl, rfl, rfl, rfl, rfl, rfl, rfl, rfl, rfl, rfl⟩

/-- The fields after the commit of DECODE. -/
@[simp] theorem State.commitText_fields (out : List Word) :
    (s.commitText out).cfg = s.cfg ∧
    (s.commitText out).status = s.status ∧
    (s.commitText out).errinfo = s.errinfo ∧
    (s.commitText out).txtLen = BitVec.ofNat 32 out.length ∧
    (s.commitText out).bufLen = s.bufLen ∧
    (s.commitText out).pad = s.pad ∧
    (s.commitText out).freqN = s.freqN ∧
    (s.commitText out).codeN = s.codeN ∧
    (s.commitText out).nodeN = s.nodeN ∧
    (s.commitText out).root = s.root ∧
    (s.commitText out).txt = s.txt.writeFrom 0 out ∧
    (s.commitText out).buf = s.buf ∧
    (s.commitText out).freq = s.freq ∧
    (s.commitText out).node = s.node ∧
    (s.commitText out).code = s.code ∧
    (s.commitText out).pending = s.pending ∧
    (s.commitText out).returned = s.returned ∧
    (s.commitText out).stamp = s.stamp := by
  refine ⟨rfl, rfl, rfl, rfl, rfl, rfl, rfl, rfl, rfl, rfl, rfl, rfl, rfl, rfl, rfl, rfl, rfl, rfl⟩

/-- The fields after reset (R45). -/
@[simp] theorem State.resetWith_fields (c : Config) :
    (State.resetWith c).cfg = c ∧
    (State.resetWith c).status = 0 ∧
    (State.resetWith c).errinfo = 0 ∧
    (State.resetWith c).txtLen = 0 ∧
    (State.resetWith c).bufLen = 0 ∧
    (State.resetWith c).pad = 0 ∧
    (State.resetWith c).freqN = 0 ∧
    (State.resetWith c).codeN = 0 ∧
    (State.resetWith c).nodeN = 0 ∧
    (State.resetWith c).root = 0 ∧
    (State.resetWith c).txt = [] ∧
    (State.resetWith c).buf = [] ∧
    (State.resetWith c).freq = [] ∧
    (State.resetWith c).node = [] ∧
    (State.resetWith c).code = [] ∧
    (State.resetWith c).pending = [] ∧
    (State.resetWith c).returned = [] ∧
    (State.resetWith c).stamp = 0 := by
  refine ⟨rfl, rfl, rfl, rfl, rfl, rfl, rfl, rfl, rfl, rfl, rfl, rfl, rfl, rfl, rfl, rfl, rfl, rfl⟩

end Sys2Proof.Machine
end

