-- ==== Sys2Proof/Laws/Objects.lean ====
section
/-! SUPPORT. An object that a command commits is read back as it was written, and no object depends on the registers that end a command. -/

namespace Sys2Proof.Machine

/-! ## What the end of a command leaves alone -/

@[simp] theorem State.text_succeed (s : State) : s.succeed.text = s.text := rfl
@[simp] theorem State.freqTable_succeed (s : State) : s.succeed.freqTable = s.freqTable := rfl
@[simp] theorem State.arena_succeed (s : State) : s.succeed.arena = s.arena := rfl
@[simp] theorem State.codeTable_succeed (s : State) : s.succeed.codeTable = s.codeTable := rfl
@[simp] theorem State.bufferBits_succeed (s : State) : s.succeed.bufferBits = s.bufferBits := rfl
@[simp] theorem State.text_succeedWarning (s : State) (k : Nat) : (s.succeedWarning k).text = s.text := rfl

/-! ## Reading back -/

theorem toNat_ofNat_of_lt {n : Nat} (h : n < 2 ^ 32) : (BitVec.ofNat 32 n).toNat = n := by
  rw [BitVec.toNat_ofNat]; exact Nat.mod_eq_of_lt h

/-- A list is the map of its own reading. -/
theorem map_range_eq {α : Type} {l : List α} {f : Nat → α} (h : ∀ i (hi : i < l.length), f i = l[i]) :
    (List.range l.length).map f = l := by
  apply List.ext_getElem
  · simp
  · intro i h1 h2
    simp [h i h2]

/-- The text that `DECODE` commits. -/
theorem State.text_commitText (s : State) {out : List Word} (h : out.length < 2 ^ 32) :
    (s.commitText out).text = out := by
  simp only [State.text, State.commitText_fields, toNat_ofNat_of_lt h]
  apply map_range_eq
  intro i hi
  simp [State.txtCell, State.cell, Memory.read?_writeFrom, hi]

/-- The arena that `BUILD` commits. -/
theorem State.arena_commitTree (s : State) {nd : List NodeEntry} (r : Nat) (h : nd.length < 2 ^ 32) :
    (s.commitTree nd r).arena = nd := by
  simp only [State.arena, State.commitTree_fields, toNat_ofNat_of_lt h]
  apply map_range_eq
  intro i hi
  simp [State.nodeEntry, Memory.read?_writeFrom, hi]

theorem length_freqWords (t : List FreqEntry) : (freqWords t).length = 2 * t.length := by
  induction t with
  | nil => rfl
  | cons e t ih => simp only [freqWords, List.flatMap_cons, List.length_append] at ih ⊢; rw [ih]; simp; omega

theorem getElem?_freqWords (t : List FreqEntry) (i : Nat) :
    (freqWords t)[2 * i]? = t[i]?.map (·.sym) ∧
      (freqWords t)[2 * i + 1]? = t[i]?.map (fun e => BitVec.ofNat 32 e.count) := by
  induction t generalizing i with
  | nil => simp [freqWords]
  | cons e t ih =>
    have he : freqWords (e :: t) = e.sym :: BitVec.ofNat 32 e.count :: freqWords t := rfl
    rw [he]
    cases i with
    | zero => simp
    | succ i =>
      rw [show 2 * (i + 1) = 2 * i + 1 + 1 by omega, show 2 * i + 1 + 1 + 1 = 2 * i + 1 + 1 + 1 by omega]
      simp [ih i]

/-- The frequency table that `COUNT` commits. -/
theorem State.freqTable_commitFreq (s : State) {t : List FreqEntry} (h : t.length < 2 ^ 32)
    (hc : ∀ e ∈ t, e.count < 2 ^ 32) : (s.commitFreq t).freqTable = t := by
  simp only [State.freqTable, State.commitFreq_fields, toNat_ofNat_of_lt h]
  apply map_range_eq
  intro i hi
  have h0 : (s.commitFreq t).freqCell i 0 = t[i].sym := by
    simp only [State.freqCell, State.cell, State.commitFreq_fields, Memory.read?_writeFrom, length_freqWords]
    rw [if_pos (by omega)]
    simp [(getElem?_freqWords t i).1, hi]
  have h1 : (s.commitFreq t).freqCell i 1 = BitVec.ofNat 32 t[i].count := by
    simp only [State.freqCell, State.cell, State.commitFreq_fields, Memory.read?_writeFrom, length_freqWords]
    rw [if_pos (by omega)]
    simp [(getElem?_freqWords t i).2, hi]
  simp only [State.freqEntry, h0, h1, toNat_ofNat_of_lt (hc _ (List.getElem_mem hi))]

@[simp] theorem CodeEntry.length_words (c : Config) (e : CodeEntry) : (e.words c).length = 2 + c.cw := by
  simp [CodeEntry.words]; omega

/-- Reading a word of an entry after code entries have been written. -/
theorem read?_writeCodes (c : Config) (m : Memory Word) (i : Nat) (t : List CodeEntry) (i' j : Nat)
    (hj : j < c.cstride) :
    (writeCodes c m i t).read? (Config.codeKey c i' j) =
      if i ≤ i' ∧ i' < i + t.length ∧ j < 2 + c.cw then (t[i' - i]?).bind (fun e => (e.words c)[j]?)
      else m.read? (Config.codeKey c i' j) := by
  have hst := c.words_le_cstride
  induction t generalizing m i with
  | nil => rw [if_neg (by simp only [List.length_nil]; omega)]; rfl
  | cons e t ih =>
    simp only [writeCodes, ih, List.length_cons, Memory.read?_writeFrom, CodeEntry.length_words]
    have key : (Config.codeKey c i 0 ≤ Config.codeKey c i' j ∧
        Config.codeKey c i' j < Config.codeKey c i 0 + (2 + c.cw)) ↔ i' = i ∧ j < 2 + c.cw := by
      simp only [Config.codeKey, Nat.add_zero]
      constructor
      · rintro ⟨h1, h2⟩
        have e1 : i * c.cstride + (i' * c.cstride + j - i * c.cstride) = i' * c.cstride + j := by omega
        have := Config.key_inj (st := c.cstride) (by omega) hj e1
        omega
      · rintro ⟨rfl, h⟩; omega
    by_cases h0 : i' = i
    · subst h0
      rw [if_neg (by omega)]
      by_cases h1 : j < 2 + c.cw
      · rw [if_pos (key.2 ⟨rfl, h1⟩), if_pos (by omega)]
        simp [Config.codeKey]
      · rw [if_neg (by rw [key]; omega), if_neg (by omega)]
    · by_cases h1 : i + 1 ≤ i' ∧ i' < i + 1 + t.length ∧ j < 2 + c.cw
      · rw [if_pos h1, if_pos (by omega)]
        obtain ⟨k, rfl⟩ : ∃ k, i' = i + 1 + k := ⟨i' - (i + 1), by omega⟩
        rw [show i + 1 + k - i = k + 1 by omega, show i + 1 + k - (i + 1) = k by omega]
        simp
      · rw [if_neg h1, if_neg (by rw [key]; omega), if_neg (by omega)]

theorem mem_writeCodes {c : Config} {m : Memory Word} {i : Nat} {t : List CodeEntry} {p : Nat × Word}
    (h : p ∈ writeCodes c m i t) :
    p ∈ m ∨ ∃ k j, i ≤ k ∧ k < i + t.length ∧ j < 2 + c.cw ∧ p.1 = Config.codeKey c k j := by
  induction t generalizing m i with
  | nil => exact .inl h
  | cons e t ih =>
    rcases ih h with h | ⟨k, j, h1, h2, h3, h4⟩
    · rcases Memory.mem_writeFrom h with h | h
      · exact .inl h
      · simp only [CodeEntry.length_words, Config.codeKey] at h
        exact .inr ⟨i, p.1 - i * c.cstride, by omega, by simp, by omega, by simp only [Config.codeKey]; omega⟩
    · exact .inr ⟨k, j, by omega, by simp only [List.length_cons]; omega, h3, h4⟩

theorem writeCodes_wf {c : Config} {m : Memory Word} (i : Nat) (t : List CodeEntry) (h : m.wf) :
    (writeCodes c m i t).wf := by
  induction t generalizing m i with
  | nil => exact h
  | cons e t ih => exact ih _ (Memory.writeFrom_wf _ _ h)

/-- The code table that `GEN` commits. -/
theorem State.codeTable_commitCodes (s : State) {t : List CodeEntry} (h : t.length < 2 ^ 32)
    (hl : ∀ e ∈ t, e.code.len < 2 ^ 32) (hb : ∀ e ∈ t, e.code.bits < 2 ^ (32 * s.cfg.cw)) :
    (s.commitCodes t).codeTable = t := by
  simp only [State.codeTable, State.commitCodes_fields, toNat_ofNat_of_lt h]
  apply map_range_eq
  intro i hi
  have hst := s.cfg.words_le_cstride
  have hcell : ∀ j, j < 2 + s.cfg.cw → some ((s.commitCodes t).codeCell i j) = (t[i].words s.cfg)[j]? := by
    intro j hj
    simp only [State.codeCell, State.cell, State.commitCodes_fields]
    rw [read?_writeCodes _ _ _ _ _ _ (by omega), if_pos (by omega)]
    simp [hi, List.getElem?_eq_getElem (l := t[i].words s.cfg) (i := j) (by simpa using hj)]
  have c0 := hcell 0 (by omega)
  have c1 := hcell 1 (by omega)
  simp only [CodeEntry.words, List.getElem?_cons_zero, List.getElem?_cons_succ, Option.some.injEq] at c0 c1
  have cw : (List.range s.cfg.cw).map (fun w => (s.commitCodes t).codeCell i (2 + w)) =
      natToWords s.cfg.cw t[i].code.bits := by
    apply List.ext_getElem
    · simp
    · intro w h1 h2
      simp only [List.length_map, List.length_range] at h1
      have := hcell (2 + w) (by omega)
      rw [show 2 + w = w + 1 + 1 by omega] at this
      simp only [CodeEntry.words, List.getElem?_cons_succ] at this
      rw [List.getElem?_eq_getElem h2, Option.some.injEq] at this
      simp only [List.getElem_map, List.getElem_range]
      rw [← this, show 2 + w = w + 1 + 1 by omega]
  simp only [State.codeEntry, c0, c1, State.commitCodes_fields, cw,
    wordsToNat_natToWords _ _ (hb _ (List.getElem_mem hi)), toNat_ofNat_of_lt (hl _ (List.getElem_mem hi))]

end Sys2Proof.Machine
end

