-- ==== Sys2Proof/Laws/Stream.lean ====
section
/-! SUPPORT. What the packer writes and what the scan of the unpacker recovers (spec 43_encode.md R183 to R187, 44_decode.md R200 to R210). -/

namespace Sys2Proof.Machine

/-! ## Packing -/

theorem byteOf_bit (f : Nat → Bool) {t : Nat} (h : t < 8) : (byteOf f).getLsbD (7 - t) = f t := by
  have key : ∀ b0 b1 b2 b3 b4 b5 b6 b7 : Bool, ∀ t : Fin 8,
      (BitVec.ofNat 8 (2 * (2 * (2 * (2 * (2 * (2 * (2 * (2 * 0 + b0.toNat) + b1.toNat) + b2.toNat) + b3.toNat)
        + b4.toNat) + b5.toNat) + b6.toNat) + b7.toNat)).getLsbD (7 - t.val) =
        (match t with | 0 => b0 | 1 => b1 | 2 => b2 | 3 => b3 | 4 => b4 | 5 => b5 | 6 => b6 | 7 => b7) := by
    decide
  have := key (f 0) (f 1) (f 2) (f 3) (f 4) (f 5) (f 6) (f 7) ⟨t, h⟩
  have hr : List.range 8 = [0, 1, 2, 3, 4, 5, 6, 7] := rfl
  unfold byteOf
  rw [hr]
  simp only [List.foldl_cons, List.foldl_nil]
  refine this.trans ?_
  rcases t with _ | _ | _ | _ | _ | _ | _ | _ | t <;> first | rfl | omega

theorem length_padded (stream : List Bool) : (padded stream).length = 8 * bytesFor stream.length := by
  simp only [padded, padFor, bytesFor, List.length_append, List.length_replicate]
  omega

theorem padFor_lt (total : Nat) : padFor total < 8 := by simp only [padFor, bytesFor]; omega

/-- The pad bits and the stream fill the bytes (R187). -/
theorem padFor_add (total : Nat) : total + padFor total = 8 * bytesFor total := by
  simp only [padFor, bytesFor]; omega

@[simp] theorem length_packBytes (stream : List Bool) : (packBytes stream).length = bytesFor stream.length := by
  simp [packBytes]

/-- The bits of the buffer that ENCODE commits: the stream and its zero pad bits (R183, R184). -/
theorem State.bufferBits_commitBuffer (s : State) {stream : List Bool} (h : bytesFor stream.length < 2 ^ 32) :
    (s.commitBuffer stream).bufferBits = padded stream := by
  simp only [State.bufferBits, State.commitBuffer_fields, toNat_ofNat_of_lt h]
  rw [← length_padded]
  apply map_range_eq
  intro k hk
  have hkb : k < 8 * bytesFor stream.length := by rw [← length_padded]; exact hk
  have hk8 : k / 8 < bytesFor stream.length := by omega
  have hcell : (s.commitBuffer stream).bufCell (k / 8) =
      byteOf fun t => (padded stream).getD (8 * (k / 8) + t) false := by
    simp only [State.bufCell, State.commitBuffer_fields, Memory.read?_writeFrom, length_packBytes]
    rw [if_pos (by omega)]
    simp [packBytes, hk8]
  simp only [State.bufferBit, hcell]
  rw [byteOf_bit _ (Nat.mod_lt _ (by omega)), Nat.div_add_mod]
  simp [hk]

/-! ## Looking up the text -/

/-- The entries of a text exist exactly when every symbol has one; they spell the text (R181). -/
theorem entriesOf_eq_ok {t : List CodeEntry} {i : Nat} {xs : List Word} {es : List CodeEntry}
    (h : entriesOf t i xs = .ok es) : Spells t es xs := by
  induction xs generalizing i es with
  | nil => simp only [entriesOf, Except.ok.injEq] at h; subst h; exact ⟨by simp, rfl⟩
  | cons x xs ih =>
    simp only [entriesOf] at h
    cases hl : lookup t x with
    | none => simp [hl] at h
    | some e =>
      simp only [hl] at h
      cases hr : entriesOf t (i + 1) xs with
      | error e' => simp [hr] at h
      | ok es' =>
        simp only [hr, Except.ok.injEq] at h
        subst h
        obtain ⟨h1, h2⟩ := ih hr
        unfold lookup at hl
        refine ⟨?_, ?_⟩
        · intro d hd
          rcases List.mem_cons.1 hd with rfl | hd
          · exact List.mem_of_find?_eq_some hl
          · exact h1 d hd
        · have := List.find?_some hl
          simp only [beq_iff_eq] at this
          simp [this, h2]

/-- In a well-formed table the entries that spell a text are the ones the packer finds. -/
theorem entriesOf_of_spells {c : Config} {t : List CodeEntry} (hw : CodeWF c t) {i : Nat} {xs : List Word}
    {es : List CodeEntry} (h : Spells t es xs) : entriesOf t i xs = .ok es := by
  obtain ⟨h1, h2⟩ := h
  induction es generalizing i xs with
  | nil => simp only [List.map_nil] at h2; subst h2; rfl
  | cons e es ih =>
    simp only [List.map_cons] at h2
    subst h2
    have he := hw.lookup_of_mem (h1 e List.mem_cons_self)
    simp only [entriesOf, he, ih (i := i + 1) (fun d hd => h1 d (List.mem_cons_of_mem _ hd)) rfl]

/-- The only error of the search is the first symbol without an entry (R182). -/
theorem entriesOf_eq_error {t : List CodeEntry} {i : Nat} {xs : List Word} {err : CmdError} :
    entriesOf t i xs = .error err ↔
      ∃ k, k < xs.length ∧ err = .unknownSymbol (i + k) ∧ (∀ e ∈ t, some e.sym ≠ xs[k]?) ∧
        ∀ j, j < k → ∃ e ∈ t, some e.sym = xs[j]? := by
  induction xs generalizing i with
  | nil => simp [entriesOf]
  | cons x xs ih =>
    simp only [entriesOf]
    cases hl : lookup t x with
    | none =>
      unfold lookup at hl
      rw [List.find?_eq_none] at hl
      simp only [beq_iff_eq] at hl
      constructor
      · intro h
        cases h
        exact ⟨0, by simp, rfl, fun e he => by simpa using hl e he, by simp⟩
      · rintro ⟨k, -, rfl, -, hk⟩
        cases k with
        | zero => rfl
        | succ k =>
          obtain ⟨e, he, hx⟩ := hk 0 (by omega)
          simp only [List.getElem?_cons_zero, Option.some.injEq] at hx
          exact absurd hx (hl e he)
    | some e =>
      unfold lookup at hl
      have hem := List.mem_of_find?_eq_some hl
      have hes := List.find?_some hl
      simp only [beq_iff_eq] at hes
      have step : (match entriesOf t (i + 1) xs with
          | .ok es => (.ok (e :: es) : Except CmdError (List CodeEntry))
          | .error err => .error err) = .error err ↔ entriesOf t (i + 1) xs = .error err := by
        cases entriesOf t (i + 1) xs <;> simp
      refine step.trans (ih.trans ?_)
      constructor
      · rintro ⟨k, hk, rfl, h1, h2⟩
        refine ⟨k + 1, by simpa using hk, by congr 1; omega, by simpa using h1, ?_⟩
        intro j hj
        cases j with
        | zero => exact ⟨e, hem, by simp [hes]⟩
        | succ j => simpa using h2 j (by omega)
      · rintro ⟨k, hk, rfl, h1, h2⟩
        cases k with
        | zero => exact absurd (by simp [hes]) (h1 e hem)
        | succ k =>
          refine ⟨k, by simpa using hk, by congr 1; omega, by simpa using h1, ?_⟩
          intro j hj
          simpa using h2 (j + 1) (by omega)

/-! ## Scanning -/

theorem matchCode_eq_none {t : List CodeEntry} {cand : Code} (h : ∀ e ∈ t, e.code.str ≠ cand.str) :
    matchCode t cand = none := by
  unfold matchCode
  rw [List.find?_eq_none]
  intro e he
  simp only [beq_iff_eq]
  rintro rfl
  exact h e he rfl

/-- Bits that complete no code only lengthen the candidate (R203). -/
theorem scanBits_no_match {t : List CodeEntry} {cap : Nat} (xs more : List Bool) (k : Nat) (sc : Scan)
    (h : ∀ ys, ys ≠ [] → ys <+: xs → ∀ e ∈ t, e.code.str ≠ sc.cand.str ++ ys) :
    scanBits t cap (xs ++ more) k sc =
      scanBits t cap more (k + xs.length) { sc with cand := xs.foldl Code.append sc.cand } := by
  induction xs generalizing k sc with
  | nil => rfl
  | cons b xs ih =>
    have hm : matchCode t (sc.cand.append b) = none := by
      apply matchCode_eq_none
      intro e he
      rw [Code.str_append]
      exact h [b] (by simp) (List.cons_prefix_cons.2 ⟨rfl, List.nil_prefix⟩) e he
    simp only [List.cons_append, scanBits, Scan.step, hm, List.foldl_cons, List.length_cons]
    rw [ih]
    · simp only [Nat.add_assoc, Nat.add_comm 1]
    · intro ys hy hp e he
      rw [Code.str_append, List.append_assoc]
      exact h (b :: ys) (by simp) (List.cons_prefix_cons.2 ⟨rfl, hp⟩) e he

/-- A code of the table is recovered whole (R203). -/
theorem scanBits_code {c : Config} {t : List CodeEntry} (hw : CodeWF c t) {cap : Nat} {e : CodeEntry} (he : e ∈ t)
    (more : List Bool) (k start : Nat) (out : List Word) :
    scanBits t cap (e.code.str ++ more) k { cand := Code.empty, out := out, start := start } =
      if out.length = cap then none
      else scanBits t cap more (k + e.code.len)
        { cand := Code.empty, out := out ++ [e.sym], start := k + e.code.len } := by
  have hlen := (hw.lengths e he).1
  have hne : e.code.str ≠ [] := by
    intro hc
    have := Code.length_str e.code
    rw [hc] at this
    simp only [List.length_nil] at this
    omega
  obtain ⟨xs, b, hxs⟩ : ∃ xs b, e.code.str = xs ++ [b] :=
    ⟨_, _, (List.dropLast_append_getLast hne).symm⟩
  have hl : xs.length + 1 = e.code.len := by
    rw [← Code.length_str, hxs]; simp
  have hno : ∀ ys, ys ≠ [] → ys <+: xs → ∀ d ∈ t, d.code.str ≠ (Code.empty.str : List Bool) ++ ys := by
    intro ys _ hp d hd hc
    simp only [Code.str_empty, List.nil_append] at hc
    have hpre : d.code.str <+: e.code.str := by
      rw [hc, hxs]
      exact hp.trans (List.prefix_append xs [b])
    have := hw.eq_of_prefix hd he hpre
    subst this
    rw [hxs] at hc
    have h1 := hp.length_le
    have h2 := congrArg List.length hc
    simp only [List.length_append, List.length_singleton] at h2
    omega
  rw [hxs, List.append_assoc, scanBits_no_match xs _ k _ hno]
  have hcand : (xs.foldl Code.append Code.empty).append b = e.code := by
    apply Code.ext_of_str _ (hw.bits e he)
    · rw [Code.str_append, Code.foldl_append_str, hxs]; simp
    · exact Code.fits_append b (Code.fits_ofBits xs)
  simp only [List.cons_append, List.nil_append, scanBits, Scan.step, hcand, hw.matchCode_of_mem he]
  by_cases hcap : out.length = cap
  · simp [hcap]
  · simp only [hcap, if_false, Nat.add_assoc, hl]

/-- The whole scan (R200, R203, R207): the codes at the front of the bits are recovered in order, as long as they fit,
and the rest stays in the candidate. -/
theorem scanBits_eq {c : Config} {t : List CodeEntry} (hw : CodeWF c t) {cap : Nat} (es : List CodeEntry)
    (hes : ∀ e ∈ es, e ∈ t) (rest : List Bool) (hr : NoCodeLeads t rest) (k : Nat) (out : List Word)
    (ho : out.length ≤ cap) :
    scanBits t cap (streamOf es ++ rest) k { cand := Code.empty, out := out, start := k } =
      if out.length + es.length ≤ cap then
        some { cand := Code.ofBits rest, out := out ++ es.map (·.sym), start := k + (streamOf es).length }
      else none := by
  induction es generalizing k out with
  | nil =>
    simp only [streamOf, List.flatMap_nil, List.nil_append, List.length_nil, Nat.add_zero, List.map_nil,
      List.append_nil, if_pos ho]
    have h := scanBits_no_match (t := t) (cap := cap) rest [] k { cand := Code.empty, out := out, start := k } (by
      intro ys hy hp e he hc
      simp only [Code.str_empty, List.nil_append] at hc
      exact hr e he (by rw [hc]; exact hp))
    simpa [scanBits, Code.ofBits] using h
  | cons e es ih =>
    have hst : streamOf (e :: es) ++ rest = e.code.str ++ (streamOf es ++ rest) := by
      simp [streamOf]
    rw [hst, scanBits_code hw (hes e List.mem_cons_self)]
    split
    · rename_i hcap
      rw [if_neg (by simp only [List.length_cons]; omega)]
    · rename_i hcap
      rw [ih (fun d hd => hes d (List.mem_cons_of_mem _ hd)) _ _ (by simp; omega)]
      simp only [List.length_append, List.length_cons, List.length_nil, Nat.zero_add, List.map_cons]
      have : (streamOf (e :: es)).length = e.code.len + (streamOf es).length := by simp [streamOf]
      rw [this]
      by_cases hc : out.length + 1 + es.length ≤ cap
      · rw [if_pos hc, if_pos (by omega)]
        simp [Nat.add_assoc]
      · rw [if_neg hc, if_neg (by omega)]

/-- Every bit sequence is some codes of the table and then a rest that no code begins. -/
theorem exists_parse {c : Config} {t : List CodeEntry} (hw : CodeWF c t) (bs : List Bool) :
    ∃ es rest, (∀ e ∈ es, e ∈ t) ∧ NoCodeLeads t rest ∧ bs = streamOf es ++ rest := by
  induction hn : bs.length using Nat.strong_induction_on generalizing bs with
  | _ n ih =>
    by_cases h : ∃ e ∈ t, e.code.str <+: bs
    · obtain ⟨e, he, more, hm⟩ := h
      have hlen := (hw.lengths e he).1
      have hl : bs.length = e.code.len + more.length := by rw [← hm]; simp
      obtain ⟨es, rest, h1, h2, h3⟩ := ih more.length (by omega) more rfl
      refine ⟨e :: es, rest, ?_, h2, ?_⟩
      · intro d hd
        rcases List.mem_cons.1 hd with rfl | hd
        · exact he
        · exact h1 d hd
      · rw [← hm, h3]; simp [streamOf]
    · exact ⟨[], bs, by simp, fun e he hp => h ⟨e, he, hp⟩, by simp [streamOf]⟩

theorem length_streamOf (es : List CodeEntry) : (streamOf es).length = (es.map (·.code.len)).sum := by
  simp [streamOf, List.length_flatMap]

theorem cleanTail_iff {tail : List Bool} :
    cleanTail tail = true ↔ tail.length ≤ 7 ∧ ∀ b ∈ tail, b = false := by
  simp [cleanTail]

/-- Trailing bits that are not clean (R205). -/
theorem cleanTail_eq_false {tail : List Bool} :
    cleanTail tail = false ↔ 7 < tail.length ∨ ∃ b ∈ tail, b = true := by
  rw [← Bool.not_eq_true, cleanTail_iff]
  constructor
  · intro h
    by_contra hc
    rw [not_or] at hc
    refine h ⟨by omega, fun b hb => ?_⟩
    cases hbb : b
    · rfl
    · exact absurd ⟨b, hb, hbb⟩ hc.2
  · rintro (h | ⟨b, hb, rfl⟩) ⟨h1, h2⟩
    · omega
    · cases h2 _ hb

end Sys2Proof.Machine
end

