-- ==== Sys2Proof/Laws/Tree.lean ====
section
/-! SUPPORT. What the merge loop of BUILD keeps: a forest whose roots are the live nodes, each internal node over the two least live nodes of its time (spec 41_build.md R131 to R139). -/

namespace Sys2Proof.Machine

/-! ## The least live node -/

theorem LiveNode.less_iff (a b : LiveNode) :
    a.less b = true ↔ a.freq < b.freq ∨ (a.freq = b.freq ∧ a.index < b.index) := by
  simp [LiveNode.less]

theorem least_eq_none {l : List LiveNode} : least l = none ↔ l = [] := by
  cases l with
  | nil => simp [least]
  | cons a l =>
    simp only [least, reduceCtorEq, iff_false]
    split
    · simp
    · split <;> simp

/-- The least element is in the collection and nothing there is less. -/
theorem least_eq_some {l : List LiveNode} {a : LiveNode} (h : least l = some a) :
    a ∈ l ∧ ∀ b ∈ l, b.less a = false := by
  induction l generalizing a with
  | nil => simp [least] at h
  | cons c l ih =>
    simp only [least] at h
    cases hl : least l with
    | none =>
      rw [hl] at h
      simp only [Option.some.injEq] at h
      subst h
      rw [least_eq_none.1 hl]
      simp [LiveNode.less]
    | some b =>
      rw [hl] at h
      obtain ⟨hb, hmin⟩ := ih hl
      simp only at h
      split at h
      · rename_i hbc
        cases h
        refine ⟨List.mem_cons_of_mem _ hb, fun d hd => ?_⟩
        rcases List.mem_cons.1 hd with rfl | hd
        · rw [Bool.eq_false_iff]
          intro hc
          rw [LiveNode.less_iff] at hbc hc
          omega
        · exact hmin d hd
      · rename_i hbc
        cases h
        refine ⟨List.mem_cons_self, fun d hd => ?_⟩
        rcases List.mem_cons.1 hd with rfl | hd
        · simp [LiveNode.less]
        · have hd' := hmin d hd
          rw [Bool.eq_false_iff] at hd' ⊢
          intro hc
          apply hd'
          rw [LiveNode.less_iff] at hbc hc ⊢
          omega

/-! ## Appending an internal node -/

theorem freqAt_append {nd : List NodeEntry} {e : NodeEntry} {k : Nat} (h : k < nd.length) :
    freqAt (nd ++ [e]) k = freqAt nd k := by
  simp [freqAt, List.getElem?_append_left h]

theorem freqAt_append_self (nd : List NodeEntry) (e : NodeEntry) :
    freqAt (nd ++ [e]) nd.length = e.freq.toNat := by simp [freqAt]

theorem IsChild.lt {nd : List NodeEntry} {k p : Nat} (h : IsChild nd k p) : p < nd.length := by
  obtain ⟨e, he, -⟩ := h
  exact (List.getElem?_eq_some_iff.1 he).1

theorem isChild_append {nd : List NodeEntry} {e : NodeEntry} {k p : Nat} (h : p < nd.length) :
    IsChild (nd ++ [e]) k p ↔ IsChild nd k p := by
  simp [IsChild, List.getElem?_append_left h]

theorem isChild_append_self {nd : List NodeEntry} {e : NodeEntry} {k : Nat} (hl : e.leaf = false) :
    IsChild (nd ++ [e]) k nd.length ↔ (e.left.toNat = k ∨ e.right.toNat = k) := by
  simp [IsChild, hl]

theorem isChild_append_iff {nd : List NodeEntry} {e : NodeEntry} {k p : Nat} (hl : e.leaf = false) :
    IsChild (nd ++ [e]) k p ↔
      IsChild nd k p ∨ (p = nd.length ∧ (e.left.toNat = k ∨ e.right.toNat = k)) := by
  by_cases hp : p < nd.length
  · rw [isChild_append hp]
    exact ⟨.inl, fun h => h.resolve_right (by omega)⟩
  · by_cases hpe : p = nd.length
    · subst hpe
      rw [isChild_append_self hl]
      exact ⟨fun h => .inr ⟨rfl, h⟩, fun h => (h.resolve_left (fun h => hp h.lt)).2⟩
    · constructor
      · intro h; have := h.lt; simp only [List.length_append, List.length_singleton] at this; omega
      · rintro (h | h)
        · exact absurd h.lt hp
        · exact absurd h.1 hpe

/-! ## The invariant of the merge loop -/

/-- The children of internal node `n + t` are the least two of the nodes live before merge `t` (R133). -/
def MergedLeast (nd : List NodeEntry) (n : Nat) : Prop :=
  ∀ t e, nd[n + t]? = some e →
    LiveBefore nd n t e.left.toNat ∧ LiveBefore nd n t e.right.toNat ∧ e.left.toNat ≠ e.right.toNat ∧
      ∀ k, LiveBefore nd n t k →
        k = e.left.toNat ∨ (lessAt nd e.left.toNat k ∧ (k = e.right.toNat ∨ lessAt nd e.right.toNat k))

/-- The arena and the working collection between two merges: a forest with `n` leaves whose roots are live. -/
structure Forest (nd : List NodeEntry) (n : Nat) (live : List LiveNode) : Prop where
  leaves_le : n ≤ nd.length
  size : nd.length + live.length = 2 * n
  leaf : ∀ k e, nd[k]? = some e → k < n → e.leaf = true ∧ e.left = 0 ∧ e.right = 0
  inner : ∀ k e, nd[k]? = some e → n ≤ k →
    e.leaf = false ∧ e.sym = 0 ∧ e.left.toNat < k ∧ e.right.toNat < k ∧ e.left ≠ e.right ∧
      e.freq.toNat = freqAt nd e.left.toNat + freqAt nd e.right.toNat
  nodup : (live.map (·.index)).Nodup
  mem : ∀ k, k ∈ live.map (·.index) ↔ k < nd.length ∧ ∀ p, ¬ IsChild nd k p
  freq : ∀ a ∈ live, a.freq = freqAt nd a.index
  unique : ∀ k p q, IsChild nd k p → IsChild nd k q → p = q
  sum : (live.map (·.freq)).sum = ((List.range n).map (freqAt nd)).sum
  least : MergedLeast nd n

theorem sum_range_freqAt_append {nd : List NodeEntry} {e : NodeEntry} {n : Nat} (h : n ≤ nd.length) :
    ((List.range n).map (freqAt (nd ++ [e]))).sum = ((List.range n).map (freqAt nd)).sum := by
  congr 1
  apply List.map_congr_left
  intro k hk
  exact freqAt_append (Nat.lt_of_lt_of_le (List.mem_range.1 hk) h)

theorem lessAt_append {nd : List NodeEntry} {e : NodeEntry} {a b : Nat} (ha : a < nd.length) (hb : b < nd.length) :
    lessAt (nd ++ [e]) a b ↔ lessAt nd a b := by
  simp only [lessAt, freqAt_append ha, freqAt_append hb]

theorem liveBefore_append {nd : List NodeEntry} {e : NodeEntry} {n t k : Nat} (h : n + t ≤ nd.length) :
    LiveBefore (nd ++ [e]) n t k ↔ LiveBefore nd n t k := by
  unfold LiveBefore
  refine and_congr_right fun _ => forall₂_congr fun p hp => ?_
  rw [isChild_append (Nat.lt_of_lt_of_le hp h)]

/-- One merge keeps the forest. -/
theorem Forest.merge {nd : List NodeEntry} {n : Nat} {live : List LiveNode} (h : Forest nd n live)
    {a b : LiveNode} (ha : Machine.least live = some a) (hb : Machine.least (live.erase a) = some b)
    (hn : 2 * n < 2 ^ 32) (hs : (live.map (·.freq)).sum < 2 ^ 32) :
    Forest (nd ++ [innerNode a b]) n
      ((live.erase a).erase b ++ [{ freq := a.freq + b.freq, index := nd.length }]) := by
  obtain ⟨ham, hamin⟩ := least_eq_some ha
  obtain ⟨hbm, hbmin⟩ := least_eq_some hb
  have hnd : live.Nodup := h.nodup.of_map
  have hbl : b ∈ live := List.mem_of_mem_erase hbm
  have hba : b ≠ a := by
    rintro rfl
    exact (hnd.not_mem_erase) hbm
  have hinj : ∀ c ∈ live, ∀ d ∈ live, c.index = d.index → c = d :=
    fun c hc d hd e => List.inj_on_of_nodup_map h.nodup hc hd e
  have hperm : (a :: b :: (live.erase a).erase b).Perm live :=
    ((List.perm_cons_erase hbm).symm.cons a).trans (List.perm_cons_erase ham).symm
  have hsum : a.freq + (b.freq + (((live.erase a).erase b).map (·.freq)).sum) = (live.map (·.freq)).sum := by
    have := (hperm.map (·.freq)).sum_eq
    simpa using this
  have hlen : ((live.erase a).erase b).length + 2 = live.length := by
    have := hperm.length_eq; simp only [List.length_cons] at this; omega
  have hai := (h.mem a.index).1 (List.mem_map_of_mem ham)
  have hbi := (h.mem b.index).1 (List.mem_map_of_mem hbl)
  have hsz := h.size
  have hidx : a.index ≠ b.index := fun e => hba (hinj a ham b hbl e).symm
  have hleft : (innerNode a b).left.toNat = a.index := by
    simp only [innerNode, BitVec.toNat_ofNat]; apply Nat.mod_eq_of_lt; omega
  have hright : (innerNode a b).right.toNat = b.index := by
    simp only [innerNode, BitVec.toNat_ofNat]; apply Nat.mod_eq_of_lt; omega
  have hfreq : (innerNode a b).freq.toNat = a.freq + b.freq := by
    simp only [innerNode, BitVec.toNat_ofNat]; apply Nat.mod_eq_of_lt; omega
  have hleaf : (innerNode a b).leaf = false := rfl
  have hchild : ∀ k p, IsChild (nd ++ [innerNode a b]) k p ↔
      IsChild nd k p ∨ (p = nd.length ∧ (a.index = k ∨ b.index = k)) := by
    intro k p; rw [isChild_append_iff hleaf, hleft, hright]
  have hget : ∀ k e, (nd ++ [innerNode a b])[k]? = some e →
      (k < nd.length ∧ nd[k]? = some e) ∨ (k = nd.length ∧ e = innerNode a b) := by
    intro k e he
    by_cases hk : k < nd.length
    · rw [List.getElem?_append_left hk] at he; exact .inl ⟨hk, he⟩
    · have hk' := (List.getElem?_eq_some_iff.1 he).1
      simp only [List.length_append, List.length_singleton] at hk'
      have : k = nd.length := by omega
      subst this
      simp at he
      exact .inr ⟨rfl, he.symm⟩
  have hnotin : ∀ x ∈ (live.erase a).erase b, x ∈ live ∧ x ≠ a ∧ x ≠ b := by
    intro x hx
    have hx1 := List.mem_of_mem_erase hx
    refine ⟨List.mem_of_mem_erase hx1, ?_, ?_⟩
    · rintro rfl; exact hnd.not_mem_erase hx1
    · rintro rfl; exact (hnd.erase a).not_mem_erase hx
  have hin : ∀ x ∈ live, x ≠ a → x ≠ b → x ∈ (live.erase a).erase b := by
    intro x hx h1 h2
    exact (List.mem_erase_of_ne h2).2 ((List.mem_erase_of_ne h1).2 hx)
  refine ⟨?_, ?_, ?_, ?_, ?_, ?_, ?_, ?_, ?_, ?_⟩
  · have := h.leaves_le; simp; omega
  · simp only [List.length_append, List.length_singleton]; omega
  · intro k e he hk
    have := h.leaves_le
    rcases hget k e he with ⟨_, he⟩ | ⟨hk', _⟩
    · exact h.leaf k e he hk
    · omega
  · intro k e he hk
    rcases hget k e he with ⟨hk', he⟩ | ⟨rfl, rfl⟩
    · obtain ⟨h1, h2, h3, h4, h5, h6⟩ := h.inner k e he hk
      refine ⟨h1, h2, h3, h4, h5, ?_⟩
      rw [freqAt_append (by omega), freqAt_append (by omega)]
      exact h6
    · refine ⟨rfl, rfl, by rw [hleft]; exact hai.1, by rw [hright]; exact hbi.1, ?_, ?_⟩
      · intro e; apply hidx; rw [← hleft, ← hright, e]
      · rw [hfreq, hleft, hright, freqAt_append hai.1, freqAt_append hbi.1, ← h.freq a ham, ← h.freq b hbl]
  · rw [List.map_append, List.nodup_append]
    refine ⟨?_, by simp, ?_⟩
    · exact h.nodup.sublist (((List.erase_sublist).trans (List.erase_sublist)).map _)
    · intro x hx y hy
      simp only [List.map_cons, List.map_nil, List.mem_singleton] at hy
      obtain ⟨z, hz, rfl⟩ := List.mem_map.1 hx
      have := ((h.mem z.index).1 (List.mem_map_of_mem (hnotin z hz).1)).1
      omega
  · intro k
    simp only [List.map_append, List.map_cons, List.map_nil, List.mem_append, List.mem_singleton,
      List.length_append, List.length_singleton, hchild]
    constructor
    · rintro (hk | rfl)
      · obtain ⟨z, hz, rfl⟩ := List.mem_map.1 hk
        obtain ⟨hz1, hz2, hz3⟩ := hnotin z hz
        obtain ⟨h1, h2⟩ := (h.mem z.index).1 (List.mem_map_of_mem hz1)
        refine ⟨by omega, ?_⟩
        rintro p (hp | ⟨_, hp | hp⟩)
        · exact h2 p hp
        · exact hz2 (hinj a ham z hz1 hp).symm
        · exact hz3 (hinj b hbl z hz1 hp).symm
      · refine ⟨by omega, ?_⟩
        rintro p (hp | ⟨_, hp | hp⟩)
        · obtain ⟨e, he, hel, hec⟩ := hp
          have hpn : n ≤ p := by
            by_contra hc
            have := (h.leaf p e he (by omega)).1
            rw [hel] at this; cases this
          have hpl := (List.getElem?_eq_some_iff.1 he).1
          obtain ⟨_, _, h3, h4, _⟩ := h.inner p e he hpn
          omega
        · omega
        · omega
    · rintro ⟨hk, hp⟩
      by_cases hkn : k = nd.length
      · exact .inr hkn
      · left
        have hkl : k ∈ live.map (·.index) := (h.mem k).2 ⟨by omega, fun p hc => hp p (.inl hc)⟩
        obtain ⟨z, hz, rfl⟩ := List.mem_map.1 hkl
        refine List.mem_map_of_mem (hin z hz ?_ ?_)
        · rintro rfl; exact hp nd.length (.inr ⟨rfl, .inl rfl⟩)
        · rintro rfl; exact hp nd.length (.inr ⟨rfl, .inr rfl⟩)
  · intro x hx
    rcases List.mem_append.1 hx with hx | hx
    · obtain ⟨hx1, _, _⟩ := hnotin x hx
      rw [freqAt_append ((h.mem x.index).1 (List.mem_map_of_mem hx1)).1]
      exact h.freq x hx1
    · simp only [List.mem_singleton] at hx
      subst hx
      rw [freqAt_append_self, hfreq]
  · intro k p q hp hq
    rw [hchild] at hp hq
    rcases hp with hp | ⟨rfl, hp⟩ <;> rcases hq with hq | ⟨rfl, hq⟩
    · exact h.unique k p q hp hq
    · exfalso
      rcases hq with rfl | rfl
      · exact hai.2 p hp
      · exact hbi.2 p hp
    · exfalso
      rcases hp with rfl | rfl
      · exact hai.2 q hq
      · exact hbi.2 q hq
    · rfl
  · rw [sum_range_freqAt_append h.leaves_le, ← h.sum]
    simp only [List.map_append, List.sum_append, List.map_cons, List.map_nil, List.sum_cons, List.sum_nil]
    omega
  · intro t e he
    rcases hget _ e he with ⟨hk, he⟩ | ⟨hk, rfl⟩
    · obtain ⟨h1, h2, h3, h4⟩ := h.least t e he
      have hlt : n + t ≤ nd.length := by omega
      refine ⟨(liveBefore_append hlt).2 h1, (liveBefore_append hlt).2 h2, h3, fun k hkl => ?_⟩
      rw [liveBefore_append hlt] at hkl
      have hk1 := hkl.1
      have hk2 := h1.1
      have hk3 := h2.1
      rw [lessAt_append (by omega) (by omega), lessAt_append (by omega) (by omega)]
      exact h4 k hkl
    · have hlive : ∀ k, LiveBefore (nd ++ [innerNode a b]) n t k ↔ k ∈ live.map (·.index) := by
        intro k
        rw [liveBefore_append (by omega), h.mem, LiveBefore, hk]
        refine and_congr_right fun _ => ⟨fun hp p hc => hp p hc.lt hc, fun hp p _ => hp p⟩
      rw [hleft, hright]
      refine ⟨(hlive _).2 (List.mem_map_of_mem ham), (hlive _).2 (List.mem_map_of_mem hbl), hidx, fun k hkl => ?_⟩
      obtain ⟨z, hz, rfl⟩ := List.mem_map.1 ((hlive k).1 hkl)
      have hzl := ((h.mem z.index).1 (List.mem_map_of_mem hz)).1
      by_cases hza : z = a
      · exact .inl (by rw [hza])
      · right
        rw [lessAt_append hai.1 hzl, lessAt_append hbi.1 hzl]
        have key : ∀ c ∈ live, c ≠ z → z.less c = false → lessAt nd c.index z.index := by
          intro c hc hcz hzc
          have hne : c.index ≠ z.index := fun e => hcz (hinj c hc z hz e)
          rw [Bool.eq_false_iff, ne_eq, LiveNode.less_iff] at hzc
          simp only [lessAt, ← h.freq c hc, ← h.freq z hz]
          omega
        refine ⟨key a ham (Ne.symm hza) (hamin z hz), ?_⟩
        by_cases hzb : z = b
        · exact .inl (by rw [hzb])
        · exact .inr (key b hbl (Ne.symm hzb) (hbmin z ((List.mem_erase_of_ne hza).2 hz)))

/-- The loop stops when a single node is live (R134). -/
theorem mergeLoop_stop {fuel : Nat} {nd : List NodeEntry} {live : List LiveNode} {a : LiveNode}
    (ha : least live = some a) (hb : least (live.erase a) = none) : mergeLoop fuel nd live = (nd, live) := by
  cases fuel with
  | zero => rfl
  | succ f => simp only [mergeLoop, ha, hb]

/-- One turn of the loop (R133). -/
theorem mergeLoop_merge {fuel : Nat} {nd : List NodeEntry} {live : List LiveNode} {a b : LiveNode}
    (ha : least live = some a) (hb : least (live.erase a) = some b) :
    mergeLoop (fuel + 1) nd live = mergeLoop fuel (nd ++ [innerNode a b])
      ((live.erase a).erase b ++ [{ freq := a.freq + b.freq, index := nd.length }]) := by
  simp only [mergeLoop, ha, hb]

/-- The loop only appends to the arena. -/
theorem mergeLoop_append (fuel : Nat) (nd : List NodeEntry) (live : List LiveNode) :
    ∃ ext, (mergeLoop fuel nd live).1 = nd ++ ext := by
  induction fuel generalizing nd live with
  | zero => exact ⟨[], by simp [mergeLoop]⟩
  | succ f ih =>
    cases ha : least live with
    | none => exact ⟨[], by simp [mergeLoop, ha]⟩
    | some a =>
      cases hb : least (live.erase a) with
      | none => exact ⟨[], by simp [mergeLoop, ha, hb]⟩
      | some b =>
        rw [mergeLoop_merge ha hb]
        obtain ⟨ext, he⟩ := ih (nd ++ [innerNode a b])
          ((live.erase a).erase b ++ [{ freq := a.freq + b.freq, index := nd.length }])
        exact ⟨innerNode a b :: ext, by rw [he]; simp⟩

/-- The loop ends with a forest of one tree (R134). -/
theorem Forest.mergeLoop {fuel : Nat} {nd : List NodeEntry} {n : Nat} {live : List LiveNode} (h : Forest nd n live)
    (hn : 2 * n < 2 ^ 32) (hs : ((List.range n).map (freqAt nd)).sum < 2 ^ 32) (h1 : 1 ≤ live.length)
    (hf : live.length ≤ fuel + 1) :
    Forest (mergeLoop fuel nd live).1 n (mergeLoop fuel nd live).2 ∧ (mergeLoop fuel nd live).2.length = 1 := by
  induction fuel generalizing nd live with
  | zero => exact ⟨h, by simp only [Machine.mergeLoop]; omega⟩
  | succ f ih =>
    cases ha : Machine.least live with
    | none => rw [least_eq_none.1 ha] at h1; simp at h1
    | some a =>
      have ham := (least_eq_some ha).1
      have he := List.length_erase_of_mem ham
      cases hb : Machine.least (live.erase a) with
      | none =>
        have := least_eq_none.1 hb
        rw [this] at he
        simp only [List.length_nil] at he
        rw [mergeLoop_stop ha hb]
        exact ⟨h, by simp only; omega⟩
      | some b =>
        have hbm := (least_eq_some hb).1
        have he' := List.length_erase_of_mem hbm
        have hpos : 0 < (live.erase a).length := List.length_pos_of_mem hbm
        rw [mergeLoop_merge ha hb]
        apply ih (h.merge ha hb hn (by rw [h.sum]; exact hs))
        · rw [sum_range_freqAt_append h.leaves_le]; exact hs
        · simp
        · simp only [List.length_append, List.length_singleton]; omega

/-! ## The forest of the leaves, and the tree at the end -/

theorem freqAt_leaves {t : List FreqEntry} (hc : ∀ e ∈ t, e.count < 2 ^ 32) (k : Nat) :
    freqAt (leaves t) k = (t[k]?.map (·.count)).getD 0 := by
  simp only [freqAt, leaves, List.getElem?_map, Option.map_map]
  cases h : t[k]? with
  | none => rfl
  | some e =>
    simp only [Option.map_some, Function.comp, leafNode, BitVec.toNat_ofNat, Option.getD_some]
    exact Nat.mod_eq_of_lt (hc e (List.mem_of_getElem? h))

theorem initialLive_index (t : List FreqEntry) : (initialLive t).map (·.index) = List.range t.length := by
  simp only [initialLive, List.map_map]
  apply List.ext_getElem
  · simp
  · intro i h1 h2; simp

theorem initialLive_freq (t : List FreqEntry) : (initialLive t).map (·.freq) = t.map (·.count) := by
  simp only [initialLive, List.map_map]
  apply List.ext_getElem
  · simp
  · intro i h1 h2; simp

@[simp] theorem length_leaves (t : List FreqEntry) : (leaves t).length = t.length := by simp [leaves]

@[simp] theorem length_initialLive (t : List FreqEntry) : (initialLive t).length = t.length := by
  simp [initialLive]

/-- No leaf has a child. -/
theorem not_isChild_leaves (t : List FreqEntry) (k p : Nat) : ¬ IsChild (leaves t) k p := by
  rintro ⟨e, he, hl, -⟩
  simp only [leaves, List.getElem?_map, Option.map_eq_some_iff] at he
  obtain ⟨f, -, rfl⟩ := he
  cases hl

theorem count_lt_of_total {t : List FreqEntry} (h : totalCount t < 2 ^ 32) : ∀ e ∈ t, e.count < 2 ^ 32 := by
  intro e he
  have := List.single_le_sum (l := t.map (·.count)) (by simp) e.count (List.mem_map_of_mem he)
  exact Nat.lt_of_le_of_lt this h

theorem sum_freqAt_leaves {t : List FreqEntry} (hc : ∀ e ∈ t, e.count < 2 ^ 32) :
    ((List.range t.length).map (freqAt (leaves t))).sum = totalCount t := by
  unfold totalCount
  congr 1
  apply List.ext_getElem
  · simp
  · intro i h1 h2
    simp only [List.length_map, List.length_range] at h1
    simp [freqAt_leaves hc, h1]

/-- The collection the merge loop starts from (R132). -/
theorem Forest.initial {t : List FreqEntry} (hc : ∀ e ∈ t, e.count < 2 ^ 32) :
    Forest (leaves t) t.length (initialLive t) := by
  refine ⟨by simp, by simp; omega, ?_, ?_, ?_, ?_, ?_, ?_, ?_, ?_⟩
  · intro k e he _
    simp only [leaves, List.getElem?_map, Option.map_eq_some_iff] at he
    obtain ⟨f, -, rfl⟩ := he
    exact ⟨rfl, rfl, rfl⟩
  · intro k e he hk
    have := (List.getElem?_eq_some_iff.1 he).1
    simp only [length_leaves] at this
    omega
  · rw [initialLive_index]; exact List.nodup_range
  · intro k
    rw [initialLive_index]
    simp [not_isChild_leaves]
  · intro a ha
    simp only [initialLive, List.mem_map] at ha
    obtain ⟨⟨e, i⟩, hp, rfl⟩ := ha
    have hp' := (List.mem_zipIdx_iff_getElem?.1 hp)
    simp only at hp' ⊢
    simp [freqAt_leaves hc, hp']
  · intro k p q hp
    exact absurd hp (not_isChild_leaves t k p)
  · rw [initialLive_freq, sum_freqAt_leaves hc]; rfl
  · intro k e he
    have := (List.getElem?_eq_some_iff.1 he).1
    simp only [length_leaves] at this
    omega

/-- A forest of one tree is a tree of R34, its root the last node made. -/
theorem Forest.arenaTree {nd : List NodeEntry} {n : Nat} {live : List LiveNode} (h : Forest nd n live)
    (h1 : live.length = 1) (hs : ((nd.take n).map (·.sym)).Nodup) :
    ArenaTree nd n ∧ rootOf live = 2 * n - 2 := by
  have hsz := h.size
  have hle := h.leaves_le
  obtain ⟨r, rfl⟩ := List.length_eq_one_iff.1 h1
  have hlast : 2 * n - 2 ∈ ([r] : List LiveNode).map (·.index) := by
    rw [h.mem]
    refine ⟨by omega, ?_⟩
    rintro p ⟨e, he, hel, hec⟩
    have hpl := (List.getElem?_eq_some_iff.1 he).1
    have hpn : n ≤ p := by
      by_contra hc
      have := (h.leaf p e he (by omega)).1
      rw [hel] at this; cases this
    obtain ⟨_, _, h3, h4, _⟩ := h.inner p e he hpn
    omega
  simp only [List.map_cons, List.map_nil, List.mem_singleton] at hlast
  refine ⟨⟨by omega, by omega, h.leaf, h.inner, ?_, hs, ?_⟩, hlast.symm⟩
  · intro k hk
    have hnk : k ∉ ([r] : List LiveNode).map (·.index) := by
      simp only [List.map_cons, List.map_nil, List.mem_singleton]; omega
    rw [h.mem, not_and] at hnk
    have := hnk (by omega)
    simp only [not_forall, not_not] at this
    obtain ⟨p, hp⟩ := this
    exact ⟨p, hp, fun q hq => h.unique k q p hq hp⟩
  · have := h.sum
    simp only [List.map_cons, List.map_nil, List.sum_cons, List.sum_nil, Nat.add_zero] at this
    rw [← this, h.freq r (List.mem_singleton_self r), hlast]

/-- What BUILD makes of a table: the leaves of the table first, and then a tree of R34 each of whose internal nodes is
over the two least live nodes (R132 to R137). -/
theorem buildNodes_spec {t : List FreqEntry} (h0 : t ≠ []) (hn : 2 * t.length < 2 ^ 32)
    (hd : DistinctSymbols t) (hs : totalCount t < 2 ^ 32) :
    (∃ ext, (buildNodes t).1 = leaves t ++ ext) ∧ ArenaTree (buildNodes t).1 t.length ∧
      MergedLeast (buildNodes t).1 t.length ∧ rootOf (buildNodes t).2 = 2 * t.length - 2 := by
  have hc := count_lt_of_total hs
  have hpos : 1 ≤ t.length := List.length_pos_iff.2 h0
  obtain ⟨hf, h1⟩ := (Forest.initial hc).mergeLoop (fuel := t.length) hn
    (by rw [sum_freqAt_leaves hc]; exact hs) (by simpa using hpos) (by simp)
  obtain ⟨ext, he⟩ := mergeLoop_append t.length (leaves t) (initialLive t)
  have hsym : (((buildNodes t).1.take t.length).map (·.sym)).Nodup := by
    have : (buildNodes t).1.take t.length = leaves t := by
      unfold buildNodes
      rw [he, List.take_append_of_le_length (by simp)]
      exact List.take_of_length_le (by simp)
    rw [this]
    have : (leaves t).map (·.sym) = t.map (·.sym) := by simp [leaves, leafNode, Function.comp_def]
    rw [this]
    exact hd
  obtain ⟨h2, h3⟩ := hf.arenaTree h1 hsym
  exact ⟨⟨ext, he⟩, h2, hf.least, h3⟩

end Sys2Proof.Machine
end

