-- ==== Sys2Proof/Laws/Commands.lean ====
section
/-! SUPPORT. For each command everything it can do: the one state it commits and when it does, or the error it takes (40_count.md to 45_control.md, 60_exceptions.md R248). -/

namespace Sys2Proof.Machine

/-! ## The two ends of a command -/

/-- A command answers a next state: the one it commits, or the one with the error recorded (R248). -/
theorem State.conclude_eq_next {s t : State} {r : Except CmdError State} :
    s.conclude r = .next t ↔ r = .ok t ∨ ∃ e, r = .error e ∧ s.raise e = t := by
  cases r <;> simp [State.conclude]

theorem State.conclude_ok {s t : State} {r : Except CmdError State} (h : r = .ok t) : s.conclude r = .next t := by
  rw [h]; rfl

theorem State.conclude_error {s : State} {e : CmdError} {r : Except CmdError State} (h : r = .error e) :
    s.conclude r = .next (s.raise e) := by
  rw [h]; rfl

/-- A failing command leaves a code that is not 0 (R240). -/
theorem CmdError.errField_status (e : CmdError) : errField e.status = e.code := by
  cases e with
  | capacity sub => cases sub <;> decide
  | operand sub info => cases sub <;> (simp only [CmdError.status, CmdError.sub, CmdError.code]; decide)
  | _ => simp only [CmdError.status, CmdError.sub, CmdError.code]; decide

theorem CmdError.code_ne (e : CmdError) : e.code ≠ 0 := by
  cases e <;> simp [CmdError.code]

theorem CmdError.status_ne (e : CmdError) : e.status ≠ 0 := by
  intro h
  have h1 := e.errField_status
  rw [h] at h1
  exact e.code_ne (h1.symm.trans (by decide))

theorem statusOk_eq : statusOk = 0 := by decide

theorem statusWarn_eq : statusWarn = 0x100 := by decide

/-- Taking an error, with the two values written out. -/
theorem State.raise_eq {e : CmdError} {s : State} {st : BitVec 9} {info : Word} (h : e.status = st) (h' : e.info = info) :
    s.raise e = { s with status := st, errinfo := info } := by
  subst h; subst h'; rfl

/-! ## COUNT -/

theorem length_text (s : State) : s.text.length = s.txtLen.toNat := by simp [State.text]

/-- When `COUNT` succeeds, and with what (R110). -/
theorem countFrequencies_eq_ok {s t : State} :
    countFrequencies s = .ok t ↔
      s.txtLen.toNat ≤ s.cfg.textMax ∧ (firstSeen s.text).length ≤ s.cfg.nMax ∧
        t = (s.commitFreq (countTable s.text)).succeed := by
  unfold countFrequencies
  rw [tally_nil]
  split
  · rename_i h; simp; omega
  · rename_i h
    by_cases h2 : (firstSeen s.text).length ≤ s.cfg.nMax
    · simp only [if_pos h2, Except.ok.injEq]
      constructor
      · rintro rfl; exact ⟨by omega, h2, rfl⟩
      · rintro ⟨-, -, rfl⟩; rfl
    · simp [h2]

/-- What `COUNT` writes fits its cells (R110). -/
theorem countTable_fits {c : Config} (hc : c.WellFormed) {xs : List Word} (hx : xs.length ≤ c.textMax)
    (hf : (firstSeen xs).length ≤ c.nMax) :
    (countTable xs).length < 2 ^ 32 ∧ ∀ e ∈ countTable xs, e.count < 2 ^ 32 := by
  have := hc.nMax_le
  have := hc.text_fits
  refine ⟨by rw [length_countTable]; omega, ?_⟩
  intro e he
  simp only [countTable, List.mem_map] at he
  obtain ⟨x, -, rfl⟩ := he
  have := List.count_le_length (a := x) (l := xs)
  simp only; omega

theorem State.freqTable_count {s : State} (hc : s.cfg.WellFormed) (hx : s.txtLen.toNat ≤ s.cfg.textMax)
    (hf : (firstSeen s.text).length ≤ s.cfg.nMax) :
    (s.commitFreq (countTable s.text)).succeed.freqTable = countTable s.text := by
  obtain ⟨h1, h2⟩ := countTable_fits hc (xs := s.text) (by rw [length_text]; exact hx) hf
  rw [State.freqTable_succeed, State.freqTable_commitFreq _ h1 h2]

/-! ## BUILD -/

theorem length_freqTable (s : State) : s.freqTable.length = s.freqN.toNat := by simp [State.freqTable]

/-- When `BUILD` succeeds, and with what (R130). -/
theorem buildTree_eq_ok {s t : State} :
    buildTree s = .ok t ↔
      s.freqN.toNat ≤ s.cfg.nMax ∧ s.freqN.toNat ≠ 0 ∧ DistinctSymbols s.freqTable ∧ totalCount s.freqTable < 2 ^ 32 ∧
        t = (s.commitTree (buildNodes s.freqTable).1 (rootOf (buildNodes s.freqTable).2)).succeed := by
  unfold buildTree
  by_cases h1 : s.cfg.nMax < s.freqN.toNat
  · simp only [if_pos h1, reduceCtorEq, false_iff]; rintro ⟨h, -⟩; omega
  rw [if_neg h1]
  by_cases h2 : s.freqN.toNat = 0
  · simp [h2]
  rw [if_neg h2]
  cases hd : dupSymbol (s.freqTable.map (·.sym)) with
  | some j =>
    simp only [reduceCtorEq, false_iff]
    rintro ⟨-, -, h, -⟩
    rw [dupSymbol_eq_none.2 h] at hd; cases hd
  | none =>
    have hn : DistinctSymbols s.freqTable := dupSymbol_eq_none.1 hd
    by_cases h3 : 2 ^ 32 ≤ totalCount s.freqTable
    · simp only [if_pos h3, reduceCtorEq, false_iff]; rintro ⟨-, -, -, h, -⟩; omega
    · simp only [if_neg h3, Except.ok.injEq]
      constructor
      · rintro rfl; exact ⟨by omega, h2, hn, by omega, rfl⟩
      · rintro ⟨-, -, -, -, rfl⟩; rfl

/-- The arena that a successful `BUILD` commits (R134, R136). -/
theorem length_buildNodes {t : List FreqEntry} (h0 : t ≠ []) (hn : 2 * t.length < 2 ^ 32) (hd : DistinctSymbols t)
    (hs : totalCount t < 2 ^ 32) : (buildNodes t).1.length = 2 * t.length - 1 :=
  (buildNodes_spec h0 hn hd hs).2.1.size

theorem State.arena_build {s : State} (hc : s.cfg.WellFormed) (hn : s.freqN.toNat ≤ s.cfg.nMax)
    (h0 : s.freqN.toNat ≠ 0) (hd : DistinctSymbols s.freqTable) (hs : totalCount s.freqTable < 2 ^ 32) :
    (s.commitTree (buildNodes s.freqTable).1 (rootOf (buildNodes s.freqTable).2)).succeed.arena =
      (buildNodes s.freqTable).1 := by
  have hl := length_freqTable s
  have := hc.nMax_le
  have h := length_buildNodes (t := s.freqTable) (by intro h; rw [h] at hl; simp at hl; omega) (by omega) hd hs
  rw [State.arena_succeed, State.arena_commitTree _ _ (by omega)]

/-- What a successful `BUILD` leaves: the arena and the registers (R134, R136, R137). -/
theorem buildTree_result {s t : State} (hc : s.cfg.WellFormed) (h : buildTree s = .ok t) :
    t.arena = (buildNodes s.freqTable).1 ∧ ArenaTree t.arena s.freqN.toNat ∧
      MergedLeast t.arena s.freqN.toNat ∧ t.arena.length = 2 * s.freqN.toNat - 1 ∧
      t.nodeN.toNat = 2 * s.freqN.toNat - 1 ∧ t.root.toNat = 2 * s.freqN.toNat - 2 ∧
      (∃ ext, t.arena = leaves s.freqTable ++ ext) ∧ t.status = 0 ∧ t.errinfo = 0 := by
  obtain ⟨h1, h2, h3, h4, rfl⟩ := buildTree_eq_ok.1 h
  have hl := length_freqTable s
  have := hc.nMax_le
  rw [State.arena_build hc h1 h2 h3 h4]
  obtain ⟨g1, g2, g3, g4⟩ := buildNodes_spec (t := s.freqTable) (by intro h; rw [h] at hl; simp at hl; omega)
    (by omega) h3 h4
  rw [hl] at g2 g3 g4
  refine ⟨rfl, g2, g3, g2.size, ?_, ?_, g1, ?_, ?_⟩
  · simp only [State.succeed_fields, State.commitTree_fields, g2.size]; exact toNat_ofNat_of_lt (by omega)
  · simp only [State.succeed_fields, State.commitTree_fields, g4]; exact toNat_ofNat_of_lt (by omega)
  · simp [statusOk_eq]
  · simp

/-! ## GEN -/

theorem length_arena (s : State) : s.arena.length = s.nodeN.toNat := by simp [State.arena]

/-- When `GEN` succeeds, and with what (R160). -/
theorem generateCodes_eq_ok {s t : State} :
    generateCodes s = .ok t ↔
      s.nodeN.toNat ≠ 0 ∧ t = (s.commitCodes (genTable s.arena s.root.toNat)).succeed := by
  unfold generateCodes
  split
  · simp_all
  · rename_i h
    simp only [Except.ok.injEq]
    constructor
    · rintro rfl; exact ⟨h, rfl⟩
    · rintro ⟨-, rfl⟩; rfl

/-- The tree that a state of the invariant holds. -/
theorem TreeInv.arenaTree {s : State} (h : TreeInv s) (hn : s.nodeN ≠ 0) :
    ArenaTree s.arena (leafCount s.nodeN.toNat) ∧ leafCount s.nodeN.toNat ≤ s.cfg.nMax ∧
      s.root.toNat = 2 * leafCount s.nodeN.toNat - 2 :=
  ⟨h.tree hn, h.leaves_le hn, h.root hn⟩

/-- What a successful `GEN` leaves: the table it made from the tree reads back, and it is well-formed (R163, R165). -/
theorem generateCodes_result {s t : State} (hc : s.cfg.WellFormed) (ht : TreeInv s) (h : generateCodes s = .ok t) :
    t.codeTable = genTable s.arena s.root.toNat ∧ CodeWF t.cfg t.codeTable ∧
      t.codeN.toNat = leafCount s.nodeN.toNat ∧ t.codeN.toNat ≤ t.cfg.nMax ∧ t.cfg = s.cfg ∧ t.status = 0 ∧
      t.errinfo = 0 := by
  obtain ⟨h1, rfl⟩ := generateCodes_eq_ok.1 h
  have hn : s.nodeN ≠ 0 := by rintro h0; simp [h0] at h1
  obtain ⟨h2, h3, h4⟩ := ht.arenaTree hn
  have hw : CodeWF s.cfg (genTable s.arena s.root.toNat) := by rw [h4]; exact genTable_wf h2 h3
  have hlen : (genTable s.arena s.root.toNat).length = leafCount s.nodeN.toNat := length_genTable h2 _
  have hN := hc.nMax_le
  have hM := hc.codeMax_lt
  have hL := s.cfg.codeMax_le
  have hr : (s.commitCodes (genTable s.arena s.root.toNat)).succeed.codeTable = genTable s.arena s.root.toNat := by
    rw [State.codeTable_succeed, State.codeTable_commitCodes]
    · omega
    · intro e he; have := hw.lengths e he; omega
    · intro e he
      refine Nat.lt_of_lt_of_le (hw.bits e he) (Nat.pow_le_pow_right (by omega) ?_)
      have := hw.lengths e he; omega
  rw [hr]
  have hN' : (BitVec.ofNat 32 (genTable s.arena s.root.toNat).length).toNat = leafCount s.nodeN.toNat := by
    rw [hlen]; exact toNat_ofNat_of_lt (by omega)
  exact ⟨rfl, by simpa using hw, by simpa using hN', by simp [hN', h3], by simp, by simp [statusOk_eq], by simp⟩

/-! ## ENCODE -/

theorem length_codeTable (s : State) : s.codeTable.length = s.codeN.toNat := by simp [State.codeTable]

/-- When `ENCODE` succeeds, and with what (R180). -/
theorem encodeText_eq_ok {s t : State} :
    encodeText s = .ok t ↔
      s.txtLen.toNat ≤ s.cfg.textMax ∧ s.codeN.toNat ≤ s.cfg.nMax ∧ CodeWF s.cfg s.codeTable ∧
        ∃ es, Spells s.codeTable es s.text ∧ bytesFor (streamOf es).length ≤ s.cfg.bufMax ∧
          t = (s.commitBuffer (streamOf es)).succeed := by
  unfold encodeText
  by_cases h1 : s.cfg.textMax < s.txtLen.toNat
  · simp only [if_pos h1, reduceCtorEq, false_iff]; rintro ⟨h, -⟩; omega
  rw [if_neg h1]
  by_cases h2 : s.cfg.nMax < s.codeN.toNat
  · simp only [if_pos h2, reduceCtorEq, false_iff]; rintro ⟨-, h, -⟩; omega
  rw [if_neg h2]
  cases hw : codeTableError s.cfg s.codeTable with
  | some e =>
    simp only [reduceCtorEq, false_iff]
    rintro ⟨-, -, h, -⟩
    rw [codeTableError_eq_none.2 h] at hw; cases hw
  | none =>
    have hwf := codeTableError_eq_none.1 hw
    cases he : entriesOf s.codeTable 0 s.text with
    | error e =>
      simp only [reduceCtorEq, false_iff]
      rintro ⟨-, -, -, es, h, -⟩
      rw [entriesOf_of_spells hwf h] at he; cases he
    | ok es =>
      have hsp := entriesOf_eq_ok he
      by_cases h3 : s.cfg.bufMax < bytesFor (streamOf es).length
      · simp only [if_pos h3, reduceCtorEq, false_iff]
        rintro ⟨-, -, -, es', h, hb, -⟩
        rw [entriesOf_of_spells hwf h] at he
        simp only [Except.ok.injEq] at he
        subst he; omega
      · simp only [if_neg h3, Except.ok.injEq]
        constructor
        · rintro rfl; exact ⟨by omega, by omega, hwf, es, hsp, by omega, rfl⟩
        · rintro ⟨-, -, -, es', h, -, rfl⟩
          rw [entriesOf_of_spells hwf h] at he
          simp only [Except.ok.injEq] at he
          subst he; rfl

theorem bytesFor_lt {c : Config} (hc : c.WellFormed) {n : Nat} (h : bytesFor n ≤ c.bufMax) : bytesFor n < 2 ^ 32 := by
  have := hc.buf_fits; omega

/-- What a successful `ENCODE` leaves: the bits of the buffer and the two registers (R183, R184, R187). -/
theorem commitBuffer_result {s : State} (hc : s.cfg.WellFormed) {stream : List Bool}
    (hb : bytesFor stream.length ≤ s.cfg.bufMax) :
    (s.commitBuffer stream).succeed.bufferBits = stream ++ List.replicate (padFor stream.length) false ∧
      (s.commitBuffer stream).succeed.bufLen.toNat = bytesFor stream.length ∧
      (s.commitBuffer stream).succeed.pad.toNat = padFor stream.length := by
  have hl := bytesFor_lt hc hb
  refine ⟨?_, ?_, ?_⟩
  · rw [State.bufferBits_succeed, State.bufferBits_commitBuffer _ hl]; rfl
  · simp only [State.succeed_fields, State.commitBuffer_fields]; exact toNat_ofNat_of_lt hl
  · simp only [State.succeed_fields, State.commitBuffer_fields, BitVec.toNat_ofNat]
    exact Nat.mod_eq_of_lt (padFor_lt _)

/-! ## DECODE -/

theorem length_bufferBits (s : State) : s.bufferBits.length = 8 * s.bufLen.toNat := by simp [State.bufferBits]

/-- The code bits of the buffer (R201). -/
def State.codeBits (s : State) : List Bool := s.bufferBits.take (8 * s.bufLen.toNat - s.pad.toNat)

/-- The end of `DECODE` on operands that pass its tests: the codes at the front of the code bits are recovered and the rest
decides (R200 to R207). -/
theorem decodeBuffer_eq {s : State} {es : List CodeEntry} {rest : List Bool} (strict : Bool)
    (h1 : s.bufLen.toNat ≤ s.cfg.bufMax) (h2 : s.codeN.toNat ≤ s.cfg.nMax) (h3 : s.pad.toNat ≤ 8 * s.bufLen.toNat)
    (hw : CodeWF s.cfg s.codeTable) (hes : ∀ e ∈ es, e ∈ s.codeTable) (hr : NoCodeLeads s.codeTable rest)
    (hb : s.codeBits = streamOf es ++ rest) :
    decodeBuffer strict s =
      if es.length ≤ s.cfg.textMax then
        finishDecode strict s
          { cand := Code.ofBits rest, out := es.map (·.sym), start := (streamOf es).length }
      else .error (.capacity .text) := by
  unfold decodeBuffer
  rw [if_neg (by omega), if_neg (by omega), if_neg (by omega), codeTableError_eq_none.2 hw]
  simp only [State.codeBits] at hb
  simp only [hb]
  have := scanBits_eq hw (cap := s.cfg.textMax) es hes rest hr 0 [] (by simp)
  simp only [List.length_nil, Nat.zero_add, List.nil_append] at this
  rw [show Scan.begin = { cand := Code.empty, out := [], start := 0 } from rfl, this]
  by_cases hc : es.length ≤ s.cfg.textMax <;> simp [hc]

/-- When `DECODE` succeeds, its operands pass its tests and the symbols fit (R200). -/
theorem decodeBuffer_ok {s t : State} {strict : Bool} (h : decodeBuffer strict s = .ok t) :
    s.bufLen.toNat ≤ s.cfg.bufMax ∧ s.codeN.toNat ≤ s.cfg.nMax ∧ s.pad.toNat ≤ 8 * s.bufLen.toNat ∧
      CodeWF s.cfg s.codeTable ∧ ∃ es rest, (∀ e ∈ es, e ∈ s.codeTable) ∧ NoCodeLeads s.codeTable rest ∧
        s.codeBits = streamOf es ++ rest ∧ es.length ≤ s.cfg.textMax ∧
        finishDecode strict s
          { cand := Code.ofBits rest, out := es.map (·.sym), start := (streamOf es).length } = .ok t := by
  have h' := h
  unfold decodeBuffer at h
  split at h
  · cases h
  split at h
  · cases h
  split at h
  · cases h
  rename_i h1 h2 h3
  split at h
  · cases h
  rename_i hw
  have hwf := codeTableError_eq_none.1 hw
  obtain ⟨es, rest, he, hr, hb⟩ := exists_parse hwf s.codeBits
  rw [decodeBuffer_eq strict (by omega) (by omega) (by omega) hwf he hr hb] at h'
  split at h'
  · rename_i hc
    exact ⟨by omega, by omega, by omega, hwf, es, rest, he, hr, hb, hc, h'⟩
  · cases h'

/-- The three ends of the scan (R204 to R206). -/
theorem finishDecode_clean {strict : Bool} {s : State} {sc : Scan} (h : cleanTail (s.bufferBits.drop sc.start) = true) :
    finishDecode strict s sc = .ok (s.commitText sc.out).succeed := by
  simp [finishDecode, h]

theorem finishDecode_strict {s : State} {sc : Scan} (h : cleanTail (s.bufferBits.drop sc.start) = false) :
    finishDecode true s sc = .error (.corruptStream sc.start) := by
  simp [finishDecode, h]

theorem finishDecode_bestEffort {s : State} {sc : Scan} (h : cleanTail (s.bufferBits.drop sc.start) = false) :
    finishDecode false s sc = .ok ((s.commitText sc.out).succeedWarning sc.start) := by
  simp [finishDecode, h]

theorem State.text_decode {s : State} (hc : s.cfg.WellFormed) {out : List Word} (h : out.length ≤ s.cfg.textMax) :
    (s.commitText out).text = out ∧ (s.commitText out).txtLen.toNat = out.length := by
  have := hc.text_fits
  have hl : out.length < 2 ^ 32 := by omega
  exact ⟨State.text_commitText s hl, by simp only [State.commitText_fields]; exact toNat_ofNat_of_lt hl⟩

end Sys2Proof.Machine
end

