-- ==== Sys2Proof/Laws/Locations.lean ====
section
/-! SUPPORT. What a host write does to the locations of the block (20_memory.md R63 to R68, R73). -/

namespace Sys2Proof.Machine

/-- Everything a write to a writable location does: the location holds the kept bits and no other location changes
(R73, R233). -/
theorem State.writeLoc_spec (s : State) (l : Loc) (v : Word) (hv : l.valid s.cfg = true) (hw : l.writable = true) :
    (s.writeLoc l v).readLoc l = l.kept v ∧ (s.writeLoc l v).holds l = true ∧
      Keeps s (s.writeLoc l v) (fun l' => l' = l) := by
  refine ⟨?_, ?_, ?_, ?_, ?_, ?_, ?_⟩
  · have k8 : ∀ v : Word, (v.setWidth 8).setWidth 32 = v &&& 255#32 := by
      intro v
      ext i hi; simp; have := (by decide : ∀ i : Fin 32, (255#32).getLsbD i = decide (i.val < 8)) ⟨i, hi⟩
      simp only [BitVec.getLsbD_eq_getElem, hi] at this; rw [this, BitVec.getLsbD_eq_getElem hi]; exact Bool.and_comm _ _
    cases l with
    | reg r => cases r <;> simp [Loc.writable] at hw <;>
                 simp [State.writeLoc, State.writeReg, State.readLoc, State.readReg, Loc.kept]
               ext i hi; simp; have := (by decide : ∀ i : Fin 32, (7#32).getLsbD i = decide (i.val < 3)) ⟨i, hi⟩
               simp only [BitVec.getLsbD_eq_getElem, hi] at this; rw [this, BitVec.getLsbD_eq_getElem hi]; exact Bool.and_comm _ _
    | _ =>
      first
        | (exfalso; revert hw; simp [Loc.writable]; done)
        | (simp [State.writeLoc, State.readLoc, State.txtCell, State.freqCell, State.codeCell, State.cell,
            Memory.read?_write_same, Loc.kept]; done)
        | (simp [State.writeLoc, State.readLoc, State.bufCell, Memory.read?_write_same, Loc.kept, k8])
  · cases l with
    | reg r => rfl
    | _ => simp [Loc.writable] at hw <;> simp [State.writeLoc, State.holds, Memory.read?_write_same]
  · cases l <;> try rfl
    rename_i r; cases r <;> rfl
  · cases l <;> try rfl
    rename_i r; cases r <;> rfl
  · cases l <;> try rfl
    rename_i r; cases r <;> rfl
  · cases l <;> try rfl
    rename_i r; cases r <;> rfl
  · intro l' hv' hne
    have hs := s.cfg.words_le_cstride
    have hk : ∀ i j i' j', j < s.cfg.cstride → j' < s.cfg.cstride → (i, j) ≠ (i', j') →
        Config.codeKey s.cfg i j ≠ Config.codeKey s.cfg i' j' := by
      intro i j i' j' h h' hn he
      have := Config.key_inj h h' he
      apply hn; rw [this.1, this.2]
    have code_other : ∀ {i j i' j' : Nat}, Config.codeKey s.cfg i j ≠ Config.codeKey s.cfg i' j' →
        State.codeCell { s with code := s.code.write (Config.codeKey s.cfg i' j') v } i j = s.codeCell i j ∧
          (Memory.read? (s.code.write (Config.codeKey s.cfg i' j') v) (Config.codeKey s.cfg i j)).isSome =
            (s.code.read? (Config.codeKey s.cfg i j)).isSome := by
      intro i j i' j' h
      simp [State.codeCell, State.cell, Memory.read?_write_other _ _ h]
    cases l with
    | reg r =>
      cases l' with
      | reg r' => cases r <;> cases r' <;> simp [Loc.writable] at hw hne <;> exact ⟨rfl, rfl⟩
      | _ => cases r <;> exact ⟨rfl, rfl⟩
    | codeSym i =>
      cases l' with
      | codeSym i' =>
        have := hk i' 0 i 0 (by omega) (by omega) (by intro h; simp at h; subst h; exact hne rfl)
        exact code_other this
      | codeLen i' =>
        have := hk i' 1 i 0 (by omega) (by omega) (by intro h; simp at h)
        exact code_other this
      | codeBits i' w =>
        simp [Loc.valid] at hv'
        have := hk i' (2+w) i 0 (by omega) (by omega) (by intro h; simp at h)
        exact code_other this
      | _ => exact ⟨rfl, rfl⟩
    | codeLen i =>
      cases l' with
      | codeSym i' =>
        have := hk i' 0 i 1 (by omega) (by omega) (by intro h; simp at h)
        exact code_other this
      | codeLen i' =>
        have := hk i' 1 i 1 (by omega) (by omega) (by intro h; simp at h; subst h; exact hne rfl)
        exact code_other this
      | codeBits i' w =>
        simp [Loc.valid] at hv'
        have := hk i' (2+w) i 1 (by omega) (by omega) (by intro h; simp at h; omega)
        exact code_other this
      | _ => exact ⟨rfl, rfl⟩
    | codeBits i w =>
      simp [Loc.valid] at hv
      cases l' with
      | codeSym i' =>
        have := hk i' 0 i (2+w) (by omega) (by omega) (by intro h; simp at h; omega)
        exact code_other this
      | codeLen i' =>
        have := hk i' 1 i (2+w) (by omega) (by omega) (by intro h; simp at h; omega)
        exact code_other this
      | codeBits i' w' =>
        simp [Loc.valid] at hv'
        have := hk i' (2+w') i (2+w) (by omega) (by omega) (by intro h; simp at h; obtain ⟨rfl, h⟩ := h; subst h; exact hne rfl)
        exact code_other this
      | _ => exact ⟨rfl, rfl⟩
    | txt i =>
      cases l' with
      | txt j =>
        simp at hne
        simp [State.writeLoc, State.readLoc, State.holds, State.txtCell, State.cell, Memory.read?_write_other _ _ hne]
      | _ => exact ⟨rfl, rfl⟩
    | buf i =>
      cases l' with
      | buf j =>
        simp at hne
        simp [State.writeLoc, State.readLoc, State.holds, State.bufCell, Memory.read?_write_other _ _ hne]
      | _ => exact ⟨rfl, rfl⟩
    | freqSym i =>
      cases l' with
      | freqSym j =>
        simp at hne
        have := Memory.read?_write_other s.freq v (a := 2 * i) (b := 2 * j) (by omega)
        simp [State.writeLoc, State.readLoc, State.holds, State.freqCell, State.cell, this]
      | freqCount j =>
        have := Memory.read?_write_other s.freq v (a := 2 * i) (b := 2 * j + 1) (by omega)
        simp [State.writeLoc, State.readLoc, State.holds, State.freqCell, State.cell, this]
      | _ => exact ⟨rfl, rfl⟩
    | freqCount i =>
      cases l' with
      | freqSym j =>
        have := Memory.read?_write_other s.freq v (a := 2 * i + 1) (b := 2 * j) (by omega)
        simp [State.writeLoc, State.readLoc, State.holds, State.freqCell, State.cell, this]
      | freqCount j =>
        simp at hne
        have := Memory.read?_write_other s.freq v (a := 2 * i + 1) (b := 2 * j + 1) (by omega)
        simp [State.writeLoc, State.readLoc, State.holds, State.freqCell, State.cell, this]
      | _ => exact ⟨rfl, rfl⟩
    | _ => simp [Loc.writable] at hw

end Sys2Proof.Machine
end

