-- ==== Sys2Proof/Laws/Step.lean ====
section
/-! SUPPORT. Everything a step can do (45_control.md R232, R233): which of the shared operations it applies, one lemma for each kind of transaction. -/

namespace Sys2Proof.Machine

theorem step_idle {s : State} (h : s.pending = []) : step s = .next s := by simp only [step, h]

theorem step_read {s : State} {a : Addr} {rest : List Transaction} (h : s.pending = .read a :: rest) :
    step s = .next { s.accept rest with returned := (s.accept rest).returned ++ [(s.accept rest).hostRead a] } := by
  simp only [step, h, State.transact]

theorem step_write {s : State} {a : Addr} {v : Word} {rest : List Transaction} (h : s.pending = .write a v :: rest)
    (ha : a ≠ 0) : step s = .next ((s.accept rest).hostWrite a v) := by
  simp only [step, h, State.transact, if_neg ha]

theorem step_command {s : State} {w : Word} {rest : List Transaction} (h : s.pending = .write 0 w :: rest) :
    step s = (s.accept rest).runCommand w := by
  simp only [step, h, State.transact, if_true]

theorem State.runCommand_of_decode {s : State} {w : Word} {i : Instr} (h : decode w = .ok i) :
    s.runCommand w = exec i s := by
  simp only [State.runCommand, h]

/-- What an illegal word does, whatever makes the decoder reject it (R93). -/
theorem State.runCommand_of_error {s : State} {w v : Word} (h : decode w = .error (.illegalCommand v)) :
    s.runCommand w = .next (s.raise (.illegalCommand v)) := by
  simp only [State.runCommand, h]

/-- What a command computes, before it is known to commit or to raise. -/
def outcome (i : Instr) (s : State) : Except CmdError State :=
  match i with
  | .nop => .ok s.succeed
  | .count => countFrequencies s
  | .build => buildTree s
  | .gen => generateCodes s
  | .encode => encodeText s
  | .decode strict => decodeBuffer strict s
  | .clear => .ok s.emptyObjects.succeed

theorem exec_eq (i : Instr) (s : State) : exec i s = s.conclude (outcome i s) := by cases i <;> rfl

/-- A command commits, or takes an error that is recorded and changes nothing else (R248). -/
theorem exec_cases {i : Instr} {s t : State} (h : exec i s = .next t) :
    outcome i s = .ok t ∨ ∃ e, outcome i s = .error e ∧ t = s.raise e := by
  rw [exec_eq, State.conclude_eq_next] at h
  rcases h with h | ⟨e, h, rfl⟩
  · exact .inl h
  · exact .inr ⟨e, h, rfl⟩

/-- A command always answers a next state (R61, R233). -/
theorem exec_next (i : Instr) (s : State) : ∃ t, exec i s = .next t := by
  rw [exec_eq]
  cases outcome i s with
  | ok t => exact ⟨t, rfl⟩
  | error e => exact ⟨s.raise e, rfl⟩

/-- Whether the command committed shows in `STATUS` (R240). -/
theorem outcome_eq_ok {i : Instr} {s t : State} (h : exec i s = .next t) (h0 : errField t.status = 0) :
    outcome i s = .ok t := by
  rcases exec_cases h with h1 | ⟨e, -, rfl⟩
  · exact h1
  · simp only [State.raise_fields, CmdError.errField_status] at h0
    exact absurd h0 e.code_ne

end Sys2Proof.Machine
end

