-- ==== Sys2Proof/Laws/Invariant.lean ====
section
/-! SUPPORT. What the shared operations and the commits do to the invariant of Safety.lean (10_state.md R34, 60_exceptions.md R248). -/

namespace Sys2Proof.Machine

/-- Every error leaves a status of the tables (R240 to R242). -/
theorem CmdError.status_legal (e : CmdError) : e.status ∈ legalStatus := by
  cases e with
  | capacity sub => cases sub <;> decide
  | operand sub info => cases sub <;> (simp only [CmdError.status, CmdError.sub, CmdError.code]; decide)
  | _ => simp only [CmdError.status, CmdError.sub, CmdError.code]; decide

/-- The tree of R34 depends on the arena, its two registers and the configuration only. -/
theorem TreeInv.congr {s t : State} (h : TreeInv s) (h1 : t.nodeN = s.nodeN) (h2 : t.root = s.root)
    (h3 : t.node = s.node) (h4 : t.cfg = s.cfg) : TreeInv t := by
  have ha : t.arena = s.arena := by
    unfold State.arena; rw [h1]
    apply List.map_congr_left
    intro k hk
    have := h.written k (by simpa using hk)
    unfold State.nodeEntry; rw [h3]
    cases hr : s.node.read? k with
    | none => rw [hr] at this; cases this
    | some e => rfl
  refine ⟨?_, ?_, ?_, ?_, ?_⟩
  · rw [h1, h2]; exact h.none
  · rw [h1, h4]; exact h.leaves_le
  · rw [h1, h2]; exact h.root
  · rw [h1, h3]; exact h.written
  · rw [h1, ha]; exact h.tree

/-- An error keeps the invariant (R248). -/
theorem Inv.raise {s : State} (h : Inv s) (e : CmdError) : Inv (s.raise e) :=
  { h with status := e.status_legal, info := fun hh => absurd hh e.status_ne, tree := h.tree.congr rfl rfl rfl rfl }

/-- Every commit keeps the invariant. -/
theorem Inv.commit {i : Instr} {s t : State} (h : Inv s) (ho : outcome i s = .ok t) : Inv t := by
  have hok : statusOk ∈ legalStatus := by decide
  have hwn : statusWarn ∈ legalStatus := by decide
  have hN := h.cfg.nMax_le
  cases i with
  | nop => cases ho; exact { h with status := hok, info := fun _ => rfl, tree := h.tree.congr rfl rfl rfl rfl }
  | clear =>
    cases ho
    exact { h with
      status := hok
      info := fun _ => rfl
      tree := ⟨fun _ => rfl, fun hh => absurd rfl hh, fun hh => absurd rfl hh,
        by intro k hk; exact absurd hk (by simp), fun hh => absurd rfl hh⟩ }
  | count =>
    obtain ⟨h1, h2, rfl⟩ := countFrequencies_eq_ok.1 ho
    exact { h with
      status := hok, info := fun _ => rfl, tree := h.tree.congr rfl rfl rfl rfl
      freqWf := Memory.writeFrom_wf _ _ h.freqWf
      freqIn := by
        intro p hp
        rcases Memory.mem_writeFrom hp with hp | hp
        · exact h.freqIn p hp
        · rw [length_freqWords, length_countTable] at hp
          show p.1 < 2 * s.cfg.nMax
          omega }
  | build =>
    obtain ⟨g1, g2, g3, g4, g5, g6, g7, g8, g9⟩ := buildTree_result h.cfg ho
    obtain ⟨h1, h2, h3, h4, rfl⟩ := buildTree_eq_ok.1 ho
    rw [g1] at g4
    have hlc : leafCount (s.commitTree (buildNodes s.freqTable).1
        (rootOf (buildNodes s.freqTable).2)).succeed.nodeN.toNat = s.freqN.toNat := by
      rw [g5]; unfold leafCount; omega
    exact { h with
      status := hok, info := fun _ => rfl
      nodeWf := Memory.writeFrom_wf _ _ h.nodeWf
      nodeIn := by
        intro p hp
        rcases Memory.mem_writeFrom hp with hp | hp
        · exact h.nodeIn p hp
        · rw [g4] at hp
          show p.1 < s.cfg.nodeMax
          unfold Config.nodeMax
          omega
      tree := by
        refine ⟨?_, ?_, ?_, ?_, ?_⟩
        · intro hh; rw [hh] at g5; simp at g5; omega
        · intro _; rw [hlc]; exact h1
        · intro _; rw [g6, hlc]
        · intro k hk
          rw [g5] at hk
          simp only [State.succeed_fields, State.commitTree_fields, Memory.read?_writeFrom]
          rw [if_pos (by omega)]
          simp [g4]; omega
        · intro _; rw [hlc]; exact g2 }
  | gen =>
    obtain ⟨g1, g2, g3, g4, g5, g6, g7⟩ := generateCodes_result h.cfg h.tree ho
    obtain ⟨hz, rfl⟩ := generateCodes_eq_ok.1 ho
    have hn : s.nodeN ≠ 0 := by rintro h0; simp [h0] at hz
    obtain ⟨a1, a2, a3⟩ := h.tree.arenaTree hn
    have hs := s.cfg.words_le_cstride
    exact { h with
      status := hok, info := fun _ => rfl, tree := h.tree.congr rfl rfl rfl rfl
      codeWf := writeCodes_wf _ _ h.codeWf
      codeIn := by
        intro p hp
        rcases mem_writeCodes hp with hp | ⟨k, j, _, hk, hj, hp⟩
        · exact h.codeIn p hp
        · show p.1 < s.cfg.nMax * s.cfg.cstride ∧ p.1 % s.cfg.cstride < 2 + s.cfg.cw
          rw [hp, (codeKey_div_mod s.cfg (by omega)).2]
          refine ⟨?_, hj⟩
          rw [length_genTable a1] at hk
          have : (k + 1) * s.cfg.cstride ≤ s.cfg.nMax * s.cfg.cstride := Nat.mul_le_mul_right _ (by omega)
          rw [Nat.succ_mul] at this
          unfold Config.codeKey
          omega }
  | encode =>
    obtain ⟨h1, h2, h3, es, h4, h5, rfl⟩ := encodeText_eq_ok.1 ho
    exact { h with
      status := hok, info := fun _ => rfl, tree := h.tree.congr rfl rfl rfl rfl
      bufWf := Memory.writeFrom_wf _ _ h.bufWf
      bufIn := by
        intro p hp
        rcases Memory.mem_writeFrom hp with hp | hp
        · exact h.bufIn p hp
        · rw [length_packBytes] at hp
          show p.1 < s.cfg.bufMax
          omega }
  | decode b =>
    obtain ⟨_, _, _, _, es, rest, _, _, _, hc, hh⟩ := decodeBuffer_ok ho
    have tin : ∀ p ∈ s.txt.writeFrom 0 (es.map (·.sym)), p.1 < s.cfg.textMax := by
      intro p hp
      rcases Memory.mem_writeFrom hp with hp | hp
      · exact h.txtIn p hp
      · simp at hp; omega
    unfold finishDecode at hh
    split at hh
    · cases hh; exact { h with
      status := hok, info := fun _ => rfl, tree := h.tree.congr rfl rfl rfl rfl
      txtWf := Memory.writeFrom_wf _ _ h.txtWf, txtIn := tin }
    split at hh
    · cases hh
    · cases hh; exact { h with
      status := hwn, info := fun hx => absurd hx (show statusWarn ≠ 0 by decide), tree := h.tree.congr rfl rfl rfl rfl
      txtWf := Memory.writeFrom_wf _ _ h.txtWf, txtIn := tin }

/-- A host write to a location of the block keeps the invariant (R233). -/
theorem Inv.writeLoc {s : State} (h : Inv s) (l : Loc) (v : Word) (hv : l.valid s.cfg = true) : Inv (s.writeLoc l v) := by
  have hs := s.cfg.words_le_cstride
  have cin : ∀ i j, i < s.cfg.nMax → j < 2 + s.cfg.cw →
      ∀ p ∈ s.code.write (Config.codeKey s.cfg i j) v, p.1 < s.cfg.nMax * s.cfg.cstride ∧ p.1 % s.cfg.cstride < 2 + s.cfg.cw := by
    intro i j hi hj p hp
    rcases Memory.mem_write hp with rfl | hp
    · rw [(codeKey_div_mod s.cfg (by omega)).2]
      refine ⟨?_, hj⟩
      have : (i + 1) * s.cfg.cstride ≤ s.cfg.nMax * s.cfg.cstride := Nat.mul_le_mul_right _ (by omega)
      rw [Nat.succ_mul] at this
      unfold Config.codeKey
      omega
    · exact h.codeIn p hp
  have tin : ∀ i, i < s.cfg.textMax → ∀ p ∈ s.txt.write i v, p.1 < s.cfg.textMax := by
    intro i hi p hp
    rcases Memory.mem_write hp with rfl | hp
    · exact hi
    · exact h.txtIn p hp
  have bin : ∀ i, i < s.cfg.bufMax → ∀ p ∈ s.buf.write i (v.setWidth 8), p.1 < s.cfg.bufMax := by
    intro i hi p hp
    rcases Memory.mem_write hp with rfl | hp
    · exact hi
    · exact h.bufIn p hp
  have fin : ∀ i, i < 2 * s.cfg.nMax → ∀ p ∈ s.freq.write i v, p.1 < 2 * s.cfg.nMax := by
    intro i hi p hp
    rcases Memory.mem_write hp with rfl | hp
    · exact hi
    · exact h.freqIn p hp
  have htree : TreeInv (s.writeLoc l v) := by
    cases l with
    | reg r => cases r <;> exact h.tree.congr rfl rfl rfl rfl
    | _ => exact h.tree.congr rfl rfl rfl rfl
  cases l with
  | reg r => cases r <;> exact { h with tree := htree }
  | txt i =>
    simp only [Loc.valid, decide_eq_true_eq] at hv
    exact { h with txtWf := Memory.write_wf _ _ h.txtWf, txtIn := tin i hv, tree := htree }
  | buf i =>
    simp only [Loc.valid, decide_eq_true_eq] at hv
    exact { h with bufWf := Memory.write_wf _ _ h.bufWf, bufIn := bin i hv, tree := htree }
  | freqSym i =>
    simp only [Loc.valid, decide_eq_true_eq] at hv
    exact { h with freqWf := Memory.write_wf _ _ h.freqWf, freqIn := fin _ (by omega), tree := htree }
  | freqCount i =>
    simp only [Loc.valid, decide_eq_true_eq] at hv
    exact { h with freqWf := Memory.write_wf _ _ h.freqWf, freqIn := fin _ (by omega), tree := htree }
  | codeSym i =>
    simp only [Loc.valid, decide_eq_true_eq] at hv
    exact { h with codeWf := Memory.write_wf _ _ h.codeWf, codeIn := cin i 0 hv (by omega), tree := htree }
  | codeLen i =>
    simp only [Loc.valid, decide_eq_true_eq] at hv
    exact { h with codeWf := Memory.write_wf _ _ h.codeWf, codeIn := cin i 1 hv (by omega), tree := htree }
  | codeBits i w =>
    simp only [Loc.valid, Bool.and_eq_true, decide_eq_true_eq] at hv
    exact { h with codeWf := Memory.write_wf _ _ h.codeWf, codeIn := cin i (2 + w) hv.1 (by omega), tree := htree }
  | nodeFreq k => exact { h with tree := htree }
  | nodeKind k => exact { h with tree := htree }
  | nodeA k => exact { h with tree := htree }
  | nodeB k => exact { h with tree := htree }

theorem Inv.accept {s : State} (h : Inv s) (rest : List Transaction) : Inv (s.accept rest) :=
  { h with tree := h.tree.congr rfl rfl rfl rfl }

/-- A written text reads the same in every transaction (R46). -/
theorem TextWritten.text_eq {s t : State} (h : TextWritten s) (h1 : t.txt = s.txt) (h2 : t.txtLen = s.txtLen) :
    t.text = s.text := by
  unfold State.text; rw [h2]
  apply List.map_congr_left
  intro i hi
  have := h i (by simpa using hi)
  unfold State.txtCell State.cell; rw [h1]
  cases hr : s.txt.read? i with
  | none => rw [hr] at this; cases this
  | some e => rfl

end Sys2Proof.Machine
end

