-- ==== Sys2Proof/Laws/PerInstr.lean ====
section
/-! SUPPORT. Statements about every command as syntax, one lemma for each constructor (LAWS.json names the families). -/

/-- The word of a command obeys the reserved-field rules of 30_encoding.md R91 and R93, holds the command's fields in the
positions of R90, and decodes to the command. -/
def Sys2Proof.Laws.EncodesLegally.Statement (i : Sys2Proof.Instr) : Prop :=
  i.fields.wf = true ∧ Sys2Proof.fieldsOf (Sys2Proof.encode i) = i.fields ∧
    Sys2Proof.decode (Sys2Proof.encode i) = .ok i

theorem Sys2Proof.Laws.EncodesLegally.nop : Sys2Proof.Laws.EncodesLegally.Statement .nop :=
  ⟨by decide, by decide, rfl⟩

theorem Sys2Proof.Laws.EncodesLegally.count : Sys2Proof.Laws.EncodesLegally.Statement .count :=
  ⟨by decide, by decide, rfl⟩

theorem Sys2Proof.Laws.EncodesLegally.build : Sys2Proof.Laws.EncodesLegally.Statement .build :=
  ⟨by decide, by decide, rfl⟩

theorem Sys2Proof.Laws.EncodesLegally.gen : Sys2Proof.Laws.EncodesLegally.Statement .gen :=
  ⟨by decide, by decide, rfl⟩

theorem Sys2Proof.Laws.EncodesLegally.encode : Sys2Proof.Laws.EncodesLegally.Statement .encode :=
  ⟨by decide, by decide, rfl⟩

theorem Sys2Proof.Laws.EncodesLegally.decode (strict : Bool) :
    Sys2Proof.Laws.EncodesLegally.Statement (.decode strict) := by
  cases strict <;> exact ⟨by decide, by decide, rfl⟩

theorem Sys2Proof.Laws.EncodesLegally.clear : Sys2Proof.Laws.EncodesLegally.Statement .clear :=
  ⟨by decide, by decide, rfl⟩
end

