-- ==== Sys2Proof/Tests/Slice0.lean ====
section
/-! SUPPORT. The model's own tests: words written out from 30_encoding.md, the well-formedness smoke test, single steps of 95_test_vectors.md, and for each statement with hypotheses a state that meets them. -/

namespace Sys2Proof.Tests

open Sys2Proof Sys2Proof.Machine

/-! ## Small states of the configuration CFG-TINY -/

/-- What is read from the state an outcome answers. -/
def after {α : Type} (o : Host.Outcome State Fault Refusal) (f : State → α) : Option α :=
  match o with
  | .next t => some (f t)
  | .fault _ => none
  | .refused _ => none

def tiny : State := State.resetWith Config.tiny

def withText (xs : List Word) (s : State) : State :=
  { s with txt := xs.zipIdx.map (fun p => (p.2, p.1)), txtLen := BitVec.ofNat 32 xs.length }

def withFreq (es : List (Word × Word)) (s : State) : State :=
  { s with
    freq := es.zipIdx.flatMap (fun p => [(2 * p.2, p.1.1), (2 * p.2 + 1, p.1.2)])
    freqN := BitVec.ofNat 32 es.length }

/-- Codes of at most 32 bits, at CFG-TINY's four addresses an entry. -/
def withCodes (es : List (Word × Word × Word)) (s : State) : State :=
  { s with
    code := es.zipIdx.flatMap (fun p => [(4 * p.2, p.1.1), (4 * p.2 + 1, p.1.2.1), (4 * p.2 + 2, p.1.2.2)])
    codeN := BitVec.ofNat 32 es.length }

def withBuf (bs : List Byte) (pad : BitVec 3) (s : State) : State :=
  { s with buf := bs.zipIdx.map (fun p => (p.2, p.1)), bufLen := BitVec.ofNat 32 bs.length, pad := pad }

/-- The table `T_skew` of vector L2-E28. -/
def skewWords : List (Word × Word × Word) := [(0x61, 3, 6), (0x62, 3, 7), (0x63, 2, 2), (0x64, 1, 0)]

def skew : List CodeEntry :=
  [⟨0x61, ⟨3, 6⟩⟩, ⟨0x62, ⟨3, 7⟩⟩, ⟨0x63, ⟨2, 2⟩⟩, ⟨0x64, ⟨1, 0⟩⟩]

/-- The entries that spell "dcba". -/
def dcba : List CodeEntry :=
  [⟨0x64, ⟨1, 0⟩⟩, ⟨0x63, ⟨2, 2⟩⟩, ⟨0x62, ⟨3, 7⟩⟩, ⟨0x61, ⟨3, 6⟩⟩]

/-- "dcba" with `T_skew` (L2-E28). -/
def encodable : State := withCodes skewWords (withText [0x64, 0x63, 0x62, 0x61] tiny)

/-- The buffer of L2-D27, `5F 00` with `PAD = 7`. -/
def decodable : State := withCodes skewWords (withBuf [0x5F, 0x00] 7 tiny)

/-- The buffer of L2-D28, `5F 01` with `PAD = 7`. -/
def corrupt : State := withCodes skewWords (withBuf [0x5F, 0x01] 7 tiny)

/-- The table of L2-B9. -/
def buildable : State := withFreq [(0x61, 2), (0x62, 1)] tiny

/-! ## Decoding: words written out bit by bit from R90 and R92 -/

/-- Bits 31:9 `RSV1`, 8 `S`, 7:4 `RSV0`, 3:0 `OP`. -/
theorem test_word_nop : decode (0b00000000000000000000000#23 ++ 0b0#1 ++ 0b0000#4 ++ 0b0000#4) = .ok .nop := by decide

theorem test_word_count : decode (0b00000000000000000000000#23 ++ 0b0#1 ++ 0b0000#4 ++ 0b0001#4) = .ok .count := by
  decide

theorem test_word_build : decode (0b00000000000000000000000#23 ++ 0b0#1 ++ 0b0000#4 ++ 0b0010#4) = .ok .build := by
  decide

theorem test_word_gen : decode (0b00000000000000000000000#23 ++ 0b0#1 ++ 0b0000#4 ++ 0b0011#4) = .ok .gen := by decide

theorem test_word_encode : decode (0b00000000000000000000000#23 ++ 0b0#1 ++ 0b0000#4 ++ 0b0100#4) = .ok .encode := by
  decide

theorem test_word_decode :
    decode (0b00000000000000000000000#23 ++ 0b0#1 ++ 0b0000#4 ++ 0b0101#4) = .ok (.decode false) := by decide

theorem test_word_decode_strict :
    decode (0b00000000000000000000000#23 ++ 0b1#1 ++ 0b0000#4 ++ 0b0101#4) = .ok (.decode true) := by decide

theorem test_word_clear : decode (0b00000000000000000000000#23 ++ 0b0#1 ++ 0b0000#4 ++ 0b1111#4) = .ok .clear := by
  decide

/-- The words of vector L2-K4. -/
theorem test_illegal_words :
    [0x00000006, 0x0000000E, 0x00000010, 0x00000015, 0x00000025, 0x00000100, 0x00000101, 0x00000104, 0x0000010F,
      0x00000205, 0x00010005, 0x80000005, 0xFFFFFFFF].all
      (fun w => decode w == .error (.illegalCommand w)) = true := by decide

/-- The table word of `DECODE.S`, and a number that is no 32-bit word. -/
theorem test_table_word :
    decodeTableWord 32 0x105 = some (.decode true) ∧ decodeTableWord 40 0x100000005 = none := by decide

/-! ## Well-formedness: an ill-formed term for each check, which the check refuses -/

theorem test_wf_accepts : Config.ref.wf = true ∧ Config.tiny.wf = true := by decide

theorem test_wf_refuses_nMax : Config.wf { nMax := 0, textMax := 8, bufMax := 2 } = false := by decide

theorem test_wf_refuses_textMax : Config.wf { nMax := 4, textMax := 0, bufMax := 2 } = false := by decide

theorem test_wf_refuses_bufMax : Config.wf { nMax := 4, textMax := 8, bufMax := 0 } = false := by decide

theorem test_wf_refuses_long_text : Config.wf { nMax := 4, textMax := 1048577, bufMax := 2 } = false := by decide

theorem test_wf_refuses_long_buffer : Config.wf { nMax := 4, textMax := 8, bufMax := 1048577 } = false := by decide

/-- 131073 entries need 262145 nodes, so `4 * NODE_MAX = 1048580`. -/
theorem test_wf_refuses_arena :
    decide (4 * Config.nodeMax { nMax := 131073, textMax := 8, bufMax := 2 } ≤ 2 ^ 20) = false ∧
      Config.wf { nMax := 131073, textMax := 8, bufMax := 2 } = false := by decide

/-- 8192 entries have `CODE_MAX = 8191`, `CW = 256`, `CSTRIDE = 512`: the arena fits and the table does not. -/
theorem test_wf_refuses_table :
    decide (4 * Config.nodeMax { nMax := 8192, textMax := 8, bufMax := 2 } ≤ 2 ^ 20) = true ∧
      Config.wf { nMax := 8192, textMax := 8, bufMax := 2 } = false := by decide

theorem test_fields_accept : CommandFields.wf { op := 0x5, rsv0 := 0, s := true, rsv1 := 0 } = true := by decide

theorem test_fields_refuse_rsv1 : CommandFields.wf { op := 0x5, rsv0 := 0, s := false, rsv1 := 1 } = false := by decide

theorem test_fields_refuse_rsv0 : CommandFields.wf { op := 0x5, rsv0 := 1, s := false, rsv1 := 0 } = false := by decide

theorem test_fields_refuse_reserved_op :
    CommandFields.wf { op := 0x6, rsv0 := 0, s := false, rsv1 := 0 } = false ∧
      CommandFields.wf { op := 0xE, rsv0 := 0, s := false, rsv1 := 0 } = false := by decide

theorem test_fields_refuse_strict : CommandFields.wf { op := 0x4, rsv0 := 0, s := true, rsv1 := 0 } = false := by decide

/-- The derived parameters of R7. -/
theorem test_derived_parameters :
    (Config.ref.nodeMax, Config.ref.codeMax, Config.ref.cw, Config.ref.cstride, Config.ref.cshift) =
      (511, 255, 8, 16, 4) ∧
    (Config.tiny.nodeMax, Config.tiny.codeMax, Config.tiny.cw, Config.tiny.cstride, Config.tiny.cshift) =
      (7, 3, 1, 4, 2) := by decide

/-! ## Single steps -/

/-- L2-K1: `NOP` clears the record and nothing else. -/
theorem test_nop :
    exec .nop { tiny with status := 0x003, errinfo := 7, txtLen := 3 } = .next { tiny with txtLen := 3 } := by rfl

/-- L2-K3: `CLEAR` keeps the cells. -/
theorem test_clear :
    after (exec .clear { decodable with status := 0x003 }) (fun t => (t.status, t.bufLen, t.pad, t.codeN)) =
      some (0, 0, 0, 0) ∧
    after (exec .clear { decodable with status := 0x003 }) (fun t => t.buf) = some [(0, 0x5F), (1, 0x00)] := by decide

/-- L2-C5, a repeated symbol added: the order follows the text. -/
theorem test_count_order :
    after (exec .count (withText [0x62, 0x61, 0x62] tiny)) (fun t => (t.status, t.freqN, t.freq)) =
      some (0, 2, [(0, 0x62), (1, 2), (2, 0x61), (3, 1)]) := by decide

/-- L2-C8: a fifth distinct symbol with `N_MAX = 4`. -/
theorem test_count_symbols :
    exec .count (withText [0x61, 0x62, 0x63, 0x64, 0x65] tiny) =
      .next { withText [0x61, 0x62, 0x63, 0x64, 0x65] tiny with status := 0x015 } := by rfl

/-- L2-B9: the left child is the smaller frequency, whatever its index. -/
theorem test_build_order :
    after (exec .build buildable) (fun t => (t.status, t.nodeN, t.root, t.nodeEntry 2)) =
      some (0, 3, 2, ⟨3, false, 0, 1, 0⟩) := by decide

/-- L2-B4: at equal frequencies the smaller index first, leaves before internal nodes. -/
theorem test_build_ties :
    after (exec .build (withFreq [(0x61, 1), (0x62, 1), (0x63, 1), (0x64, 1)] tiny)) (fun t => t.arena.drop 4) =
      some [⟨2, false, 0, 0, 1⟩, ⟨2, false, 0, 2, 3⟩, ⟨4, false, 0, 4, 5⟩] := by decide

/-- The tree of the table of L2-E28. -/
def skewTree : State :=
  { tiny with
    nodeN := 7
    root := 6
    node := [(0, ⟨1, true, 0x61, 0, 0⟩), (1, ⟨1, true, 0x62, 0, 0⟩), (2, ⟨2, true, 0x63, 0, 0⟩),
      (3, ⟨4, true, 0x64, 0, 0⟩), (4, ⟨2, false, 0, 0, 1⟩), (5, ⟨4, false, 0, 2, 4⟩), (6, ⟨8, false, 0, 3, 5⟩)] }

/-- `T_skew` of L2-E28 from its tree. -/
theorem test_gen_paths : after (exec .gen skewTree) (fun t => (t.status, t.codeN, t.codeTable)) = some (0, 4, skew) := by
  decide

/-- L2-G7: the one leaf gets "0". -/
theorem test_gen_single :
    after (exec .gen { tiny with nodeN := 1, node := [(0, ⟨4, true, 0x61, 0, 0⟩)] }) (fun t => t.codeTable) =
      some [⟨0x61, ⟨1, 0⟩⟩] := by decide

/-- L2-E28. -/
theorem test_encode :
    after (exec .encode encodable) (fun t => (t.status, t.buf, t.bufLen, t.pad)) =
      some (0, [(0, 0x5F), (1, 0x00)], 2, 7) := by decide

/-- L2-E26: the unknown symbol comes before the capacity error. -/
theorem test_encode_unknown :
    after (exec .encode (withCodes [(0x61, 3, 0)] (withText [0x61, 0x61, 0x61, 0x61, 0x61, 0x61, 0x61, 0x62] tiny)))
      (fun t => (t.status, t.errinfo, t.bufLen)) = some (0x002, 7, 0) := by decide

/-- L2-D28, strict. -/
theorem test_decode_strict :
    after (exec (.decode true) corrupt) (fun t => (t.status, t.errinfo, t.txtLen, t.txt)) = some (0x003, 9, 0, []) := by
  decide

/-- L2-D28, best effort. -/
theorem test_decode_warns :
    after (exec (.decode false) corrupt) (fun t => (t.status, t.errinfo, t.text)) =
      some (0x100, 9, [0x64, 0x63, 0x62, 0x61]) := by decide

/-- L2-E20: the first failing condition and the index it reports. -/
theorem test_table_checks :
    codeTableError Config.tiny [⟨0x61, ⟨1, 0⟩⟩, ⟨0x62, ⟨2, 1⟩⟩] = some (.operand .prefixed 1) ∧
    codeTableError Config.tiny [⟨0x61, ⟨1, 0⟩⟩, ⟨0x62, ⟨1, 0⟩⟩] = some (.operand .prefixed 0) ∧
    codeTableError Config.tiny [⟨0x61, ⟨0, 0⟩⟩, ⟨0x61, ⟨1, 2⟩⟩] = some (.operand .codeLen 0) ∧
    codeTableError Config.tiny [⟨0x61, ⟨1, 2⟩⟩] = some (.operand .codeBits 0) ∧
    codeTableError Config.tiny [⟨0x61, ⟨1, 0⟩⟩, ⟨0x61, ⟨1, 1⟩⟩] = some (.operand .dupSym 1) := by decide

/-- L2-H1, L2-H7: the configuration registers, and reserved addresses of CFG-REF. -/
theorem test_host_reads :
    [0x00000A, 0x00000B, 0x00000C, 0x00000D, 0x0FFFFF, 0x600000, 0xFFFFFF, 0x50000A, 0x110000, 0x300200, 0x4007FC].map
      State.reset.hostRead = [0x100, 0x10000, 0x10000, 0, 0, 0, 0, 0, 0, 0, 0] := by decide

/-- L2-H3, L2-H4: the kept bits. -/
theorem test_host_writes :
    after (step { tiny with pending := [.write 0x000005 0x0000000F] }) (fun t => t.hostRead 0x000005) = some 7 ∧
    after (step { tiny with pending := [.write 0x200000 0x000001FF] }) (fun t => t.hostRead 0x200000) = some 0xFF := by
  decide

/-- The first command after reset: `BUILD` has no table. -/
theorem test_first_command :
    after (step (State.reset.withFetchWord 32 0x2)) (fun t => (t.status, t.errinfo, t.pending)) = some (0x001, 0, []) := by
  decide

/-- The lines of R97 for CFG-TINY: `code (a,1,0)`. -/
theorem test_code_macro :
    scriptTransactions Config.tiny (codeMacro Config.tiny [(0x61, 1, 0)]) =
      [.write 0x500000 0x61, .write 0x500001 1, .write 0x500002 0, .write 0x000007 1] := by decide

/-- The line of L2-K3 and a line of the listing at the end of 95_test_vectors.md. -/
theorem test_line_text :
    transactionText (.write 0x000000 0x0000000F) 0 =
      ['W', ' ', '0', '0', '0', '0', '0', '0', ' ', '0', '0', '0', '0', '0', '0', '0', 'F'] ∧
    transactionText (.read 0x000001) 0x00000000 =
      ['R', ' ', '0', '0', '0', '0', '0', '1', ' ', '-', '>', ' ', '0', '0', '0', '0', '0', '0', '0', '0'] := by decide

/-- `text "ab"` with the character values of G1. -/
theorem test_text_macro :
    scriptTransactions Config.tiny (textStringMacro ['a', 'b']) =
      [.write 0x100000 0x61, .write 0x100001 0x62, .write 0x000003 2] := by decide

/-! ## Witnesses: for each statement with hypotheses, terms that meet all of them -/

theorem skew_wf : CodeWF Config.tiny skew := codeTableError_eq_none.1 (by decide)

theorem encodable_table : encodable.codeTable = skew := by decide

theorem decodable_table : decodable.codeTable = skew := by decide

theorem dcba_spells : Spells skew dcba [0x64, 0x63, 0x62, 0x61] := by unfold Spells; decide

/-- A state of CFG-TINY whose tables are small lists meets the invariant where there is no tree. -/
theorem inv_of_lists {s : State} (hc : s.cfg = Config.tiny) (hn : s.nodeN = 0 ∧ s.root = 0)
    (hs : s.status = 0 ∧ s.errinfo = 0)
    (hw : Memory.wf s.txt ∧ Memory.wf s.buf ∧ Memory.wf s.freq ∧ Memory.wf s.node ∧ Memory.wf s.code)
    (hi : (∀ p ∈ s.txt, p.1 < 8) ∧ (∀ p ∈ s.buf, p.1 < 2) ∧ (∀ p ∈ s.freq, p.1 < 8) ∧ (∀ p ∈ s.node, p.1 < 7) ∧
      ∀ p ∈ s.code, p.1 < 16 ∧ p.1 % 4 < 3) : Inv s where
  cfg := by rw [hc]; exact Config.tiny_wellFormed
  txtWf := hw.1
  bufWf := hw.2.1
  freqWf := hw.2.2.1
  nodeWf := hw.2.2.2.1
  codeWf := hw.2.2.2.2
  txtIn := by rw [hc]; exact hi.1
  bufIn := by rw [hc]; exact hi.2.1
  freqIn := by rw [hc]; exact hi.2.2.1
  nodeIn := by rw [hc]; exact hi.2.2.2.1
  codeIn := by rw [hc]; exact hi.2.2.2.2
  status := by rw [hs.1]; decide
  info := fun _ => hs.2
  tree := by
    obtain ⟨h1, h2⟩ := hn
    refine ⟨fun _ => h2, fun h => absurd h1 h, fun h => absurd h1 h, ?_, fun h => absurd h1 h⟩
    intro k hk
    rw [h1] at hk
    exact absurd hk (by simp)

theorem buildable_inv : Inv buildable :=
  inv_of_lists rfl ⟨rfl, rfl⟩ ⟨rfl, rfl⟩ (by unfold Memory.wf; decide) (by decide)

theorem encodable_inv : Inv encodable :=
  inv_of_lists rfl ⟨rfl, rfl⟩ ⟨rfl, rfl⟩ (by unfold Memory.wf; decide) (by decide)

/-- The state after `BUILD` on the table of L2-B9. -/
def built : State :=
  (buildable.commitTree (buildNodes buildable.freqTable).1 (rootOf (buildNodes buildable.freqTable).2)).succeed

theorem buildable_ok : buildTree buildable = .ok built :=
  buildTree_eq_ok.2 ⟨by decide, by decide, by unfold DistinctSymbols; decide, by decide, rfl⟩

theorem exec_buildable : exec .build buildable = .next built := by
  rw [exec_eq]
  exact State.conclude_ok buildable_ok

theorem built_inv : Inv built := Inv.commit (i := .build) buildable_inv buildable_ok

/-- The state after `GEN` on that tree. -/
def generated : State := (built.commitCodes (genTable built.arena built.root.toNat)).succeed

theorem exec_built : exec .gen built = .next generated := by
  rw [exec_eq]
  exact State.conclude_ok (generateCodes_eq_ok.2 ⟨by decide, rfl⟩)

theorem built_tree : ArenaTree built.arena 2 :=
  (buildTree_result buildable_inv.cfg buildable_ok).2.1

/-- `IllegalWordsRaise`: each condition of R93 at a boundary, none of the others holding. -/
theorem witness_illegal :
    ((0x00000205 : Word).extractLsb' 9 23 ≠ 0 ∧ (0x80000005 : Word).extractLsb' 9 23 ≠ 0) ∧
    ((0x00000015 : Word).extractLsb' 4 4 ≠ 0 ∧ (0x00000085 : Word).extractLsb' 4 4 ≠ 0) ∧
    (0x6 ≤ ((0x00000006 : Word).extractLsb' 0 4).toNat ∧ ((0x0000000E : Word).extractLsb' 0 4).toNat ≤ 0xE) ∧
    ((0x00000104 : Word).getLsbD 8 = true ∧ (0x00000104 : Word).extractLsb' 0 4 ≠ 0x5) ∧
    ({ tiny with pending := [.write 0 0x00000104] } : State).pending = .write 0 0x00000104 :: [] := by decide

/-- `StepRunsDecodedCommand`, both clauses. -/
theorem witness_step :
    ({ tiny with pending := [.write 0 0x00000001] } : State).pending = .write 0 0x00000001 :: [] ∧
    decode 0x00000001 = .ok .count ∧
    ({ tiny with pending := [.read 0] } : State).pending = .read 0 :: [] := by decide

/-- `AddressMapIsExact`: the first and the last location of each window. -/
theorem witness_address_map :
    Config.tiny.WellFormed ∧
    (Loc.reg .cmd).addr Config.tiny = 0x000000 ∧ (Loc.reg .cfgBufMax).addr Config.tiny = 0x00000C ∧
    (Loc.txt 7).addr Config.tiny = 0x100007 ∧ (Loc.txt 7).valid Config.tiny = true ∧
    (Loc.buf 1).addr Config.tiny = 0x200001 ∧ (Loc.buf 1).valid Config.tiny = true ∧
    (Loc.freqSym 0).addr Config.tiny = 0x300000 ∧ (Loc.freqCount 3).addr Config.tiny = 0x300007 ∧
    (Loc.nodeFreq 0).addr Config.tiny = 0x400000 ∧ (Loc.nodeB 6).addr Config.tiny = 0x40001B ∧
    (Loc.codeSym 1).addr Config.tiny = 0x500004 ∧ (Loc.codeBits 3 0).addr Config.tiny = 0x50000E ∧
    (Loc.codeBits 3 0).valid Config.tiny = true ∧ (Loc.codeBits 3 1).valid Config.tiny = false :=
  ⟨Config.tiny_wellFormed, by decide⟩

/-- `ReservedAddressesAreInert`: each clause at its first reserved address. -/
theorem witness_reserved :
    [0x00000D, 0x100008, 0x200002, 0x300008, 0x40001C, 0x500003, 0x500010, 0x600000].all
      (fun a => locate Config.tiny a == none) = true ∧
    [0x00000C, 0x100007, 0x200001, 0x300007, 0x40001B, 0x500002, 0x50000E].all
      (fun a => (locate Config.tiny a).isSome) = true ∧
    tiny.cfg.WellFormed ∧
    ({ tiny with pending := [.read 0x500003] } : State).pending = .read 0x500003 :: [] ∧
    ({ tiny with pending := [.write 0x500003 1] } : State).pending = .write 0x500003 1 :: [] :=
  ⟨by decide, by decide, Config.tiny_wellFormed, rfl, rfl⟩

/-- `ReadOnlyWritesAreIgnored`: a register and an arena location. -/
theorem witness_read_only :
    tiny.cfg.WellFormed ∧ (Loc.reg .status).valid tiny.cfg = true ∧ (Loc.nodeB 6).valid tiny.cfg = true ∧
    ({ tiny with pending := [.write ((Loc.nodeB 6).addr tiny.cfg) 5] } : State).pending =
      .write ((Loc.nodeB 6).addr tiny.cfg) 5 :: [] ∧
    Loc.reg .status ∈ [Loc.reg .status, .reg .errinfo, .reg .nodeN, .reg .root, .reg .cfgNMax, .reg .cfgTextMax,
      .reg .cfgBufMax] :=
  ⟨Config.tiny_wellFormed, by decide, by decide, rfl, by decide⟩

/-- `HostReadReturnsLocation`: an address that names a location and one that names none. -/
theorem witness_host_read :
    encodable.cfg.WellFormed ∧ (Loc.txt 3).valid encodable.cfg = true ∧ (Loc.txt 3).addr encodable.cfg = 0x100003 ∧
    after (step { encodable with pending := [.read 0x100003] }) (fun t => t.returned) = some [0x61] ∧
    after (step { encodable with pending := [.read 0x600000] }) (fun t => t.returned) = some [0] :=
  ⟨Config.tiny_wellFormed, by decide⟩

/-- `LocationsReadAsTheyHold`: a written cell of each space. -/
theorem witness_locations :
    encodable.txt.read? 3 = some 0x61 ∧ decodable.buf.read? 0 = some 0x5F ∧ buildable.freq.read? (2 * 1) = some 0x62 ∧
    buildable.freq.read? (2 * 1 + 1) = some 1 ∧ skewTree.node.read? 0 = some ⟨1, true, 0x61, 0, 0⟩ ∧
    skewTree.node.read? 6 = some ⟨8, false, 0, 3, 5⟩ ∧ encodable.code.read? (1 * encodable.cfg.cstride) = some 0x62 ∧
    encodable.code.read? (1 * encodable.cfg.cstride + 1) = some 3 ∧
    encodable.code.read? (1 * encodable.cfg.cstride + (2 + 0)) = some 7 := by decide

/-- `HostWriteStoresOneLocation`: a register of 3 bits, a byte cell and the last word of the code table. -/
theorem witness_host_write :
    tiny.cfg.WellFormed ∧ (Loc.reg .pad).writable = true ∧ (Loc.buf 1).writable = true ∧
    (Loc.codeBits 3 0).writable = true ∧ (Loc.codeBits 3 0).valid tiny.cfg = true ∧
    ({ tiny with pending := [.write ((Loc.codeBits 3 0).addr tiny.cfg) 5] } : State).pending =
      .write ((Loc.codeBits 3 0).addr tiny.cfg) 5 :: [] :=
  ⟨Config.tiny_wellFormed, by decide, by decide, by decide, by decide, rfl⟩

/-- `TextMacroLoadsText`: the empty text and one that fills `TXT`. -/
theorem witness_text_macro :
    tiny.cfg.WellFormed ∧ ([] : List Word).length ≤ tiny.cfg.textMax ∧
    (List.replicate 8 (0x61 : Word)).length ≤ tiny.cfg.textMax ∧
    after (runPending { tiny with pending := scriptTransactions tiny.cfg (textMacro [0x61, 0x62]) }) (fun t => t.text) =
      some [0x61, 0x62] :=
  ⟨Config.tiny_wellFormed, by decide⟩

/-- `CommandsAfterReset` and the second half of `InvariantAtReset`. -/
theorem witness_config : Config.ref.WellFormed ∧ Config.tiny.WellFormed :=
  ⟨Config.ref_wellFormed, Config.tiny_wellFormed⟩

/-- `StepKeepsInvariant`: a state with a tree, about to make a code table. -/
theorem witness_step_invariant :
    Inv { built with pending := [.write 0 0x00000003] } ∧ built.nodeN = 3 ∧
    ∃ t, step { built with pending := [.write 0 0x00000003] } = .next t :=
  ⟨{ built_inv with tree := built_inv.tree.congr rfl rfl rfl rfl }, by decide, _, rfl⟩

/-- `FailingCommandKeepsState` and `SuccessRecordValues`, both of its cases. -/
theorem witness_outcomes :
    after (exec .build tiny) (fun t => errField t.status) = some 1 ∧
    after (exec .build buildable) (fun t => errField t.status) = some 0 ∧
    after (exec (.decode false) corrupt) (fun t => (errField t.status, t.status)) = some (0, 0x100) := by decide

/-- `CountTabulatesText`, `CountConservesFrequency`: a text that fills `TXT` and `FREQ`. -/
theorem witness_count :
    let s := withText [0x61, 0x62, 0x63, 0x64, 0x61, 0x62, 0x63, 0x64] tiny
    s.cfg.WellFormed ∧ s.txtLen.toNat ≤ s.cfg.textMax ∧ (firstSeen s.text).length ≤ s.cfg.nMax ∧
      after (exec .count s) (fun t => t.status) = some 0 :=
  ⟨Config.tiny_wellFormed, by decide, by decide, by decide⟩

/-- `CountRaises`: each clause, at the first value over the limit. -/
theorem witness_count_raises :
    tiny.cfg.textMax < ({ tiny with txtLen := 9 } : State).txtLen.toNat ∧
    (let s := withText [0x61, 0x62, 0x63, 0x64, 0x65] tiny
     s.txtLen.toNat ≤ s.cfg.textMax ∧ s.cfg.nMax < (firstSeen s.text).length) := by decide

/-- `BuildMakesTree`, `BuildMergesTwoLeast`, `BuildTreeProperties`. -/
theorem witness_build :
    buildable.cfg.WellFormed ∧ buildable.freqN.toNat ≤ buildable.cfg.nMax ∧ buildable.freqN ≠ 0 ∧
    DistinctSymbols buildable.freqTable ∧ totalCount buildable.freqTable < 2 ^ 32 ∧
    exec .build buildable = .next built ∧ built.status = 0 ∧
    built.arena[buildable.freqN.toNat + 0]? = some ⟨3, false, 0, 1, 0⟩ :=
  ⟨Config.tiny_wellFormed, by decide, by decide, by unfold DistinctSymbols; decide, by decide, exec_buildable, by decide,
    by decide⟩

/-- `BuildSingleLeaf`. -/
theorem witness_build_single :
    (withFreq [(0x61, 4)] tiny).cfg.WellFormed ∧ (withFreq [(0x61, 4)] tiny).freqTable = [⟨0x61, 4⟩] :=
  ⟨Config.tiny_wellFormed, by decide⟩

/-- `BuildRaises`: each clause (L2-B13, L2-B14, L2-B15, L2-B17). -/
theorem witness_build_raises :
    tiny.cfg.nMax < ({ tiny with freqN := 5 } : State).freqN.toNat ∧ tiny.freqN = 0 ∧
    (let s := withFreq [(0x61, 1), (0x62, 2), (0x61, 3)] tiny
     s.freqN.toNat ≤ s.cfg.nMax ∧ FirstWith s.freqN.toNat (Repeats (s.freqTable.map (·.sym))) 2) ∧
    (let s := withFreq [(0x61, 0x80000000), (0x62, 0x80000000)] tiny
     s.freqN.toNat ≤ s.cfg.nMax ∧ DistinctSymbols s.freqTable ∧ 2 ^ 32 ≤ totalCount s.freqTable) := by
  refine ⟨by decide, by decide, ⟨by decide, by decide, ⟨0, by decide⟩, ?_⟩, by decide,
    by unfold DistinctSymbols; decide, by decide⟩
  rintro k hk ⟨i, hi, h⟩
  have : i = 0 ∧ k = 1 := by omega
  obtain ⟨rfl, rfl⟩ := this
  exact absurd h (by decide)

/-- `HuffmanCodesAreOptimal`: the other assignment of two one-bit strings. -/
theorem witness_optimal :
    buildable.cfg.WellFormed ∧ exec .build buildable = .next built ∧ built.status = 0 ∧
    exec .gen built = .next generated ∧ ([[true], [false]] : List (List Bool)).length = buildable.freqN.toNat ∧
    (∀ b ∈ ([[true], [false]] : List (List Bool)), b ≠ []) ∧
    ∀ i, i < 2 → ∀ j, j < 2 → i ≠ j →
      ¬ (([[true], [false]] : List (List Bool)).getD i []) <+: (([[true], [false]] : List (List Bool)).getD j []) :=
  ⟨Config.tiny_wellFormed, exec_buildable, by decide, exec_built, by decide, by decide, by decide⟩

/-- `GenAssignsPaths`, `GenTableIsWellFormed`. -/
theorem witness_gen :
    built.cfg.WellFormed ∧ TreeInv built ∧ built.nodeN ≠ 0 ∧ exec .gen built = .next generated ∧ generated.status = 0 ∧
    generated.codeN = 2 :=
  ⟨Config.tiny_wellFormed, built_inv.tree, by decide, exec_built, by decide, by decide⟩

/-- `GenSingleLeafCode`, and the last clause of `GenTableIsWellFormed`; `GenRaisesNoTree`. -/
theorem witness_gen_single :
    (∃ t, exec .build (withFreq [(0x61, 4)] tiny) = .next t ∧ t.cfg.WellFormed ∧ t.nodeN = 1) ∧ tiny.nodeN = 0 :=
  ⟨⟨_, rfl, Config.tiny_wellFormed, by decide⟩, by decide⟩

/-- `CodeTableChecksInOrder`: each condition as the first that fails, for `ENCODE` and for `DECODE`. -/
theorem witness_table_checks :
    (let s := withCodes [(0x61, 1, 0), (0x62, 4, 0)] tiny
     s.txtLen.toNat ≤ s.cfg.textMax ∧ s.bufLen.toNat ≤ s.cfg.bufMax ∧ s.codeN.toNat ≤ s.cfg.nMax ∧
       s.pad.toNat ≤ 8 * s.bufLen.toNat ∧ FirstWith s.codeN.toNat (BadLen s.cfg s.codeTable) 1) ∧
    (let s := withCodes [(0x61, 1, 2)] tiny
     (∀ k, ¬ BadLen s.cfg s.codeTable k) ∧ FirstWith s.codeN.toNat (BadBits s.codeTable) 0) ∧
    (let s := withCodes [(0x61, 1, 0), (0x61, 1, 1)] tiny
     (∀ k, ¬ BadLen s.cfg s.codeTable k) ∧ (∀ k, ¬ BadBits s.codeTable k) ∧
       FirstWith s.codeN.toNat (Repeats (s.codeTable.map (·.sym))) 1) ∧
    (let s := withCodes [(0x61, 1, 0), (0x62, 2, 1)] tiny
     (∀ k, ¬ BadLen s.cfg s.codeTable k) ∧ (∀ k, ¬ BadBits s.codeTable k) ∧ (s.codeTable.map (·.sym)).Nodup ∧
       FirstWith s.codeN.toNat (BadPrefix s.codeTable) 1) := by
  have notBad : ∀ t : List CodeEntry, badLength Config.tiny t = none → ∀ k, ¬ BadLen Config.tiny t k := by
    rintro t ht k ⟨e, he, h⟩
    have := badLength_eq_none.1 ht e (List.mem_of_getElem? he)
    omega
  have notBits : ∀ t : List CodeEntry, badBits t = none → ∀ k, ¬ BadBits t k := by
    rintro t ht k ⟨e, he, h⟩
    have := badBits_eq_none.1 ht e (List.mem_of_getElem? he)
    unfold Code.fits at this
    omega
  refine ⟨⟨by decide, by decide, by decide, by decide, by decide, ⟨⟨0x62, ⟨4, 0⟩⟩, by decide, by decide⟩, ?_⟩,
    ⟨notBad _ (by decide), by decide, ⟨⟨0x61, ⟨1, 2⟩⟩, by decide, by decide⟩, by omega⟩,
    ⟨notBad _ (by decide), notBits _ (by decide), by decide, ⟨0, by decide⟩, ?_⟩,
    ⟨notBad _ (by decide), notBits _ (by decide), by decide, by decide,
      ⟨0, ⟨0x61, ⟨1, 0⟩⟩, ⟨0x62, ⟨2, 1⟩⟩, by decide, by decide, by decide, by decide⟩, ?_⟩⟩
  · rintro k hk ⟨e, he, h⟩
    have : k = 0 := by omega
    subst this
    have : e = ⟨0x61, ⟨1, 0⟩⟩ := (Option.some.inj (he.symm.trans (by decide)))
    subst this
    exact absurd h (by decide)
  · rintro k hk ⟨i, hi, -⟩
    omega
  · rintro k hk ⟨i, d, e, hik, hd, he, h⟩
    have hk0 : k = 0 := by omega
    subst hk0
    have hl := (List.getElem?_eq_some_iff.1 hd).1
    have hi1 : i = 1 := by
      have : (withCodes [(0x61, 1, 0), (0x62, 2, 1)] tiny).codeTable.length = 2 := by decide
      omega
    subst hi1
    have h1 : d = ⟨0x62, ⟨2, 1⟩⟩ := (Option.some.inj (hd.symm.trans (by decide)))
    have h2 : e = ⟨0x61, ⟨1, 0⟩⟩ := (Option.some.inj (he.symm.trans (by decide)))
    subst h1; subst h2
    exact absurd h (by decide)

/-- `EncodePacksCodes`. -/
theorem witness_encode :
    encodable.cfg.WellFormed ∧ encodable.txtLen.toNat ≤ encodable.cfg.textMax ∧
    encodable.codeN.toNat ≤ encodable.cfg.nMax ∧ CodeWF encodable.cfg encodable.codeTable ∧
    Spells encodable.codeTable dcba encodable.text ∧ ((dcba.map (·.code.len)).sum + 7) / 8 ≤ encodable.cfg.bufMax :=
  ⟨Config.tiny_wellFormed, by decide, by decide, codeTableError_eq_none.1 (by decide), by unfold Spells; decide,
    by decide⟩

/-- Six times a symbol with a code of three bits (L2-E24). -/
def tooLong : State := withCodes [(0x61, 3, 0)] (withText (List.replicate 6 0x61) tiny)

/-- `EncodeRaisesLengthOrCapacity`: each clause. -/
theorem witness_encode_raises :
    tiny.cfg.textMax < ({ tiny with txtLen := 9 } : State).txtLen.toNat ∧
    (tiny.txtLen.toNat ≤ tiny.cfg.textMax ∧ tiny.cfg.nMax < ({ tiny with codeN := 5 } : State).codeN.toNat) ∧
    tooLong.txtLen.toNat ≤ tooLong.cfg.textMax ∧ tooLong.codeN.toNat ≤ tooLong.cfg.nMax ∧
    CodeWF tooLong.cfg tooLong.codeTable ∧ Spells tooLong.codeTable (List.replicate 6 ⟨0x61, ⟨3, 0⟩⟩) tooLong.text ∧
    tooLong.cfg.bufMax < (((List.replicate 6 (⟨0x61, ⟨3, 0⟩⟩ : CodeEntry)).map (·.code.len)).sum + 7) / 8 :=
  ⟨by decide, by decide, by decide, by decide, codeTableError_eq_none.1 (by decide), by unfold Spells; decide, by decide⟩

/-- "dax": the third symbol has no entry. -/
def unknown : State := withCodes skewWords (withText [0x64, 0x61, 0x78] tiny)

/-- `EncodeRaisesUnknownSymbol`. -/
theorem witness_unknown :
    unknown.txtLen.toNat ≤ unknown.cfg.textMax ∧ unknown.codeN.toNat ≤ unknown.cfg.nMax ∧
    CodeWF unknown.cfg unknown.codeTable ∧
    FirstWith unknown.txtLen.toNat (fun i => ∀ e ∈ unknown.codeTable, some e.sym ≠ unknown.text[i]?) 2 :=
  ⟨by decide, by decide, codeTableError_eq_none.1 (by decide), by unfold FirstWith; decide⟩

/-- `BitsParseUniquely`, `BoundedCandidateIsEnough`. -/
theorem witness_parse : CodeWF Config.tiny skew ∧ NoCodeLeads skew [true] ∧
    [false, true] = ([⟨0x64, ⟨1, 0⟩⟩] : List CodeEntry).flatMap (fun e => e.code.str) ++ [true] :=
  ⟨skew_wf, by unfold NoCodeLeads; decide, by decide⟩

/-- `DecodeRecoversSymbols` and `StrictDecodeRecoversOrRaises`: clean trailing bits. -/
theorem witness_decode_clean :
    decodable.cfg.WellFormed ∧ decodable.bufLen.toNat ≤ decodable.cfg.bufMax ∧
    decodable.codeN.toNat ≤ decodable.cfg.nMax ∧ decodable.pad.toNat ≤ 8 * decodable.bufLen.toNat ∧
    CodeWF decodable.cfg decodable.codeTable ∧ (∀ e ∈ dcba, e ∈ decodable.codeTable) ∧
    NoCodeLeads decodable.codeTable [] ∧
    decodable.bufferBits.take (8 * decodable.bufLen.toNat - decodable.pad.toNat) =
      dcba.flatMap (fun e => e.code.str) ++ [] ∧
    dcba.length ≤ decodable.cfg.textMax ∧
    (decodable.bufferBits.drop (dcba.map (·.code.len)).sum).length = 7 ∧
    ∀ b ∈ decodable.bufferBits.drop (dcba.map (·.code.len)).sum, b = false :=
  ⟨Config.tiny_wellFormed, by decide, by decide, by decide, codeTableError_eq_none.1 (by decide), by decide,
    by unfold NoCodeLeads; decide, by decide, by decide, by decide, by decide⟩

/-- The same statements: trailing bits that are not clean. -/
theorem witness_decode_corrupt :
    corrupt.cfg.WellFormed ∧ corrupt.bufLen.toNat ≤ corrupt.cfg.bufMax ∧ corrupt.codeN.toNat ≤ corrupt.cfg.nMax ∧
    corrupt.pad.toNat ≤ 8 * corrupt.bufLen.toNat ∧ CodeWF corrupt.cfg corrupt.codeTable ∧
    (∀ e ∈ dcba, e ∈ corrupt.codeTable) ∧ NoCodeLeads corrupt.codeTable [] ∧
    corrupt.bufferBits.take (8 * corrupt.bufLen.toNat - corrupt.pad.toNat) =
      dcba.flatMap (fun e => e.code.str) ++ [] ∧
    dcba.length ≤ corrupt.cfg.textMax ∧
    ∃ b ∈ corrupt.bufferBits.drop (dcba.map (·.code.len)).sum, b = true :=
  ⟨Config.tiny_wellFormed, by decide, by decide, by decide, codeTableError_eq_none.1 (by decide), by decide,
    by unfold NoCodeLeads; decide, by decide, by decide, by decide⟩

/-- `DecodeRaisesOperandErrors`: each clause. -/
theorem witness_decode_raises :
    tiny.cfg.bufMax < ({ tiny with bufLen := 3 } : State).bufLen.toNat ∧
    (tiny.bufLen.toNat ≤ tiny.cfg.bufMax ∧ tiny.cfg.nMax < ({ tiny with codeN := 5 } : State).codeN.toNat) ∧
    (tiny.codeN.toNat ≤ tiny.cfg.nMax ∧ tiny.bufLen = 0 ∧ ({ tiny with pad := 1 } : State).pad ≠ 0) := by decide

/-- Sixteen zero bits with the code "0" (L2-D25). -/
def overflowing : State := withCodes [(0x61, 1, 0)] (withBuf [0x00, 0x00] 0 tiny)

/-- `DecodeRaisesTextCapacity`. -/
theorem witness_text_capacity :
    overflowing.bufLen.toNat ≤ overflowing.cfg.bufMax ∧ overflowing.codeN.toNat ≤ overflowing.cfg.nMax ∧
    overflowing.pad.toNat ≤ 8 * overflowing.bufLen.toNat ∧ CodeWF overflowing.cfg overflowing.codeTable ∧
    (∀ e ∈ List.replicate 16 (⟨0x61, ⟨1, 0⟩⟩ : CodeEntry), e ∈ overflowing.codeTable) ∧
    NoCodeLeads overflowing.codeTable [] ∧
    overflowing.bufferBits.take (8 * overflowing.bufLen.toNat - overflowing.pad.toNat) =
      (List.replicate 16 (⟨0x61, ⟨1, 0⟩⟩ : CodeEntry)).flatMap (fun e => e.code.str) ++ [] ∧
    overflowing.cfg.textMax < (List.replicate 16 (⟨0x61, ⟨1, 0⟩⟩ : CodeEntry)).length :=
  ⟨by decide, by decide, by decide, codeTableError_eq_none.1 (by decide), by decide, by unfold NoCodeLeads; decide,
    by decide, by decide⟩

/-- `WarningMeansStrictFails`: a run that warns and one that does not. -/
theorem witness_warning :
    (∃ t, exec (.decode false) corrupt = .next t ∧ warnField t.status = true) ∧
    ∃ t, exec (.decode false) decodable = .next t ∧ warnField t.status = false :=
  ⟨⟨_, rfl, by decide⟩, _, rfl, by decide⟩

/-- `DecodeInvertsEncode`, with the state that `ENCODE` leaves. -/
theorem witness_round_trip :
    ∃ t, encodable.cfg.WellFormed ∧ exec .encode encodable = .next t ∧ t.status = 0 ∧ t.codeN = 4 :=
  ⟨_, Config.tiny_wellFormed, rfl, by decide, by decide⟩

/-- "aab" with the five commands of the pipeline waiting, `DECODE` in the mode asked for. -/
def pipeline (strict : Bool) : State :=
  { withText [0x61, 0x61, 0x62] tiny with
    pending := [.write 0 0x00000001, .write 0 0x00000002, .write 0 0x00000003, .write 0 0x00000004,
      .write 0 (if strict then 0x00000105 else 0x00000005)] }

/-- `PipelineRoundTrip`, both modes. -/
theorem witness_pipeline (strict : Bool) :
    Inv (pipeline strict) ∧ TextWritten (pipeline strict) ∧ (pipeline strict).txtLen ≠ 0 ∧
    (pipeline strict).txtLen.toNat ≤ (pipeline strict).cfg.textMax ∧
    (firstSeen (pipeline strict).text).length ≤ (pipeline strict).cfg.nMax ∧
    (pipeline strict).txtLen.toNat * (pipeline strict).cfg.codeMax ≤ 8 * (pipeline strict).cfg.bufMax := by
  refine ⟨inv_of_lists rfl ⟨rfl, rfl⟩ ⟨rfl, rfl⟩ (by unfold Memory.wf; cases strict <;> decide)
    (by cases strict <;> decide), ?_, ?_, ?_, ?_, ?_⟩ <;> cases strict <;> (try unfold TextWritten) <;> decide

/-- `CommandsReadOnlyTheirObjects`: two states that differ outside the objects. -/
theorem witness_same_objects :
    let s' : State := { encodable with stamp := 5, errinfo := 0, returned := [7] }
    Inv encodable ∧ Inv s' ∧ s'.cfg = encodable.cfg ∧ s'.txtLen = encodable.txtLen ∧ s'.text = encodable.text ∧
    s'.freqN = encodable.freqN ∧ s'.freqTable = encodable.freqTable ∧ s'.nodeN = encodable.nodeN ∧
    s'.arena = encodable.arena ∧ s'.codeN = encodable.codeN ∧ s'.codeTable = encodable.codeTable ∧
    s'.bufLen = encodable.bufLen ∧ s'.pad = encodable.pad ∧ s'.bufferBits = encodable.bufferBits :=
  ⟨encodable_inv, { encodable_inv with tree := encodable_inv.tree.congr rfl rfl rfl rfl }, by decide⟩

/-- `CodecIgnoresEntryOrder`: the table in reverse (L2-E18, L2-D18 on CFG-TINY). -/
theorem witness_entry_order :
    let s' := withCodes skewWords.reverse encodable
    let d' := withCodes skewWords.reverse decodable
    encodable.cfg.WellFormed ∧ s'.cfg = encodable.cfg ∧ s'.codeN = encodable.codeN ∧
    s'.codeTable.Perm encodable.codeTable ∧ s'.txtLen = encodable.txtLen ∧ s'.text = encodable.text ∧
    after (exec .encode encodable) (fun t => t.status) = some 0 ∧
    d'.codeTable.Perm decodable.codeTable ∧ d'.bufferBits = decodable.bufferBits ∧
    after (exec (.decode true) decodable) (fun t => errField t.status) = some 0 :=
  ⟨Config.tiny_wellFormed, by decide⟩

/-- `TableCommandsFrame`, `StreamCommandsFrame`: each command answers a next state on a legal configuration. -/
theorem witness_frames :
    buildable.cfg.WellFormed ∧ exec .build buildable = .next built ∧ exec .gen built = .next generated ∧
    (∃ t, exec .count encodable = .next t) ∧ (∃ t, exec .encode encodable = .next t) ∧
    ∃ t, exec (.decode true) decodable = .next t :=
  ⟨Config.tiny_wellFormed, exec_buildable, exec_built, ⟨_, rfl⟩, ⟨_, rfl⟩, _, rfl⟩

/-- `TraversalFindsSameCodes`, `TreeWalkRecoversSameSymbols`. -/
theorem witness_tree : ArenaTree built.arena 2 ∧ 2 ≤ 2 := ⟨built_tree, Nat.le_refl 2⟩

/-- `AccumulatorPacksSameBytes`. -/
theorem witness_accumulator : ∀ e ∈ dcba, e.code.bits < 2 ^ e.code.len := by decide

end Sys2Proof.Tests
end

section
/-! Families of bit strings in which none begins another, and the exchange argument: an assignment can be changed, at no cost, so that the
two least weights carry the two halves of one longest string (spec 41_build.md R137). -/

namespace Sys2Proof.Machine

/-- No string of the family begins the string of another index of `S` (R9). -/
def PrefixFreeOn (S : Finset Nat) (cs : Nat → List Bool) : Prop :=
  ∀ i ∈ S, ∀ j ∈ S, i ≠ j → ¬ cs i <+: cs j

/-- The sum over `S` of weight times string length. -/
def weightedLength (f : Nat → Nat) (cs : Nat → List Bool) (S : Finset Nat) : Nat :=
  ∑ k ∈ S, f k * (cs k).length

/-- The strings of `i` and `j` differ in their last bit only, and no string of `S` is longer. -/
def LongestSiblings (S : Finset Nat) (cs : Nat → List Bool) (i j : Nat) : Prop :=
  ∃ y b, cs i = y ++ [b] ∧ cs j = y ++ [!b] ∧ ∀ k ∈ S, (cs k).length ≤ y.length + 1

theorem PrefixFreeOn.mono {S T : Finset Nat} {cs : Nat → List Bool} (h : PrefixFreeOn T cs) (hST : S ⊆ T) :
    PrefixFreeOn S cs :=
  fun i hi j hj => h i (hST hi) j (hST hj)

theorem PrefixFreeOn.congr {S : Finset Nat} {cs ds : Nat → List Bool} (h : PrefixFreeOn S cs)
    (heq : ∀ k ∈ S, ds k = cs k) : PrefixFreeOn S ds := by
  intro i hi j hj hij
  rw [heq i hi, heq j hj]
  exact h i hi j hj hij

theorem PrefixFreeOn.cons {R : Finset Nat} {cs : Nat → List Bool} {p : Nat} (h : PrefixFreeOn R cs)
    (hp : ∀ k ∈ R, ¬ cs p <+: cs k ∧ ¬ cs k <+: cs p) : PrefixFreeOn (insert p R) cs := by
  intro i hi j hj hij
  rcases Finset.mem_insert.1 hi with rfl | hi' <;> rcases Finset.mem_insert.1 hj with rfl | hj'
  · exact absurd rfl hij
  · exact (hp j hj').1
  · exact (hp i hi').2
  · exact h i hi' j hj' hij

/-- Beside another string none is empty. -/
theorem PrefixFreeOn.ne_nil {S : Finset Nat} {cs : Nat → List Bool} (h : PrefixFreeOn S cs) {i j : Nat} (hi : i ∈ S)
    (hj : j ∈ S) (hij : i ≠ j) : cs i ≠ [] :=
  fun hnil => h i hi j hj hij (hnil ▸ List.nil_prefix)

theorem swap_mem {S : Finset Nat} {a i k : Nat} (ha : a ∈ S) (hi : i ∈ S) (hk : k ∈ S) : Equiv.swap a i k ∈ S := by
  rw [Equiv.swap_apply_def]
  split_ifs <;> assumption

theorem PrefixFreeOn.swap {S : Finset Nat} {cs : Nat → List Bool} (h : PrefixFreeOn S cs) {a i : Nat} (ha : a ∈ S)
    (hi : i ∈ S) : PrefixFreeOn S (cs ∘ Equiv.swap a i) :=
  fun _ hk _ hl hkl => h _ (swap_mem ha hi hk) _ (swap_mem ha hi hl) ((Equiv.injective _).ne hkl)

/-- A string no longer than `y ++ [b]` that extends `y` is one of the two extensions by a bit, or `y` itself. -/
theorem not_parent_prefix {y z : List Bool} {b : Bool} (hlen : z.length ≤ y.length + 1) (h1 : ¬ y ++ [b] <+: z)
    (h2 : ¬ z <+: y ++ [b]) (hsib : z ≠ y ++ [!b]) : ¬ y <+: z := by
  rintro ⟨r, rfl⟩
  match r with
  | [] => exact h2 (by simp)
  | [c] =>
    rcases Bool.eq_or_eq_not c b with rfl | rfl
    · exact h1 (List.prefix_refl _)
    · exact hsib rfl
  | c :: d :: r => simp at hlen

/-- A longest string may lose its last bit, at any index, when the string that differs in that bit is not there. -/
theorem PrefixFreeOn.parent {R : Finset Nat} {cs : Nat → List Bool} {i p : Nat} {y : List Bool} {b : Bool}
    (h : PrefixFreeOn (insert i R) cs) (hi : i ∉ R) (hp : p ∉ R) (hy : cs i = y ++ [b])
    (hmax : ∀ k ∈ R, (cs k).length ≤ y.length + 1) (hsib : ∀ k ∈ R, cs k ≠ y ++ [!b]) :
    PrefixFreeOn (insert p R) (Function.update cs p y) := by
  have hsame : ∀ k ∈ R, Function.update cs p y k = cs k := fun k hk =>
    Function.update_of_ne (by rintro rfl; exact hp hk) _ _
  refine ((h.mono (Finset.subset_insert i R)).congr hsame).cons fun k hk => ?_
  have hki : k ≠ i := by rintro rfl; exact hi hk
  have hk' : k ∈ insert i R := Finset.mem_insert_of_mem hk
  have hii := Finset.mem_insert_self i R
  have h1 := h i hii k hk' hki.symm
  have h2 := h k hk' i hii hki
  rw [hy] at h1 h2
  rw [hsame k hk, Function.update_self]
  exact ⟨not_parent_prefix (hmax k hk) h1 h2 (hsib k hk), fun hz => h2 (hz.trans (List.prefix_append y [b]))⟩

/-- Strings can be shortened until the longest has its sibling beside it. -/
theorem PrefixFreeOn.exists_siblings {S : Finset Nat} (h2 : 1 < S.card) {cs : Nat → List Bool}
    (h : PrefixFreeOn S cs) :
    ∃ ds, PrefixFreeOn S ds ∧ (∀ k, (ds k).length ≤ (cs k).length) ∧ ∃ i ∈ S, ∃ j ∈ S, LongestSiblings S ds i j := by
  induction hN : ∑ k ∈ S, (cs k).length using Nat.strong_induction_on generalizing cs with
  | _ N ih =>
    obtain ⟨i, hi, hmax⟩ := S.exists_max_image (fun k => (cs k).length) (Finset.card_pos.1 (by omega))
    obtain ⟨j, hj, hji⟩ := Finset.exists_mem_ne h2 i
    obtain ⟨y, b, hy⟩ : ∃ y b, cs i = y ++ [b] :=
      ⟨_, _, (List.dropLast_append_getLast (h.ne_nil hi hj hji.symm)).symm⟩
    have hlen : ∀ k ∈ S, (cs k).length ≤ y.length + 1 := fun k hk => by simpa [hy] using hmax k hk
    by_cases hsib : ∃ k ∈ S, cs k = y ++ [!b]
    · obtain ⟨k, hk, hky⟩ := hsib
      exact ⟨cs, h, fun _ => le_rfl, i, hi, k, hk, y, b, hy, hky, hlen⟩
    · have hfree : PrefixFreeOn S (Function.update cs i y) := by
        rw [← Finset.insert_erase hi] at h ⊢
        exact h.parent (Finset.notMem_erase i S) (Finset.notMem_erase i S) hy
          (fun k hk => hlen k (Finset.mem_of_mem_erase hk)) (fun k hk hc => hsib ⟨k, Finset.mem_of_mem_erase hk, hc⟩)
      have hle : ∀ k, (Function.update cs i y k).length ≤ (cs k).length := by
        intro k
        by_cases hk : k = i
        · subst hk; simp [hy]
        · rw [Function.update_of_ne hk]
      have hlt : ∑ k ∈ S, (Function.update cs i y k).length < N :=
        hN ▸ Finset.sum_lt_sum (fun k _ => hle k) ⟨i, hi, by simp [hy]⟩
      obtain ⟨ds, hd, hdl, hex⟩ := ih _ hlt hfree rfl
      exact ⟨ds, hd, fun k => (hdl k).trans (hle k), hex⟩

/-- Giving the shorter of two strings to the greater weight does not cost more. -/
theorem weightedLength_swap_le {S : Finset Nat} {f : Nat → Nat} {cs : Nat → List Bool} {a i : Nat} (ha : a ∈ S)
    (hi : i ∈ S) (hf : f a ≤ f i) (hl : (cs a).length ≤ (cs i).length) :
    weightedLength f (cs ∘ Equiv.swap a i) S ≤ weightedLength f cs S := by
  by_cases hai : a = i
  · subst hai; simp
  · have hi' : i ∈ S.erase a := Finset.mem_erase.2 ⟨Ne.symm hai, hi⟩
    have hrest : ∑ k ∈ (S.erase a).erase i, f k * ((cs ∘ Equiv.swap a i) k).length =
        ∑ k ∈ (S.erase a).erase i, f k * (cs k).length := by
      refine Finset.sum_congr rfl fun k hk => ?_
      simp only [Finset.mem_erase] at hk
      rw [Function.comp, Equiv.swap_apply_of_ne_of_ne hk.2.1 hk.1]
    unfold weightedLength
    rw [← Finset.add_sum_erase _ _ ha, ← Finset.add_sum_erase _ _ hi', hrest,
      ← Finset.add_sum_erase (a := a) S _ ha, ← Finset.add_sum_erase (a := i) (S.erase a) _ hi']
    simp only [Function.comp, Equiv.swap_apply_left, Equiv.swap_apply_right]
    nlinarith

theorem LongestSiblings.symm {S : Finset Nat} {cs : Nat → List Bool} {i j : Nat} (h : LongestSiblings S cs i j) :
    LongestSiblings S cs j i := by
  obtain ⟨y, b, hi, hj, hmax⟩ := h
  exact ⟨y, !b, hj, by simpa using hi, hmax⟩

theorem LongestSiblings.length_le {S : Finset Nat} {cs : Nat → List Bool} {i j k : Nat}
    (h : LongestSiblings S cs i j) (hk : k ∈ S) : (cs k).length ≤ (cs i).length := by
  obtain ⟨y, b, hi, -, hmax⟩ := h
  simpa [hi] using hmax k hk

theorem LongestSiblings.ne {S : Finset Nat} {cs : Nat → List Bool} {i j : Nat} (h : LongestSiblings S cs i j) :
    i ≠ j := by
  obtain ⟨y, b, hi, hj, -⟩ := h
  rintro rfl
  rw [hi] at hj
  simp at hj

/-- Exchanging `i` with `a` makes `a` one of the siblings. -/
theorem LongestSiblings.swap {S : Finset Nat} {cs : Nat → List Bool} {a i j : Nat} (h : LongestSiblings S cs i j)
    (ha : a ∈ S) (hi : i ∈ S) : LongestSiblings S (cs ∘ Equiv.swap a i) a (Equiv.swap a i j) := by
  obtain ⟨y, b, hyi, hyj, hmax⟩ := h
  exact ⟨y, b, by simpa using hyi, by simpa using hyj, fun k hk => hmax _ (swap_mem ha hi hk)⟩

/-- The exchange argument: at no cost the two least weights become siblings of greatest length. -/
theorem PrefixFreeOn.exists_least_siblings {S : Finset Nat} {f : Nat → Nat} {cs : Nat → List Bool}
    (h : PrefixFreeOn S cs) {a b : Nat} (ha : a ∈ S) (hb : b ∈ S) (hab : a ≠ b) (hfa : ∀ k ∈ S, f a ≤ f k)
    (hfb : ∀ k ∈ S, k ≠ a → f b ≤ f k) :
    ∃ ds, PrefixFreeOn S ds ∧ weightedLength f ds S ≤ weightedLength f cs S ∧ LongestSiblings S ds a b := by
  obtain ⟨ds, hd, hle, i, hi, j, hj, hs⟩ := h.exists_siblings (Finset.one_lt_card.2 ⟨a, ha, b, hb, hab⟩)
  have hcost : weightedLength f ds S ≤ weightedLength f cs S :=
    Finset.sum_le_sum fun k _ => Nat.mul_le_mul_left _ (hle k)
  have hs1 := hs.swap ha hi
  have hd1 := hd.swap ha hi
  have hcost1 := weightedLength_swap_le ha hi (hfa i hi) (hs.length_le ha)
  have hj1 := swap_mem ha hi hj
  generalize Equiv.swap a i j = j' at hs1 hj1
  generalize ds ∘ Equiv.swap a i = es at hs1 hd1 hcost1
  have hs2 := hs1.symm.swap hb hj1
  rw [Equiv.swap_apply_of_ne_of_ne hab hs1.ne] at hs2
  have hcost2 := weightedLength_swap_le hb hj1 (hfb j' hj1 hs1.ne.symm) (hs1.symm.length_le hb)
  exact ⟨_, hd1.swap hb hj1, hcost2.trans (hcost1.trans hcost), hs2.symm⟩

/-- Merging the two least weights `a` and `b` into one of weight `f p = f a + f b` saves at least `f p`. -/
theorem PrefixFreeOn.exists_merged {R : Finset Nat} {f : Nat → Nat} {cs : Nat → List Bool} {a b p : Nat}
    (h : PrefixFreeOn (insert a (insert b R)) cs) (hab : a ≠ b) (haR : a ∉ R) (hbR : b ∉ R) (hpR : p ∉ R)
    (hfa : ∀ k ∈ insert a (insert b R), f a ≤ f k) (hfb : ∀ k ∈ insert a (insert b R), k ≠ a → f b ≤ f k)
    (hfp : f p = f a + f b) :
    ∃ ds, PrefixFreeOn (insert p R) ds ∧
      f p + weightedLength f ds (insert p R) ≤ weightedLength f cs (insert a (insert b R)) := by
  obtain ⟨es, he, hcost, y, c, hya, hyb, hmax⟩ :=
    h.exists_least_siblings (Finset.mem_insert_self _ _) (by simp) hab hfa hfb
  have hin : ∀ k ∈ R, k ∈ insert a (insert b R) := fun k hk => by simp [hk]
  have hsib : ∀ k ∈ R, es k ≠ y ++ [!c] := by
    intro k hk hky
    have hkb : k ≠ b := by rintro rfl; exact hbR hk
    exact he k (hin k hk) b (by simp) hkb (by rw [hky, hyb])
  have hsub : insert a R ⊆ insert a (insert b R) := Finset.insert_subset_insert a (Finset.subset_insert b R)
  refine ⟨Function.update es p y,
    (he.mono hsub).parent haR hpR hya (fun k hk => hmax k (hin k hk)) hsib, le_trans (le_of_eq ?_) hcost⟩
  have hrest : ∑ k ∈ R, f k * (Function.update es p y k).length = ∑ k ∈ R, f k * (es k).length :=
    Finset.sum_congr rfl fun k hk => by rw [Function.update_of_ne (by rintro rfl; exact hpR hk)]
  unfold weightedLength
  rw [Finset.sum_insert hpR, hrest, Finset.sum_insert (by simp [hab, haR]), Finset.sum_insert hbR,
    Function.update_self, hya, hyb, hfp]
  simp only [List.length_append, List.length_singleton]
  ring

end Sys2Proof.Machine
end

section
/-! The cost of the tree that BUILD makes: the merges of the live nodes, read off the finished arena, give both the
weighted path length of the leaves and a lower bound for every assignment in which no string begins another (spec 41_build.md R133, R137). -/

namespace Sys2Proof.Machine

/-- The nodes live before merge `t` (R133), as a finite set. -/
noncomputable def liveSet (nd : List NodeEntry) (n t : Nat) : Finset Nat :=
  open scoped Classical in (Finset.range (n + t)).filter fun k => ∀ p, p < n + t → ¬ IsChild nd k p

theorem mem_liveSet {nd : List NodeEntry} {n t k : Nat} : k ∈ liveSet nd n t ↔ LiveBefore nd n t k := by
  simp [liveSet, LiveBefore]

/-- Merge `t` as a step on the live nodes: `a` and `b`, the two least, leave and their parent `n + t` joins (R133). -/
structure MergeStep (nd : List NodeEntry) (n t a b : Nat) (R : Finset Nat) : Prop where
  before : liveSet nd n t = insert a (insert b R)
  after : liveSet nd n (t + 1) = insert (n + t) R
  ne : a ≠ b
  left_notMem : a ∉ R
  right_notMem : b ∉ R
  parent_notMem : n + t ∉ R
  left_child : IsChild nd a (n + t)
  right_child : IsChild nd b (n + t)
  freq : freqAt nd (n + t) = freqAt nd a + freqAt nd b
  left_le : ∀ k ∈ insert a (insert b R), freqAt nd a ≤ freqAt nd k
  right_le : ∀ k ∈ insert a (insert b R), k ≠ a → freqAt nd b ≤ freqAt nd k

theorem lessAt.freqAt_le {nd : List NodeEntry} {a b : Nat} (h : lessAt nd a b) : freqAt nd a ≤ freqAt nd b := by
  rcases h with h | ⟨h, -⟩ <;> omega

namespace ArenaTree

variable {nd : List NodeEntry} {n : Nat}

/-- Before the first merge the leaves are live (R132). -/
theorem liveSet_zero (h : ArenaTree nd n) : liveSet nd n 0 = Finset.range n := by
  ext k
  rw [mem_liveSet, Finset.mem_range]
  refine ⟨fun hk => hk.1, fun hk => ⟨hk, fun p hp hc => ?_⟩⟩
  have := (h.parent_bounds hc).1
  omega

/-- After the last merge only the root is live (R134). -/
theorem eq_root_of_mem_liveSet (h : ArenaTree nd n) {k : Nat} (hk : k ∈ liveSet nd n (n - 1)) : k = 2 * n - 2 := by
  obtain ⟨hlt, hno⟩ := mem_liveSet.1 hk
  have := h.leaves_pos
  by_contra hne
  obtain ⟨p, hp, -⟩ := h.parent k (by omega)
  have := (h.parent_bounds hp).2.2
  exact hno p (by omega) hp

/-- A merge removes exactly the two children of the new node from the live nodes. -/
theorem liveSet_succ (h : ArenaTree nd n) {t k : Nat} :
    k ∈ liveSet nd n (t + 1) ↔ k = n + t ∨ (k ∈ liveSet nd n t ∧ ¬ IsChild nd k (n + t)) := by
  simp only [mem_liveSet, LiveBefore]
  constructor
  · rintro ⟨hk, hno⟩
    by_cases hkt : k = n + t
    · exact .inl hkt
    · exact .inr ⟨⟨by omega, fun p hp => hno p (by omega)⟩, hno _ (by omega)⟩
  · rintro (rfl | ⟨⟨hk, hno⟩, hc⟩)
    · refine ⟨by omega, fun p hp hpc => ?_⟩
      have := (h.parent_bounds hpc).2.1
      omega
    · refine ⟨by omega, fun p hp => ?_⟩
      by_cases hpt : p = n + t
      · exact hpt ▸ hc
      · exact hno p (by omega)

/-- The children of an internal node are its two links. -/
theorem isChild_iff (h : ArenaTree nd n) {p k : Nat} {e : NodeEntry} (he : nd[p]? = some e) (hp : n ≤ p) :
    IsChild nd k p ↔ e.left.toNat = k ∨ e.right.toNat = k := by
  constructor
  · rintro ⟨e', he', -, hk⟩
    rw [he] at he'
    cases he'
    exact hk
  · exact fun hk => ⟨e, he, (h.inner p e he hp).1, hk⟩

/-- Every merge of the finished arena is a step on the live nodes. -/
theorem exists_mergeStep (h : ArenaTree nd n) (hm : MergedLeast nd n) {t : Nat} (ht : t < n - 1) :
    ∃ a b R, MergeStep nd n t a b R := by
  have hsz := h.size
  have he := List.getElem?_eq_getElem (l := nd) (i := n + t) (by omega)
  generalize nd[n + t]'(by omega) = e at he
  obtain ⟨hl, hr, hne, hleast⟩ := hm t e he
  obtain ⟨-, -, -, -, -, hfreq⟩ := h.inner _ e he (by omega)
  have hchild := fun k => h.isChild_iff (k := k) he (by omega)
  rw [← mem_liveSet] at hl hr
  have hr' : e.right.toNat ∈ (liveSet nd n t).erase e.left.toNat := Finset.mem_erase.2 ⟨hne.symm, hr⟩
  have hbefore : liveSet nd n t =
      insert e.left.toNat (insert e.right.toNat (((liveSet nd n t).erase e.left.toNat).erase e.right.toNat)) := by
    rw [Finset.insert_erase hr', Finset.insert_erase hl]
  refine ⟨e.left.toNat, e.right.toNat, ((liveSet nd n t).erase e.left.toNat).erase e.right.toNat, hbefore, ?_, hne,
    by simp, by simp, ?_, (hchild _).2 (.inl rfl), (hchild _).2 (.inr rfl), ?_, ?_, ?_⟩
  · ext k
    simp only [h.liveSet_succ, hchild, Finset.mem_insert, Finset.mem_erase, not_or, eq_comm (a := k)]
    tauto
  · intro hmem
    have := (mem_liveSet.1 (Finset.mem_of_mem_erase (Finset.mem_of_mem_erase hmem))).1
    omega
  · simpa [freqAt, he] using hfreq
  · intro k hk
    rw [← hbefore, mem_liveSet] at hk
    rcases hleast k hk with rfl | ⟨hlt, -⟩
    · exact le_rfl
    · exact hlt.freqAt_le
  · intro k hk hka
    rw [← hbefore, mem_liveSet] at hk
    rcases (hleast k hk).resolve_left hka with ⟨-, rfl | hlt⟩
    · exact le_rfl
    · exact hlt.freqAt_le

/-! ## The weighted path length of the leaves -/

/-- The path of a child is its parent's and one bit (R161). -/
theorem length_path_child (h : ArenaTree nd n) {k p : Nat} (hc : IsChild nd k p) :
    (pathBits nd (2 * n - 2) nd.length k).length = (pathBits nd (2 * n - 2) nd.length p).length + 1 := by
  obtain ⟨h1, h2, h3⟩ := h.parent_bounds hc
  have hsz := h.size
  obtain ⟨e, he, -⟩ := id hc
  obtain ⟨b, hb⟩ := childSide_isSome he hc
  have hd : descend nd (2 * n - 2) (pathBits nd (2 * n - 2) nd.length p ++ [b]) = some k := by
    rw [descend_append, h.descend_path h3 (by omega)]
    exact descend_child he hb (by omega)
  rw [h.path_unique hd (by omega)]
  simp

theorem path_root (h : ArenaTree nd n) : pathBits nd (2 * n - 2) nd.length (2 * n - 2) = [] := by
  have := h.root_lt
  exact h.path_unique (bs := []) (by simp [descend, this]) (by omega)

/-- The weighted path length of the live nodes is the frequency of the internal nodes still to be made. -/
theorem weightedLength_path (h : ArenaTree nd n) (hm : MergedLeast nd n) {m t : Nat} (hmt : t + m = n - 1) :
    weightedLength (freqAt nd) (pathBits nd (2 * n - 2) nd.length) (liveSet nd n t) =
      ∑ p ∈ Finset.Ico (n + t) (n + t + m), freqAt nd p := by
  induction m generalizing t with
  | zero =>
    obtain rfl : t = n - 1 := by omega
    have hz : ∀ k ∈ liveSet nd n (n - 1),
        freqAt nd k * (pathBits nd (2 * n - 2) nd.length k).length = 0 := fun k hk => by
      rw [h.eq_root_of_mem_liveSet hk, h.path_root]; simp
    simpa [weightedLength] using hz
  | succ m ih =>
    obtain ⟨a, b, R, hs⟩ := h.exists_mergeStep hm (t := t) (by omega)
    have hih := ih (t := t + 1) (by omega)
    rw [hs.after, weightedLength, Finset.sum_insert hs.parent_notMem] at hih
    rw [Finset.sum_eq_sum_Ico_succ_bot (by omega), hs.before, weightedLength,
      Finset.sum_insert (by simp [hs.ne, hs.left_notMem]), Finset.sum_insert hs.right_notMem,
      h.length_path_child hs.left_child, h.length_path_child hs.right_child,
      show n + t + (m + 1) = n + (t + 1) + m by omega, Nat.add_assoc n t 1, ← hih, hs.freq]
    ring

/-! ## The lower bound -/

/-- No assignment to the live nodes in which no string begins another costs less than the internal nodes still to be made. -/
theorem sum_inner_le (h : ArenaTree nd n) (hm : MergedLeast nd n) {m t : Nat} (hmt : t + m = n - 1)
    {cs : Nat → List Bool} (hcs : PrefixFreeOn (liveSet nd n t) cs) :
    ∑ p ∈ Finset.Ico (n + t) (n + t + m), freqAt nd p ≤ weightedLength (freqAt nd) cs (liveSet nd n t) := by
  induction m generalizing t cs with
  | zero => simp
  | succ m ih =>
    obtain ⟨a, b, R, hs⟩ := h.exists_mergeStep hm (t := t) (by omega)
    rw [hs.before] at hcs ⊢
    obtain ⟨ds, hd, hcost⟩ := hcs.exists_merged hs.ne hs.left_notMem hs.right_notMem hs.parent_notMem hs.left_le
      hs.right_le hs.freq
    rw [← hs.after] at hd hcost
    have hih := ih (t := t + 1) (by omega) hd
    rw [Finset.sum_eq_sum_Ico_succ_bot (by omega), show n + t + (m + 1) = n + (t + 1) + m by omega,
      Nat.add_assoc n t 1]
    omega

/-- Weak optimality on the arena: no such assignment to the leaves is cheaper than their paths (R137). -/
theorem weightedLength_path_le (h : ArenaTree nd n) (hm : MergedLeast nd n) {cs : Nat → List Bool}
    (hcs : PrefixFreeOn (Finset.range n) cs) :
    weightedLength (freqAt nd) (pathBits nd (2 * n - 2) nd.length) (Finset.range n) ≤
      weightedLength (freqAt nd) cs (Finset.range n) := by
  rw [← h.liveSet_zero] at hcs ⊢
  rw [h.weightedLength_path hm (m := n - 1) (by omega)]
  exact h.sum_inner_le hm (by omega) hcs

/-- The same for the codes of GEN, the code "0" of a single leaf included (R162). -/
theorem weightedLength_leafCode_le (h : ArenaTree nd n) (hm : MergedLeast nd n) {cs : Nat → List Bool}
    (hcs : PrefixFreeOn (Finset.range n) cs) (hne : ∀ k, k < n → cs k ≠ []) :
    weightedLength (freqAt nd) (fun i => (leafCode nd (2 * n - 2) n i).str) (Finset.range n) ≤
      weightedLength (freqAt nd) cs (Finset.range n) := by
  by_cases hn : n = 1
  · refine Finset.sum_le_sum fun k hk => Nat.mul_le_mul_left _ ?_
    have := List.length_pos_iff.2 (hne k (Finset.mem_range.1 hk))
    simpa [leafCode, hn, Nat.succ_le_iff] using this
  · simp only [str_leafCode hn]
    exact h.weightedLength_path_le hm hcs

end ArenaTree

/-! ## Weak optimality of BUILD and GEN -/

/-- A sum over two lists side by side, index by index. -/
theorem sum_map_zip {α β : Type} (g : α × β → Nat) (G : Nat → Nat) {n : Nat} {xs : List α} {ys : List β}
    (hx : xs.length = n) (hy : ys.length = n)
    (h : ∀ i x y, xs[i]? = some x → ys[i]? = some y → g (x, y) = G i) :
    ((xs.zip ys).map g).sum = ∑ i ∈ Finset.range n, G i := by
  rw [Finset.sum_range, ← List.sum_ofFn]
  congr 1
  apply List.ext_getElem
  · simp [hx, hy]
  · intro i h1 h2
    simp only [List.length_map, List.length_zip, hx, hy, min_self] at h1
    simp only [List.getElem_map, List.getElem_zip, List.getElem_ofFn]
    exact h i _ _ (List.getElem?_eq_getElem _) (List.getElem?_eq_getElem _)

/-- A successful BUILD leaves a tree of R34, whatever the state held before. -/
theorem buildTree_treeInv {s t : State} (hc : s.cfg.WellFormed) (h : buildTree s = .ok t) : TreeInv t := by
  obtain ⟨-, htree, -, hlen, hN, hroot, -, -, -⟩ := buildTree_result hc h
  obtain ⟨hle, h0, -, -, ht⟩ := buildTree_eq_ok.1 h
  have hcfg : t.cfg = s.cfg := by simp [ht]
  have hcount : leafCount t.nodeN.toNat = s.freqN.toNat := by rw [hN]; unfold leafCount; omega
  refine ⟨fun hz => ?_, fun _ => ?_, fun _ => ?_, fun k hk => ?_, fun _ => ?_⟩
  · rw [hz] at hN; simp at hN; omega
  · rw [hcount, hcfg]; exact hle
  · rw [hcount]; exact hroot
  · have hnd : (buildNodes s.freqTable).1.length = t.nodeN.toNat := by
      rw [← length_arena, (buildTree_result hc h).1]
    subst ht
    simp only [State.succeed_fields, State.commitTree_fields, Memory.read?_writeFrom] at hk ⊢
    simp only [State.succeed_fields, State.commitTree_fields] at hnd
    rw [if_pos (by omega)]
    simp; omega
  · rw [hcount]; exact htree

/-- The leaves of the arena that BUILD commits carry the counts of the table (R132). -/
theorem freqAt_build {s t : State} (hc : s.cfg.WellFormed) (h : buildTree s = .ok t) {i : Nat} {e : FreqEntry}
    (he : s.freqTable[i]? = some e) : freqAt t.arena i = e.count := by
  obtain ⟨-, -, -, -, -, -, ⟨ext, hext⟩, -, -⟩ := buildTree_result hc h
  obtain ⟨-, -, -, hs, -⟩ := buildTree_eq_ok.1 h
  have hi := (List.getElem?_eq_some_iff.1 he).1
  have hleaf := freqAt_leaves (count_lt_of_total hs) i
  rw [he] at hleaf
  rw [hext]
  simpa [freqAt, List.getElem?_append_left, hi] using hleaf

/-- GEN succeeds wherever there is a tree (R160). -/
theorem generateCodes_of_exec {s t : State} (h0 : s.nodeN.toNat ≠ 0) (h : exec .gen s = .next t) :
    generateCodes s = .ok t := by
  have hok := generateCodes_eq_ok (s := s).2 ⟨h0, rfl⟩
  rwa [Host.Outcome.next.inj ((State.conclude_ok hok).symm.trans h)] at hok

/-- Settles O34: both costs are sums over the leaves of the arena, and there the paths are the
cheapest assignment. -/
theorem huffmanCodesAreOptimal : Obligations.HuffmanCodesAreOptimal := by
  intro s t u hc hb hst hg cs hlen hne hpf
  have hbt : buildTree s = .ok t := outcome_eq_ok hb (by rw [hst]; decide)
  obtain ⟨-, htree, hml, -, hN, hroot, -, -, -⟩ := buildTree_result hc hbt
  obtain ⟨-, h0, -, -, ht⟩ := buildTree_eq_ok.1 hbt
  have hcfg : t.cfg = s.cfg := by simp [ht]
  obtain ⟨htab, -⟩ := generateCodes_result (hcfg ▸ hc) (buildTree_treeInv hc hbt) (generateCodes_of_exec (by omega) hg)
  rw [hroot] at htab
  have hF := length_freqTable s
  have hcs : ∀ i b, cs[i]? = some b → cs.getD i [] = b := fun i b hi => by simp [hi]
  rw [sum_map_zip _ (fun i => freqAt t.arena i * (leafCode t.arena (2 * s.freqN.toNat - 2) s.freqN.toNat i).str.length)
      hF (htab ▸ length_genTable htree _),
    sum_map_zip _ (fun i => freqAt t.arena i * (cs.getD i []).length) hF hlen]
  · refine htree.weightedLength_leafCode_le hml (cs := fun i => cs.getD i []) ?_ ?_
    · intro i hi j hj hij
      rw [Finset.mem_range, ← hlen] at hi hj
      simpa [hi, hj] using hpf i j _ _ (List.getElem?_eq_getElem hi) (List.getElem?_eq_getElem hj) hij
    · intro k hk
      rw [← hlen] at hk
      simpa [hk] using hne _ (List.getElem_mem hk)
  · intro i x y hx hy
    rw [freqAt_build hc hbt hx, hcs i y hy]
  · intro i x y hx hy
    have hi : i < s.freqN.toNat := hF ▸ (List.getElem?_eq_some_iff.1 hx).1
    obtain ⟨e, -, hgen⟩ := getElem?_genTable htree (2 * s.freqN.toNat - 2) hi
    rw [htab, hgen] at hy
    cases hy
    rw [freqAt_build hc hbt hx, Code.length_str]

end Sys2Proof.Machine
end

section
/-! The round trip of SHIFR §8 as a run of the machine: what COUNT, BUILD, GEN, ENCODE and DECODE hand to one another,
each in a transaction of its own (spec 44_decode.md R209, 70_reset_and_hazards.md R274). -/

namespace Sys2Proof.Machine

/-! ## Objects that a later transaction reads as before (R46) -/

/-- The arena of the invariant reads the same in every transaction. -/
theorem TreeInv.arena_eq {s t : State} (h : TreeInv s) (h1 : t.node = s.node) (h2 : t.nodeN = s.nodeN) :
    t.arena = s.arena := by
  unfold State.arena
  rw [h2]
  refine List.map_congr_left fun k hk => ?_
  obtain ⟨e, he⟩ := Option.isSome_iff_exists.1 (h.written k (List.mem_range.1 hk))
  simp [State.nodeEntry, h1, he]

theorem TreeInv.arena_accept {s : State} (h : TreeInv s) (r : List Transaction) : (s.accept r).arena = s.arena :=
  h.arena_eq rfl rfl

/-- A written code table reads the same in every transaction. -/
theorem CodesWritten.codeTable_eq {s t : State} (h : CodesWritten s) (h1 : t.code = s.code) (h2 : t.codeN = s.codeN)
    (h3 : t.cfg = s.cfg) : t.codeTable = s.codeTable := by
  have hcell : ∀ i j, i < s.codeN.toNat → j < 2 + s.cfg.cw → t.codeCell i j = s.codeCell i j := by
    intro i j hi hj
    obtain ⟨v, hv⟩ := Option.isSome_iff_exists.1 (h i j hi hj)
    simp [State.codeCell, State.cell, h1, h3, hv]
  unfold State.codeTable
  rw [h2]
  refine List.map_congr_left fun i hi => ?_
  have hi := List.mem_range.1 hi
  have hbits : (List.range s.cfg.cw).map (fun w => t.codeCell i (2 + w)) =
      (List.range s.cfg.cw).map (fun w => s.codeCell i (2 + w)) :=
    List.map_congr_left fun w hw => hcell i _ hi (by have := List.mem_range.1 hw; omega)
  simp only [State.codeEntry, hcell i 0 hi (by omega), hcell i 1 hi (by omega), h3, hbits]

/-- GEN writes every cell of the table it commits (R160). -/
theorem codesWritten_commitCodes (s : State) {t : List CodeEntry} (h : t.length < 2 ^ 32) :
    CodesWritten (s.commitCodes t) := by
  intro i j hi hj
  simp only [State.commitCodes_fields, toNat_ofNat_of_lt h] at hi hj ⊢
  have := s.cfg.words_le_cstride
  rw [read?_writeCodes _ _ _ _ _ _ (by omega), if_pos (by omega)]
  simp [hi, hj]

/-! ## One stage after another -/

/-- What the pipeline carries unchanged through its table commands and ENCODE: the text, the configuration and the
waiting transactions; and the invariant holds. -/
structure Carries (s t : State) : Prop where
  inv : Inv t
  cfg : t.cfg = s.cfg
  txt : t.txt = s.txt
  txtLen : t.txtLen = s.txtLen
  pending : t.pending = s.pending

/-- COUNT leaves the table of the text for the next transaction (R110 to R112). -/
theorem exec_count_carries {s : State} (h : Inv s) (hlen : s.txtLen.toNat ≤ s.cfg.textMax)
    (hfs : (firstSeen s.text).length ≤ s.cfg.nMax) :
    ∃ t, exec .count s = .next t ∧ Carries s t ∧ ∀ r, (t.accept r).freqTable = countTable s.text := by
  have hok := countFrequencies_eq_ok.2 ⟨hlen, hfs, rfl⟩
  refine ⟨_, State.conclude_ok hok, ⟨h.commit (i := .count) hok, rfl, rfl, rfl, rfl⟩, fun r => ?_⟩
  obtain ⟨h1, h2⟩ := countTable_fits h.cfg (xs := s.text) (by rw [length_text]; exact hlen) hfs
  exact State.freqTable_commitFreq (s.accept r) h1 h2

/-- BUILD leaves a tree over the symbols of the table for the next transaction (R132, R136). -/
theorem exec_build_carries {s : State} {xs : List Word} (h : Inv s) (hF : s.freqTable = countTable xs) (h0 : xs ≠ [])
    (hfs : (firstSeen xs).length ≤ s.cfg.nMax) (hlen : xs.length < 2 ^ 32) :
    ∃ t, exec .build s = .next t ∧ Carries s t ∧ t.nodeN ≠ 0 ∧
      ∀ r, (((t.accept r).arena.take (leafCount t.nodeN.toNat)).map (·.sym)) = firstSeen xs := by
  have hN : s.freqN.toNat = (firstSeen xs).length := by rw [← length_freqTable, hF, length_countTable]
  have hpos : (firstSeen xs).length ≠ 0 := by
    obtain ⟨x, xs, rfl⟩ := List.exists_cons_of_ne_nil h0
    simp [firstSeen]
  have hdist : DistinctSymbols s.freqTable := by
    unfold DistinctSymbols
    rw [hF, countTable_syms]
    exact nodup_firstSeen xs
  have htotal : totalCount s.freqTable < 2 ^ 32 := by
    unfold totalCount
    rwa [hF, countTable_total]
  have hok := (buildTree_eq_ok (s := s)).2 ⟨by omega, by omega, hdist, htotal, rfl⟩
  have hinv := h.commit (i := .build) hok
  obtain ⟨-, -, -, -, hnode, -, ⟨ext, hext⟩, -, -⟩ := buildTree_result h.cfg hok
  have hcount : leafCount (2 * s.freqN.toNat - 1) = s.freqTable.length := by
    rw [length_freqTable]; unfold leafCount; omega
  refine ⟨_, State.conclude_ok hok, ⟨hinv, rfl, rfl, rfl, rfl⟩, fun hz => ?_, fun r => ?_⟩
  · rw [hz] at hnode; simp at hnode; omega
  · rw [hinv.tree.arena_accept, hnode, hcount, hext, List.take_append_of_le_length (by simp),
      List.take_of_length_le (by simp), leaves, List.map_map, ← countTable_syms xs, ← hF]
    rfl

/-- The symbols of the table that GEN makes are those of the leaves, in order (R166). -/
theorem genTable_syms {nd : List NodeEntry} {n : Nat} (h : ArenaTree nd n) (root : Nat) :
    (genTable nd root).map (·.sym) = (nd.take n).map (·.sym) := by
  have hsz := h.size
  have hpos := h.leaves_pos
  refine List.ext_getElem (by simp [length_genTable h]; omega) fun i h1 h2 => ?_
  simp only [List.length_map, length_genTable h] at h1
  obtain ⟨e, he, hg⟩ := getElem?_genTable h root h1
  obtain ⟨_, he⟩ := List.getElem?_eq_some_iff.1 he
  obtain ⟨_, hg⟩ := List.getElem?_eq_some_iff.1 hg
  simp [he, hg]

/-- GEN leaves a well-formed table over the leaves' symbols, every cell of it written (R160, R165). -/
theorem exec_gen_carries {s : State} (h : Inv s) (h0 : s.nodeN ≠ 0) :
    ∃ t, exec .gen s = .next t ∧ Carries s t ∧ CodeWF t.cfg t.codeTable ∧ t.codeN.toNat ≤ t.cfg.nMax ∧
      CodesWritten t ∧ t.codeTable.map (·.sym) = ((s.arena.take (leafCount s.nodeN.toNat)).map (·.sym)) := by
  have hN : s.nodeN.toNat ≠ 0 := fun hz => h0 (BitVec.eq_of_toNat_eq (by simpa using hz))
  have hok := (generateCodes_eq_ok (s := s)).2 ⟨hN, rfl⟩
  obtain ⟨htab, hwf, -, hle, -, -, -⟩ := generateCodes_result h.cfg h.tree hok
  obtain ⟨htree, hcap, -⟩ := h.tree.arenaTree h0
  have hmax := h.cfg.nMax_le
  have hshort : (genTable s.arena s.root.toNat).length < 2 ^ 32 := by rw [length_genTable htree]; omega
  refine ⟨_, State.conclude_ok hok, ⟨h.commit (i := .gen) hok, rfl, rfl, rfl, rfl⟩, hwf, hle,
    codesWritten_commitCodes s hshort, ?_⟩
  rw [htab, genTable_syms htree]

/-- A text over the symbols of a table is spelled by entries of it (R181). -/
theorem exists_spells {t : List CodeEntry} {xs : List Word} (h : ∀ x ∈ xs, x ∈ t.map (·.sym)) :
    ∃ es, Spells t es xs := by
  induction xs with
  | nil => exact ⟨[], by simp [Spells]⟩
  | cons x xs ih =>
    obtain ⟨es, hmem, hsym⟩ := ih fun y hy => h y (List.mem_cons_of_mem _ hy)
    obtain ⟨e, he, rfl⟩ := List.mem_map.1 (h x List.mem_cons_self)
    exact ⟨e :: es, List.forall_mem_cons.2 ⟨he, hmem⟩, by rw [List.map_cons, hsym]⟩

/-- The stream of a text is at most `CODE_MAX` bits a symbol (R32 (2)). -/
theorem CodeWF.length_streamOf_le {c : Config} {t es : List CodeEntry} (hw : CodeWF c t) (hes : ∀ e ∈ es, e ∈ t) :
    (streamOf es).length ≤ es.length * c.codeMax := by
  rw [length_streamOf]
  have := List.sum_le_card_nsmul (es.map (·.code.len)) c.codeMax
    (by simpa using fun e he => (hw.lengths e (hes e he)).2)
  simpa using this

/-- ENCODE leaves the stream of the text and its pad bits for the next transaction (R183, R184). -/
theorem exec_encode_carries {s : State} {es : List CodeEntry} (h : Inv s) (hlen : s.txtLen.toNat ≤ s.cfg.textMax)
    (hN : s.codeN.toNat ≤ s.cfg.nMax) (hw : CodeWF s.cfg s.codeTable) (hsp : Spells s.codeTable es s.text)
    (hcap : bytesFor (streamOf es).length ≤ s.cfg.bufMax) :
    ∃ t, exec .encode s = .next t ∧ Carries s t ∧ t.code = s.code ∧ t.codeN = s.codeN ∧
      t.bufLen.toNat = bytesFor (streamOf es).length ∧ t.pad.toNat = padFor (streamOf es).length ∧
      ∀ r, (t.accept r).bufferBits = padded (streamOf es) := by
  have hok := encodeText_eq_ok.2 ⟨hlen, hN, hw, es, hsp, hcap, rfl⟩
  obtain ⟨-, hbl, hpad⟩ := commitBuffer_result h.cfg hcap
  exact ⟨_, State.conclude_ok hok, ⟨h.commit (i := .encode) hok, rfl, rfl, rfl, rfl⟩, rfl, rfl, hbl, hpad,
    fun r => State.bufferBits_commitBuffer (s.accept r) (bytesFor_lt h.cfg hcap)⟩

/-- DECODE, in both modes, gives back the symbols of a padded stream (R209). -/
theorem exec_decode_stream {s : State} {es : List CodeEntry} (strict : Bool) (hc : s.cfg.WellFormed)
    (hB : s.bufLen.toNat ≤ s.cfg.bufMax) (hN : s.codeN.toNat ≤ s.cfg.nMax) (hw : CodeWF s.cfg s.codeTable)
    (hes : ∀ e ∈ es, e ∈ s.codeTable) (hlen : es.length ≤ s.cfg.textMax)
    (hbl : s.bufLen.toNat = bytesFor (streamOf es).length) (hpad : s.pad.toNat = padFor (streamOf es).length)
    (hbits : s.bufferBits = padded (streamOf es)) :
    ∃ t, exec (.decode strict) s = .next t ∧ t.pending = s.pending ∧ t.status = 0 ∧ t.errinfo = 0 ∧
      t.text = es.map (·.sym) ∧ t.txtLen.toNat = es.length := by
  have hfill := padFor_add (streamOf es).length
  have hcode : s.codeBits = streamOf es ++ [] := by
    rw [State.codeBits, hbits, hbl, hpad, ← hfill, Nat.add_sub_cancel, padded, List.take_left, List.append_nil]
  have hnone : NoCodeLeads s.codeTable [] := fun e he hp => by
    have := (hw.lengths e he).1
    have := hp.length_le
    simp at this
    omega
  have hclean : cleanTail (s.bufferBits.drop (streamOf es).length) = true := by
    have := padFor_lt (streamOf es).length
    rw [hbits, padded, List.drop_left, cleanTail_iff]
    exact ⟨by simpa using Nat.le_of_lt_succ this, fun b hb => List.eq_of_mem_replicate hb⟩
  have hok : decodeBuffer strict s = .ok (s.commitText (es.map (·.sym))).succeed := by
    rw [decodeBuffer_eq strict hB hN (by omega) hw hes hnone hcode, if_pos hlen, finishDecode_clean hclean]
  obtain ⟨htext, hlen'⟩ := State.text_decode hc (out := es.map (·.sym)) (by simpa using hlen)
  exact ⟨_, State.conclude_ok hok, rfl, statusOk_eq, rfl, htext, by simpa using hlen'⟩

/-! ## The run -/

/-- A step that makes a command write runs the command (R23, R233). -/
theorem run_command {s t : State} {w : Word} {i : Instr} {rest : List Transaction} (k : Nat)
    (hp : s.pending = .write 0 w :: rest) (hd : decode w = .ok i) (he : exec i (s.accept rest) = .next t) :
    run (k + 1) s = run k t := by
  simp only [run, step_command hp, State.runCommand_of_decode hd, he]

/-- Settles O50: each stage hands its object to the next transaction, and DECODE gives back the symbols that the entries
of the text carry. -/
theorem pipelineRoundTrip : Obligations.PipelineRoundTrip := by
  intro s strict hinv hw h0 hlen hfs hcap hp
  have htl := length_text s
  have hne : s.text ≠ [] := by
    intro hnil
    rw [hnil] at htl
    exact h0 (BitVec.eq_of_toNat_eq (by simpa using htl.symm))
  have hshort := hinv.cfg.text_fits
  -- COUNT
  have htext0 : ∀ r, (s.accept r).text = s.text := fun r => hw.text_eq rfl rfl
  obtain ⟨t1, he1, c1, hF⟩ := exec_count_carries (hinv.accept _) hlen ((htext0 _).symm ▸ hfs)
  have hr1 := run_command 4 hp rfl he1
  simp only [htext0] at hF
  -- BUILD
  have hcfg1 : t1.cfg = s.cfg := c1.cfg
  obtain ⟨t2, he2, c2, hn2, hsyms2⟩ := exec_build_carries (c1.inv.accept _) (hF _) hne (hcfg1.symm ▸ hfs) (by omega)
  have hr2 := run_command 3 c1.pending rfl he2
  -- GEN
  obtain ⟨t3, he3, c3, hwf3, hN3, hw3, hsyms3⟩ := exec_gen_carries (c2.inv.accept _) hn2
  have hr3 := run_command 2 c2.pending rfl he3
  -- ENCODE
  have htab3 : ∀ r, (t3.accept r).codeTable = t3.codeTable := fun r => hw3.codeTable_eq rfl rfl rfl
  have hcfg3 : t3.cfg = s.cfg := c3.cfg.trans (c2.cfg.trans hcfg1)
  have htl3 : t3.txtLen = s.txtLen := c3.txtLen.trans (c2.txtLen.trans c1.txtLen)
  have htext3 : ∀ r, (t3.accept r).text = s.text := fun r => hw.text_eq (c3.txt.trans (c2.txt.trans c1.txt)) htl3
  obtain ⟨es, hsp⟩ : ∃ es, Spells t3.codeTable es s.text := exists_spells fun x hx => by
    rw [hsyms3]
    exact hsyms2 _ ▸ mem_firstSeen.2 hx
  have heslen : es.length = s.txtLen.toNat := by rw [← htl, ← hsp.2, List.length_map]
  have hbits : (streamOf es).length ≤ 8 * t3.cfg.bufMax :=
    (hwf3.length_streamOf_le hsp.1).trans (by rw [heslen, hcfg3]; exact hcap)
  have hbytes : bytesFor (streamOf es).length ≤ t3.cfg.bufMax := by unfold bytesFor; omega
  obtain ⟨t4, he4, c4, hcode4, hcN4, hbl4, hpad4, hbuf4⟩ := exec_encode_carries (c3.inv.accept _)
    (by rw [← hcfg3, ← htl3] at hlen; exact hlen) hN3 ((htab3 _).symm ▸ hwf3)
    (by rw [htab3, htext3]; exact hsp) hbytes
  have hr4 := run_command 1 c3.pending rfl he4
  -- DECODE
  have hcfg4 : t4.cfg = t3.cfg := c4.cfg
  have htab4 : ∀ r, (t4.accept r).codeTable = t3.codeTable := fun r => hw3.codeTable_eq hcode4 hcN4 hcfg4
  obtain ⟨t5, he5, hp5, hst5, hei5, htx5, htl5⟩ := exec_decode_stream (s := t4.accept []) strict c4.inv.cfg
    (by show t4.bufLen.toNat ≤ t4.cfg.bufMax; rw [hbl4, hcfg4]; exact hbytes)
    (by show t4.codeN.toNat ≤ t4.cfg.nMax; rw [hcN4, hcfg4]; exact hN3)
    (by rw [htab4]; exact hcfg4 ▸ hwf3) (by rw [htab4]; exact hsp.1)
    (by show es.length ≤ t4.cfg.textMax; rw [heslen, hcfg4, hcfg3]; exact hlen) hbl4 hpad4 (hbuf4 _)
  have hr5 := run_command 0 c4.pending (by cases strict <;> rfl) he5
  refine ⟨t5, ?_, hp5, hst5, hei5, htx5.trans hsp.2, BitVec.eq_of_toNat_eq (htl5.trans heslen)⟩
  rw [runPending, hp]
  exact hr1.trans (hr2.trans (hr3.trans (hr4.trans hr5)))

end Sys2Proof.Machine
end

section
/-! The invariant after reset (spec 10_state.md R45) and the frame of every command: which locations a commit writes
(R10, R77; 40_count.md R110, 41_build.md R130, 42_gen.md R160, 43_encode.md R180, 44_decode.md R200). -/

namespace Sys2Proof.Machine

/-! ## Reset -/

/-- After reset every space is empty and there is no tree (R34, R45). -/
theorem inv_resetWith {c : Config} (hc : c.WellFormed) : Inv (State.resetWith c) where
  cfg := hc
  txtWf := List.Pairwise.nil
  bufWf := List.Pairwise.nil
  freqWf := List.Pairwise.nil
  nodeWf := List.Pairwise.nil
  codeWf := List.Pairwise.nil
  txtIn := by simp
  bufIn := by simp
  freqIn := by simp
  nodeIn := by simp
  codeIn := by simp
  status := by simp [legalStatus]
  info := fun _ => rfl
  tree :=
    { none := fun _ => rfl
      leaves_le := fun h => absurd rfl h
      root := fun h => absurd rfl h
      written := fun k hk => absurd hk (Nat.not_lt_zero k)
      tree := fun h => absurd rfl h }

/-- Settles O18: the reset state of every legal configuration has the invariant, and CFG-REF is legal (R7). -/
theorem invariantAtReset : Obligations.InvariantAtReset :=
  ⟨inv_resetWith Config.ref_wellFormed, fun _ hc => inv_resetWith hc⟩

/-! ## Frames -/

theorem Keeps.refl (s : State) (W : Loc → Prop) : Keeps s s W :=
  ⟨rfl, rfl, rfl, rfl, fun _ _ _ => ⟨rfl, rfl⟩⟩

theorem Keeps.mono {s t : State} {V W : Loc → Prop} (h : Keeps s t V) (hVW : ∀ l, V l → W l) : Keeps s t W :=
  { h with cells := fun l hl hn => h.cells l hl fun hv => hn (hVW l hv) }

/-- The record that ends a command is written in `STATUS` and `ERRINFO` only (R24, R25). -/
theorem Keeps.record {s t : State} {W : Loc → Prop} (h : Keeps s t W) (st : BitVec 9) (info : Word) :
    Keeps s { t with status := st, errinfo := info } (fun l => l.isResult ∨ W l) where
  cfg := h.cfg
  pending := h.pending
  returned := h.returned
  stamp := h.stamp
  cells := by
    intro l hl hn
    rw [not_or] at hn
    have hkeep := h.cells l hl hn.2
    cases l with
    | reg r =>
      cases r with
      | status => exact absurd (.inl rfl) hn.1
      | errinfo => exact absurd (.inr rfl) hn.1
      | _ => exact hkeep
    | _ => exact hkeep

/-- The frame of a command is that of what it commits: an error changes `STATUS` and `ERRINFO` only (R248). -/
theorem exec_frame {i : Instr} {s t : State} {W : Loc → Prop} (h : exec i s = .next t)
    (hok : outcome i s = .ok t → Keeps s t fun l => l.isResult ∨ W l) : Keeps s t fun l => l.isResult ∨ W l := by
  rcases exec_cases h with h1 | ⟨e, -, rfl⟩
  · exact hok h1
  · exact (Keeps.refl s W).record _ _

/-- Cells above a written range are left. -/
theorem Memory.read?_writeFrom_of_le {α : Type} (m : Memory α) {vs : List α} {a : Nat} (h : vs.length ≤ a) :
    (m.writeFrom 0 vs).read? a = m.read? a := by
  rw [Memory.read?_writeFrom, if_neg (by omega)]

/-- COUNT commits the entries of its table and `FREQ_N` (R110). -/
theorem keeps_commitFreq (s : State) (t : List FreqEntry) :
    Keeps s (s.commitFreq t) fun l =>
      l = .reg .freqN ∨ ∃ i, i < t.length ∧ (l = .freqSym i ∨ l = .freqCount i) where
  cfg := rfl
  pending := rfl
  returned := rfl
  stamp := rfl
  cells := by
    intro l _ hn
    have hread : ∀ a, 2 * t.length ≤ a → (s.freq.writeFrom 0 (freqWords t)).read? a = s.freq.read? a := fun a ha =>
      Memory.read?_writeFrom_of_le _ (by rw [length_freqWords]; exact ha)
    cases l with
    | reg r =>
      cases r with
      | freqN => exact absurd (.inl rfl) hn
      | _ => exact ⟨rfl, rfl⟩
    | freqSym i =>
      have hi : t.length ≤ i := Nat.le_of_not_lt fun hi => hn (.inr ⟨i, hi, .inl rfl⟩)
      simp [State.readLoc, State.holds, State.freqCell, State.cell, hread (2 * i) (by omega)]
    | freqCount i =>
      have hi : t.length ≤ i := Nat.le_of_not_lt fun hi => hn (.inr ⟨i, hi, .inr rfl⟩)
      simp [State.readLoc, State.holds, State.freqCell, State.cell, hread (2 * i + 1) (by omega)]
    | _ => exact ⟨rfl, rfl⟩

/-- BUILD commits the arena and its two registers (R136). -/
theorem keeps_commitTree (s : State) (nd : List NodeEntry) (root : Nat) :
    Keeps s (s.commitTree nd root) fun l => l = .reg .nodeN ∨ l = .reg .root ∨
      ∃ k, k < nd.length ∧ (l = .nodeFreq k ∨ l = .nodeKind k ∨ l = .nodeA k ∨ l = .nodeB k) where
  cfg := rfl
  pending := rfl
  returned := rfl
  stamp := rfl
  cells := by
    intro l _ hn
    have hkeep : ∀ k f, ¬ k < nd.length → (s.commitTree nd root).nodeWord k f = s.nodeWord k f ∧
        ((s.commitTree nd root).node.read? k).isSome = (s.node.read? k).isSome := fun k f hk => by
      have hread := Memory.read?_writeFrom_of_le s.node (Nat.le_of_not_lt hk)
      simp [State.nodeWord, hread]
    cases l with
    | reg r =>
      cases r with
      | nodeN => exact absurd (.inl rfl) hn
      | root => exact absurd (.inr (.inl rfl)) hn
      | _ => exact ⟨rfl, rfl⟩
    | nodeFreq k => exact hkeep k 0 fun hk => hn (.inr (.inr ⟨k, hk, .inl rfl⟩))
    | nodeKind k => exact hkeep k 1 fun hk => hn (.inr (.inr ⟨k, hk, .inr (.inl rfl)⟩))
    | nodeA k => exact hkeep k 2 fun hk => hn (.inr (.inr ⟨k, hk, .inr (.inr (.inl rfl))⟩))
    | nodeB k => exact hkeep k 3 fun hk => hn (.inr (.inr ⟨k, hk, .inr (.inr (.inr rfl))⟩))
    | _ => exact ⟨rfl, rfl⟩

/-- GEN commits the entries of its table and `CODE_N` (R160). -/
theorem keeps_commitCodes (s : State) (t : List CodeEntry) :
    Keeps s (s.commitCodes t) fun l => l = .reg .codeN ∨
      ∃ i, i < t.length ∧ (l = .codeSym i ∨ l = .codeLen i ∨ ∃ w, l = .codeBits i w) where
  cfg := rfl
  pending := rfl
  returned := rfl
  stamp := rfl
  cells := by
    intro l hl hn
    have hstride := s.cfg.words_le_cstride
    have hkeep : ∀ i j, j < s.cfg.cstride → ¬ i < t.length → (s.commitCodes t).codeCell i j = s.codeCell i j ∧
        ((s.commitCodes t).code.read? (Config.codeKey s.cfg i j)).isSome =
          (s.code.read? (Config.codeKey s.cfg i j)).isSome := fun i j hj hi => by
      have hread := read?_writeCodes s.cfg s.code 0 t i j hj
      rw [if_neg (by omega)] at hread
      simp [State.codeCell, State.cell, hread]
    cases l with
    | reg r =>
      cases r with
      | codeN => exact absurd (.inl rfl) hn
      | _ => exact ⟨rfl, rfl⟩
    | codeSym i => exact hkeep i 0 (by omega) fun hi => hn (.inr ⟨i, hi, .inl rfl⟩)
    | codeLen i => exact hkeep i 1 (by omega) fun hi => hn (.inr ⟨i, hi, .inr (.inl rfl)⟩)
    | codeBits i w =>
      simp only [Loc.valid, Bool.and_eq_true, decide_eq_true_eq] at hl
      exact hkeep i (2 + w) (by omega) fun hi => hn (.inr ⟨i, hi, .inr (.inr ⟨w, rfl⟩)⟩)
    | _ => exact ⟨rfl, rfl⟩

/-- ENCODE commits the bytes of its stream, `BUF_LEN` and `PAD` (R180). -/
theorem keeps_commitBuffer (s : State) (stream : List Bool) :
    Keeps s (s.commitBuffer stream) fun l => l = .reg .bufLen ∨ l = .reg .pad ∨
      ∃ j, j < bytesFor stream.length ∧ l = .buf j where
  cfg := rfl
  pending := rfl
  returned := rfl
  stamp := rfl
  cells := by
    intro l _ hn
    cases l with
    | reg r =>
      cases r with
      | bufLen => exact absurd (.inl rfl) hn
      | pad => exact absurd (.inr (.inl rfl)) hn
      | _ => exact ⟨rfl, rfl⟩
    | buf j =>
      have hj : ¬ j < bytesFor stream.length := fun hj => hn (.inr (.inr ⟨j, hj, rfl⟩))
      have hread := Memory.read?_writeFrom_of_le s.buf (vs := packBytes stream) (a := j) (by simpa using hj)
      simp [State.readLoc, State.holds, State.bufCell, hread]
    | _ => exact ⟨rfl, rfl⟩

/-- DECODE commits the symbols of its text and `TXT_LEN` (R200). -/
theorem keeps_commitText (s : State) (out : List Word) :
    Keeps s (s.commitText out) fun l => l = .reg .txtLen ∨ ∃ i, i < out.length ∧ l = .txt i where
  cfg := rfl
  pending := rfl
  returned := rfl
  stamp := rfl
  cells := by
    intro l _ hn
    cases l with
    | reg r =>
      cases r with
      | txtLen => exact absurd (.inl rfl) hn
      | _ => exact ⟨rfl, rfl⟩
    | txt i =>
      have hread := Memory.read?_writeFrom_of_le s.txt (vs := out) (a := i)
        (Nat.le_of_not_lt fun hi => hn (.inr ⟨i, hi, rfl⟩))
      simp [State.readLoc, State.holds, State.txtCell, State.cell, hread]
    | _ => exact ⟨rfl, rfl⟩

theorem length_genTable_le (nd : List NodeEntry) (root : Nat) : (genTable nd root).length ≤ leafCount nd.length := by
  simpa [genTable] using List.length_filterMap_le (genEntry nd root (leafCount nd.length)) (List.range (leafCount nd.length))

/-- Settles O53: each commit writes as many entries as the statement names. -/
theorem tableCommandsFrame : Obligations.TableCommandsFrame := by
  intro s t hc
  refine ⟨fun h => exec_frame h fun hok => ?_, fun h => exec_frame h fun hok => ?_, fun h => exec_frame h fun hok => ?_⟩
  · obtain ⟨-, -, rfl⟩ := countFrequencies_eq_ok.1 hok
    rw [← length_countTable]
    exact (keeps_commitFreq s _).record _ _
  · have hlen : (buildNodes s.freqTable).1.length = 2 * s.freqN.toNat - 1 := by
      obtain ⟨harena, -, -, hsize, -⟩ := buildTree_result hc hok
      rwa [harena] at hsize
    obtain ⟨-, -, -, -, rfl⟩ := buildTree_eq_ok.1 hok
    rw [← hlen]
    exact (keeps_commitTree s _ _).record _ _
  · obtain ⟨-, rfl⟩ := generateCodes_eq_ok.1 hok
    have hle := length_genTable_le s.arena s.root.toNat
    rw [length_arena] at hle
    refine ((keeps_commitCodes s _).record _ _).mono fun l => Or.imp_right (Or.imp_right ?_)
    exact fun ⟨i, hi, hl⟩ => ⟨i, hi.trans_le hle, hl⟩

/-- A `DECODE` that commits writes the text of the scan and a record (R204 to R206). -/
theorem keeps_finishDecode {strict : Bool} {s t : State} {sc : Scan} (h : finishDecode strict s sc = .ok t) :
    Keeps s t fun l => l.isResult ∨ l = .reg .txtLen ∨ ∃ i, i < sc.out.length ∧ l = .txt i := by
  unfold finishDecode at h
  split_ifs at h
  · cases h
    exact (keeps_commitText s sc.out).record _ _
  · cases h
    exact (keeps_commitText s sc.out).record _ _

/-- Settles O54: the bytes of the stream and the symbols of the parse are what the commits write. -/
theorem streamCommandsFrame : Obligations.StreamCommandsFrame := by
  intro s t hc
  refine ⟨fun h => exec_frame h fun hok => ?_, fun strict h => exec_frame h fun hok => ?_⟩
  · obtain ⟨-, -, -, es, hsp, -, rfl⟩ := encodeText_eq_ok.1 hok
    refine ((keeps_commitBuffer s _).record _ _).mono fun l => Or.imp_right (Or.imp_right (Or.imp_right ?_))
    rintro ⟨j, hj, rfl⟩
    rw [length_streamOf] at hj
    exact ⟨es, j, hsp, hj, rfl⟩
  · obtain ⟨-, -, -, -, es, rest, hes, hrest, hbits, -, hfin⟩ := decodeBuffer_ok hok
    refine (keeps_finishDecode hfin).mono fun l => Or.imp_right (Or.imp_right ?_)
    rintro ⟨i, hi, rfl⟩
    exact ⟨es, rest, i, hes, hrest, hbits, by simpa using hi, rfl⟩

end Sys2Proof.Machine
end

section
/-! The outcome of a command is a function of the objects it reads (spec 20_memory.md R77). -/

namespace Sys2Proof.Machine

/-- Two outcomes of one command agree: both take the same error, or both commit with the same record and with results
related by `R`. -/
inductive Agree (R : State → State → Prop) : Except CmdError State → Except CmdError State → Prop where
  | error (e : CmdError) : Agree R (.error e) (.error e)
  | ok {t t' : State} (status : t'.status = t.status) (errinfo : t'.errinfo = t.errinfo) (result : R t t') :
      Agree R (.ok t) (.ok t')

/-- What outcomes that agree leave after the command (R240, R248). -/
theorem Agree.exec {R : State → State → Prop} {i : Instr} {s s' : State} (h : Agree R (outcome i s) (outcome i s')) :
    ∃ t t', exec i s = .next t ∧ exec i s' = .next t' ∧ t'.status = t.status ∧ t'.errinfo = t.errinfo ∧
      (errField t.status = 0 → R t t') := by
  rw [exec_eq, exec_eq]
  generalize outcome i s = r at h ⊢
  generalize outcome i s' = r' at h ⊢
  cases h with
  | error e =>
    exact ⟨_, _, rfl, rfl, rfl, rfl, fun h0 => absurd (e.errField_status.symm.trans h0) e.code_ne⟩
  | ok hst hei hres => exact ⟨_, _, rfl, rfl, hst, hei, fun _ => hres⟩

/-- A test that both make on the same object keeps the agreement. -/
theorem Agree.guard {R : State → State → Prop} {c : Prop} [Decidable c] {e : CmdError} {r r' : Except CmdError State}
    (h : ¬ c → Agree R r r') : Agree R (if c then .error e else r) (if c then .error e else r') := by
  split_ifs with hc
  · exact .error e
  · exact h hc

/-- COUNT reads the text (R110). -/
theorem agree_count {s s' : State} (hc : s.cfg.WellFormed) (hcfg : s'.cfg = s.cfg) (hlen : s'.txtLen = s.txtLen)
    (htext : s'.text = s.text) :
    Agree (fun t t' => t'.freqN = t.freqN ∧ t'.freqTable = t.freqTable) (outcome .count s) (outcome .count s') := by
  simp only [outcome, countFrequencies, hcfg, hlen, htext, tally_nil]
  refine .guard fun h1 => ?_
  by_cases h2 : (firstSeen s.text).length ≤ s.cfg.nMax
  · simp only [if_pos h2]
    have ht := State.freqTable_count hc (Nat.le_of_not_lt h1) h2
    have ht' := State.freqTable_count (s := s') (hcfg.symm ▸ hc) (by rw [hlen, hcfg]; omega) (by rw [htext, hcfg]; exact h2)
    rw [htext] at ht'
    exact .ok rfl rfl ⟨rfl, ht'.trans ht.symm⟩
  · simp only [if_neg h2]
    exact .error _

/-- BUILD reads the frequency table (R130). -/
theorem agree_build {s s' : State} (hc : s.cfg.WellFormed) (hcfg : s'.cfg = s.cfg) (hN : s'.freqN = s.freqN)
    (htab : s'.freqTable = s.freqTable) :
    Agree (fun t t' => t'.nodeN = t.nodeN ∧ t'.root = t.root ∧ t'.arena = t.arena)
      (outcome .build s) (outcome .build s') := by
  simp only [outcome, buildTree, hcfg, hN, htab]
  refine .guard fun h1 => .guard fun h2 => ?_
  cases hd : dupSymbol (s.freqTable.map (·.sym)) with
  | some j => exact .error _
  | none =>
    refine .guard fun h3 => ?_
    have hdist : DistinctSymbols s.freqTable := dupSymbol_eq_none.1 hd
    have ha := State.arena_build hc (Nat.le_of_not_lt h1) h2 hdist (Nat.lt_of_not_le h3)
    have ha' := State.arena_build (s := s') (hcfg.symm ▸ hc) (by rw [hN, hcfg]; omega) (by rw [hN]; exact h2)
      (htab.symm ▸ hdist) (by rw [htab]; omega)
    rw [htab] at ha'
    exact .ok rfl rfl ⟨rfl, rfl, ha'.trans ha.symm⟩

/-- GEN reads the tree, whose root its size fixes (R34, R160). -/
theorem agree_gen {s s' : State} (h : Inv s) (h' : Inv s') (hN : s'.nodeN = s.nodeN) (hnd : s'.arena = s.arena) :
    Agree (fun t t' => t'.codeN = t.codeN ∧ t'.codeTable = t.codeTable) (outcome .gen s) (outcome .gen s') := by
  by_cases h0 : s.nodeN.toNat = 0
  · simp only [outcome, generateCodes, hN, if_pos h0]
    exact .error _
  · have hn : s.nodeN ≠ 0 := fun hz => h0 (by rw [hz]; rfl)
    have hroot : s'.root.toNat = s.root.toNat := by rw [h.tree.root hn, h'.tree.root (hN ▸ hn), hN]
    have hok := (generateCodes_eq_ok (s := s)).2 ⟨h0, rfl⟩
    have hok' := (generateCodes_eq_ok (s := s')).2 ⟨by rw [hN]; exact h0, rfl⟩
    obtain ⟨ht, -⟩ := generateCodes_result h.cfg h.tree hok
    obtain ⟨ht', -⟩ := generateCodes_result h'.cfg h'.tree hok'
    simp only [outcome, hok, hok']
    refine .ok rfl rfl ⟨?_, ?_⟩
    · simp [hnd, hroot]
    · rw [ht, ht', hnd, hroot]

/-- ENCODE reads the text and the code table (R180). -/
theorem agree_encode {s s' : State} (hc : s.cfg.WellFormed) (hcfg : s'.cfg = s.cfg) (hlen : s'.txtLen = s.txtLen)
    (htext : s'.text = s.text) (hN : s'.codeN = s.codeN) (htab : s'.codeTable = s.codeTable) :
    Agree (fun t t' => t'.bufLen = t.bufLen ∧ t'.pad = t.pad ∧ t'.bufferBits = t.bufferBits)
      (outcome .encode s) (outcome .encode s') := by
  simp only [outcome, encodeText, hcfg, hlen, htext, hN, htab]
  refine .guard fun _ => .guard fun _ => ?_
  cases codeTableError s.cfg s.codeTable with
  | some e => exact .error _
  | none =>
    cases entriesOf s.codeTable 0 s.text with
    | error e => exact .error _
    | ok es =>
      refine .guard fun h3 => ?_
      have hb := (commitBuffer_result hc (Nat.le_of_not_lt h3)).1
      have hb' := (commitBuffer_result (s := s') (hcfg.symm ▸ hc) (by rw [hcfg]; exact Nat.le_of_not_lt h3)).1
      exact .ok rfl rfl ⟨rfl, rfl, hb'.trans hb.symm⟩

theorem Scan.step_length_le {t : List CodeEntry} {cap k : Nat} {b : Bool} {sc sc' : Scan}
    (h : Scan.step t cap sc k b = some sc') (hsc : sc.out.length ≤ cap) : sc'.out.length ≤ cap := by
  unfold Scan.step at h
  split at h
  · split_ifs at h with hfull
    cases h
    simpa using Nat.lt_of_le_of_ne hsc hfull
  · cases h
    exact hsc

/-- The scan emits no more symbols than fit (R207). -/
theorem scanBits_length_le {t : List CodeEntry} {cap : Nat} {bs : List Bool} {k : Nat} {sc sc' : Scan}
    (h : scanBits t cap bs k sc = some sc') (hsc : sc.out.length ≤ cap) : sc'.out.length ≤ cap := by
  induction bs generalizing k sc with
  | nil =>
    cases h
    exact hsc
  | cons b bs ih =>
    simp only [scanBits] at h
    cases hstep : Scan.step t cap sc k b with
    | none => simp [hstep] at h
    | some next =>
      rw [hstep] at h
      exact ih h (Scan.step_length_le hstep hsc)

/-- DECODE reads the buffer, the pad count and the code table (R200). -/
theorem agree_decode {s s' : State} (strict : Bool) (hc : s.cfg.WellFormed) (hcfg : s'.cfg = s.cfg)
    (hB : s'.bufLen = s.bufLen) (hpad : s'.pad = s.pad) (hbits : s'.bufferBits = s.bufferBits)
    (hN : s'.codeN = s.codeN) (htab : s'.codeTable = s.codeTable) :
    Agree (fun t t' => t'.txtLen = t.txtLen ∧ t'.text = t.text)
      (outcome (.decode strict) s) (outcome (.decode strict) s') := by
  simp only [outcome, decodeBuffer, hcfg, hB, hpad, hbits, hN, htab]
  refine .guard fun _ => .guard fun _ => .guard fun _ => ?_
  cases codeTableError s.cfg s.codeTable with
  | some e => exact .error _
  | none =>
    cases hscan : scanBits s.codeTable s.cfg.textMax
        (s.bufferBits.take (8 * s.bufLen.toNat - s.pad.toNat)) 0 Scan.begin with
    | none => exact .error _
    | some sc =>
      have hout : sc.out.length ≤ s.cfg.textMax := scanBits_length_le hscan (Nat.zero_le _)
      have ht := (State.text_decode hc hout).1
      have ht' := (State.text_decode (s := s') (hcfg.symm ▸ hc) (hcfg.symm ▸ hout)).1
      cases hclean : cleanTail (s.bufferBits.drop sc.start) with
      | true =>
        simp only [finishDecode_clean hclean, finishDecode_clean (s := s') (hbits.symm ▸ hclean)]
        exact .ok rfl rfl ⟨rfl, ht'.trans ht.symm⟩
      | false =>
        cases strict with
        | true =>
          simp only [finishDecode_strict hclean, finishDecode_strict (s := s') (hbits.symm ▸ hclean)]
          exact .error _
        | false =>
          simp only [finishDecode_bestEffort hclean, finishDecode_bestEffort (s := s') (hbits.symm ▸ hclean)]
          exact .ok rfl rfl ⟨rfl, ht'.trans ht.symm⟩

/-- Settles O51: the outcomes of each command on the two states agree. -/
theorem commandsReadOnlyTheirObjects : Obligations.CommandsReadOnlyTheirObjects := by
  intro s s' h h' hcfg
  refine ⟨fun hlen htext => ?_, fun hN htab => ?_, fun hN hnd => ?_, fun hlen htext hN htab => ?_,
    fun strict hB hpad hbits hN htab => ?_⟩
  · exact (agree_count h.cfg hcfg hlen htext).exec
  · exact (agree_build h.cfg hcfg hN htab).exec
  · exact (agree_gen h h' hN hnd).exec
  · exact (agree_encode h.cfg hcfg hlen htext hN htab).exec
  · exact (agree_decode strict h.cfg hcfg hB hpad hbits hN htab).exec

end Sys2Proof.Machine
end

section
/-! What one step can do, and what it leaves (spec 45_control.md R232, R233): the invariant, the configuration, one
location (R73), the record of a command (R24, R25), and the text that a host script loads (30_encoding.md R97). -/

namespace Sys2Proof.Machine

/-! ## The next state of a step -/

/-- Everything a step can do (R232, R233): nothing waits; a read is answered; a location is written; the command written to
`CMD` commits or takes an error; or the word is illegal. -/
inductive StepsTo (s : State) : State → Prop where
  | idle (hp : s.pending = []) : StepsTo s s
  | read {a : Addr} {rest : List Transaction} (hp : s.pending = .read a :: rest) :
      StepsTo s { s.accept rest with returned := (s.accept rest).returned ++ [(s.accept rest).hostRead a] }
  | write {a : Addr} {v : Word} {rest : List Transaction} (hp : s.pending = .write a v :: rest) (ha : a ≠ 0) :
      StepsTo s ((s.accept rest).hostWrite a v)
  | commit {w : Word} {rest : List Transaction} {i : Instr} {t : State} (hp : s.pending = .write 0 w :: rest)
      (hd : decode w = .ok i) (ho : outcome i (s.accept rest) = .ok t) : StepsTo s t
  | error {w : Word} {rest : List Transaction} {i : Instr} {e : CmdError} (hp : s.pending = .write 0 w :: rest)
      (hd : decode w = .ok i) (ho : outcome i (s.accept rest) = .error e) : StepsTo s ((s.accept rest).raise e)
  | illegal {w v : Word} {rest : List Transaction} (hp : s.pending = .write 0 w :: rest)
      (hd : decode w = .error (.illegalCommand v)) : StepsTo s ((s.accept rest).raise (.illegalCommand v))

theorem exists_stepsTo (s : State) : ∃ t, step s = .next t ∧ StepsTo s t := by
  cases hp : s.pending with
  | nil => exact ⟨_, step_idle hp, .idle hp⟩
  | cons tr rest =>
    cases tr with
    | read a => exact ⟨_, step_read hp, .read hp⟩
    | write a v =>
      by_cases ha : a = 0
      · subst ha
        rw [step_command hp]
        cases hd : decode v with
        | error e =>
          cases e with
          | illegalCommand w => exact ⟨_, State.runCommand_of_error hd, .illegal hp hd⟩
        | ok i =>
          rw [State.runCommand_of_decode hd, exec_eq]
          cases ho : outcome i (s.accept rest) with
          | ok t => exact ⟨t, rfl, .commit hp hd ho⟩
          | error e => exact ⟨_, rfl, .error hp hd ho⟩
      · exact ⟨_, step_write hp ha, .write hp ha⟩

theorem stepsTo_of_step {s t : State} (h : step s = .next t) : StepsTo s t := by
  obtain ⟨u, hu, hs⟩ := exists_stepsTo s
  rw [hu] at h
  cases h
  exact hs

/-- A host write stores one location of the block, or nothing where it names none (R69, R233). -/
theorem State.hostWrite_cases (s : State) (a : Addr) (v : Word) :
    s.hostWrite a v = s ∨ ∃ l : Loc, l.valid s.cfg = true ∧ s.hostWrite a v = s.writeLoc l v := by
  cases hl : locate s.cfg a with
  | none => exact .inl (State.hostWrite_reserved hl)
  | some l => exact .inr ⟨l, (locate_eq_some.1 hl).1, State.hostWrite_of_locate hl⟩

/-! ## The invariant -/

/-- The answer of a read is no part of the block (R232). -/
theorem Inv.answer {s : State} (h : Inv s) (vs : List Word) : Inv { s with returned := vs } :=
  { h with tree := h.tree.congr rfl rfl rfl rfl }

theorem Inv.hostWrite {s : State} (h : Inv s) (a : Addr) (v : Word) : Inv (s.hostWrite a v) := by
  rcases s.hostWrite_cases a v with hw | ⟨l, hl, hw⟩
  · rw [hw]; exact h
  · rw [hw]; exact h.writeLoc l v hl

/-- Settles O19: each of the things a step can do keeps the invariant. -/
theorem stepKeepsInvariant : Obligations.StepKeepsInvariant := by
  intro s t hs ht
  cases stepsTo_of_step ht with
  | idle _ => exact hs
  | read _ => exact (hs.accept _).answer _
  | write _ _ => exact (hs.accept _).hostWrite _ _
  | commit _ _ ho => exact (hs.accept _).commit ho
  | error _ _ _ => exact (hs.accept _).raise _
  | illegal _ _ => exact (hs.accept _).raise _

/-! ## The configuration -/

theorem State.cfg_writeLoc (s : State) (l : Loc) (v : Word) : (s.writeLoc l v).cfg = s.cfg := by
  cases l with
  | reg r => cases r <;> rfl
  | _ => rfl

theorem State.cfg_hostWrite (s : State) (a : Addr) (v : Word) : (s.hostWrite a v).cfg = s.cfg := by
  rcases s.hostWrite_cases a v with hw | ⟨l, -, hw⟩
  · rw [hw]
  · rw [hw, State.cfg_writeLoc]

/-- What a `DECODE` that succeeds commits: the text, and a record that warns in best effort only (R204 to R206). -/
theorem decodeBuffer_commits {strict : Bool} {s t : State} (h : decodeBuffer strict s = .ok t) :
    ∃ sc : Scan, t = (s.commitText sc.out).succeed ∨
      (strict = false ∧ t = (s.commitText sc.out).succeedWarning sc.start) := by
  obtain ⟨-, -, -, -, es, rest, -, -, -, -, hfin⟩ := decodeBuffer_ok h
  refine ⟨{ cand := Code.ofBits rest, out := es.map (·.sym), start := (streamOf es).length }, ?_⟩
  unfold finishDecode at hfin
  split_ifs at hfin with hclean hstrict
  · cases hfin
    exact .inl rfl
  · cases hfin
    exact .inr ⟨by simpa using hstrict, rfl⟩

/-- No commit changes the configuration (R47). -/
theorem outcome_cfg {i : Instr} {s t : State} (h : outcome i s = .ok t) : t.cfg = s.cfg := by
  cases i with
  | nop => cases h; rfl
  | clear => cases h; rfl
  | count =>
    obtain ⟨-, -, rfl⟩ := countFrequencies_eq_ok.1 h
    rfl
  | build =>
    obtain ⟨-, -, -, -, rfl⟩ := buildTree_eq_ok.1 h
    rfl
  | gen =>
    obtain ⟨-, rfl⟩ := generateCodes_eq_ok.1 h
    rfl
  | encode =>
    obtain ⟨-, -, -, es, -, -, rfl⟩ := encodeText_eq_ok.1 h
    rfl
  | decode strict =>
    obtain ⟨sc, rfl | ⟨-, rfl⟩⟩ := decodeBuffer_commits h <;> rfl

/-- Settles O14: no case of a step is without a next state, and none changes the configuration. -/
theorem stepAlwaysAnswersNext : Obligations.StepAlwaysAnswersNext := by
  intro s
  obtain ⟨t, ht, hs⟩ := exists_stepsTo s
  refine ⟨t, ht, ?_⟩
  cases hs with
  | idle _ => rfl
  | read _ => rfl
  | write _ _ => exact State.cfg_hostWrite _ _ _
  | commit _ _ ho => exact (outcome_cfg ho).trans rfl
  | error _ _ _ => rfl
  | illegal _ _ => rfl

/-! ## One location -/

theorem locate_addr {c : Config} (hc : c.WellFormed) {l : Loc} (hl : l.valid c = true) : locate c (l.addr c) = some l := by
  have hlt := (Loc.place_lt hc hl).2
  refine locate_eq_some.2 ⟨hl, ?_⟩
  rw [Loc.toNat_addr hc hl]
  exact Prod.ext (by simp only; omega) (by simp only; omega)

/-- `CMD` is at address 0 (R22, R62). -/
theorem locate_zero (c : Config) : locate c 0 = some (.reg .cmd) := locate_eq_some.2 ⟨rfl, rfl⟩

/-- No writable location is at the address of `CMD`. -/
theorem addr_ne_zero_of_writable {c : Config} (hc : c.WellFormed) {l : Loc} (hl : l.valid c = true)
    (hw : l.writable = true) : l.addr c ≠ 0 := by
  intro h0
  have hloc := locate_addr hc hl
  rw [h0, locate_zero] at hloc
  cases hloc
  cases hw

/-- A write to a writable location stores there and nowhere else (R73, R233). -/
theorem step_writeLoc {s : State} {l : Loc} {v : Word} {rest : List Transaction} (hc : s.cfg.WellFormed)
    (hl : l.valid s.cfg = true) (hw : l.writable = true) (hp : s.pending = .write (l.addr s.cfg) v :: rest) :
    step s = .next ((s.accept rest).writeLoc l v) := by
  rw [step_write hp (addr_ne_zero_of_writable hc hl hw)]
  exact congrArg _ (State.hostWrite_of_locate (s := s.accept rest) (locate_addr hc hl))

theorem run_writeLoc {s : State} {l : Loc} {v : Word} {rest : List Transaction} (k : Nat) (hc : s.cfg.WellFormed)
    (hl : l.valid s.cfg = true) (hw : l.writable = true) (hp : s.pending = .write (l.addr s.cfg) v :: rest) :
    run (k + 1) s = run k ((s.accept rest).writeLoc l v) := by
  simp only [run, step_writeLoc hc hl hw hp]

/-- Settles O13: the step is the write of the one location. -/
theorem hostWriteStoresOneLocation : Obligations.HostWriteStoresOneLocation :=
  fun s l v rest hc hl hw hp => ⟨_, step_writeLoc hc hl hw hp, (s.accept rest).writeLoc_spec l v hl hw⟩

/-! ## The text of a host script -/

/-- The lines of the script that write symbols, from cell `k` on (R97). -/
def textWrites (c : Config) (k : Nat) (syms : List Word) : List Transaction :=
  (syms.zipIdx k).map fun p => .write (Loc.addr c (.txt p.2)) p.1

theorem scriptTransactions_textMacro (c : Config) (syms : List Word) :
    scriptTransactions c (textMacro syms) =
      textWrites c 0 syms ++ [.write (Loc.addr c (.reg .txtLen)) (BitVec.ofNat 32 syms.length)] := by
  simp only [scriptTransactions, textMacro, textWrites, wrReg, List.map_append, List.map_map]
  rfl

/-- The run through the symbol lines writes consecutive cells of `TXT` and nothing else. -/
theorem run_textWrites {s : State} {k : Nat} {syms : List Word} {rest : List Transaction} (m : Nat)
    (hc : s.cfg.WellFormed) (hk : k + syms.length ≤ s.cfg.textMax)
    (hp : s.pending = textWrites s.cfg k syms ++ rest) :
    run (syms.length + m) s =
      run m { s with txt := s.txt.writeFrom k syms, pending := rest, stamp := s.stamp + syms.length } := by
  induction syms generalizing s k with
  | nil =>
    obtain rfl : rest = s.pending := hp.symm
    simp [Memory.writeFrom]
  | cons x xs ih =>
    simp only [List.length_cons] at hk
    have hvalid : (Loc.txt k).valid s.cfg = true := by simp only [Loc.valid, decide_eq_true_eq]; omega
    have hrun := ih (s := (s.accept (textWrites s.cfg (k + 1) xs ++ rest)).writeLoc (.txt k) x) (k := k + 1) hc
      (by simp only [State.cfg_writeLoc, State.accept_fields]; omega) rfl
    rw [List.length_cons, Nat.add_right_comm, run_writeLoc _ hc hvalid rfl hp]
    refine hrun.trans (congrArg (run m) ?_)
    simp [State.writeLoc, State.accept, Memory.writeFrom, Nat.add_assoc, Nat.add_comm]

/-- Every cell of a text that is put into the block has been written. -/
theorem textWritten_commitText (s : State) {out : List Word} (h : out.length < 2 ^ 32) :
    TextWritten (s.commitText out) := by
  intro i hi
  simp only [State.commitText_fields, toNat_ofNat_of_lt h] at hi ⊢
  rw [Memory.read?_writeFrom, if_pos (by omega)]
  simpa using hi

/-- Settles O15: the symbol lines write the text, and the last line its length. -/
theorem textMacroLoadsText : Obligations.TextMacroLoadsText := by
  intro s syms hc hlen hp
  have hfits : syms.length < 2 ^ 32 := by have := hc.text_fits; omega
  rw [scriptTransactions_textMacro] at hp
  have hcount : s.pending.length = syms.length + 1 := by rw [hp]; simp [textWrites]
  have hrun : runPending s =
      .next (State.commitText { s with pending := [], stamp := s.stamp + syms.length + 1 } syms) := by
    rw [runPending, hcount, run_textWrites 1 hc (by omega) hp,
      run_writeLoc 0 (by exact hc) (l := .reg .txtLen) rfl rfl rfl]
    rfl
  exact ⟨_, hrun, State.text_commitText _ hfits, toNat_ofNat_of_lt hfits, textWritten_commitText _ hfits, rfl, rfl⟩

/-! ## The record of a successful command -/

/-- Settles O22: every commit ends in a success without a warning, but for the second one of best-effort `DECODE`. -/
theorem successRecordValues : Obligations.SuccessRecordValues := by
  intro i s t h h0
  have hok := outcome_eq_ok h h0
  cases i with
  | nop => cases hok; exact .inl ⟨statusOk_eq, rfl⟩
  | clear => cases hok; exact .inl ⟨statusOk_eq, rfl⟩
  | count =>
    obtain ⟨-, -, rfl⟩ := countFrequencies_eq_ok.1 hok
    exact .inl ⟨statusOk_eq, rfl⟩
  | build =>
    obtain ⟨-, -, -, -, rfl⟩ := buildTree_eq_ok.1 hok
    exact .inl ⟨statusOk_eq, rfl⟩
  | gen =>
    obtain ⟨-, rfl⟩ := generateCodes_eq_ok.1 hok
    exact .inl ⟨statusOk_eq, rfl⟩
  | encode =>
    obtain ⟨-, -, -, es, -, -, rfl⟩ := encodeText_eq_ok.1 hok
    exact .inl ⟨statusOk_eq, rfl⟩
  | decode strict =>
    obtain ⟨sc, rfl | ⟨rfl, rfl⟩⟩ := decodeBuffer_commits hok
    · exact .inl ⟨statusOk_eq, rfl⟩
    · exact .inr ⟨rfl, statusWarn_eq⟩

end Sys2Proof.Machine
end

section
/-! The errors of `BUILD` and of the code table's checks in the order of their tests (spec 41_build.md R130, 10_state.md R32,
R246), the tree that `BUILD` leaves (R34, R137), and the parse of a bit string (44_decode.md R203). -/

namespace Sys2Proof.Machine

/-! ## The least index with a property -/

theorem smallest_of_firstWith {n j : Nat} {p : Nat → Bool} {P : Nat → Prop} (hp : ∀ k, p k = true ↔ P k)
    (h : FirstWith n P j) : smallest n p = some j := by
  obtain ⟨hj, hP, hleast⟩ := h
  exact smallest_eq_some.2 ⟨hj, (hp j).2 hP, fun k hk => by rw [← Bool.not_eq_true, hp]; exact hleast k hk⟩

/-- The same for the entries of a list that fail a test. -/
theorem findIdx?_of_firstWith {α : Type} {xs : List α} {p : α → Bool} {P : α → Prop} {n j : Nat}
    (hp : ∀ x, p x = true ↔ P x) (h : FirstWith n (fun k => ∃ x, xs[k]? = some x ∧ P x) j) :
    xs.findIdx? p = some j := by
  obtain ⟨-, ⟨x, hx, hPx⟩, hleast⟩ := h
  obtain ⟨hj, rfl⟩ := List.getElem?_eq_some_iff.1 hx
  refine List.findIdx?_eq_some_iff_getElem.2 ⟨hj, (hp _).2 hPx, fun k hk => ?_⟩
  rw [hp]
  exact fun hPk => hleast k hk ⟨_, List.getElem?_eq_getElem _, hPk⟩

theorem dupSymbol_of_firstWith {syms : List Word} {n j : Nat} (hn : syms.length = n)
    (h : FirstWith n (Repeats syms) j) : dupSymbol syms = some j := by
  subst hn
  exact smallest_of_firstWith (fun k => by simp [Repeats]) h

/-! ## The checks of the code table -/

theorem badLength_of_firstWith {c : Config} {t : List CodeEntry} {n j : Nat} (h : FirstWith n (BadLen c t) j) :
    badLength c t = some j :=
  findIdx?_of_firstWith (fun e => by simp) h

theorem badLength_of_no_badLen {c : Config} {t : List CodeEntry} (h : ∀ k, ¬ BadLen c t k) : badLength c t = none := by
  refine badLength_eq_none.2 fun e he => ?_
  obtain ⟨k, hk⟩ := List.getElem?_of_mem he
  by_contra hlen
  exact h k ⟨e, hk, by omega⟩

theorem badBits_of_firstWith {t : List CodeEntry} {n j : Nat} (h : FirstWith n (BadBits t) j) : badBits t = some j :=
  findIdx?_of_firstWith (fun e => by simp) h

theorem fits_of_no_badBits {t : List CodeEntry} (h : ∀ k, ¬ BadBits t k) : ∀ e ∈ t, e.code.fits := by
  intro e he
  obtain ⟨k, hk⟩ := List.getElem?_of_mem he
  exact Nat.lt_of_not_le fun hle => h k ⟨e, hk, hle⟩

/-- On codes without stray bits the numeric test of R9 is the one on strings (R32 (5)). -/
theorem any_leadsAt_iff {t : List CodeEntry} (hf : ∀ e ∈ t, e.code.fits) (j : Nat) :
    ((List.range t.length).any fun i => leadsAt t i j) = true ↔ BadPrefix t j := by
  simp only [List.any_eq_true, List.mem_range, leadsAt_iff, BadPrefix]
  constructor
  · rintro ⟨i, -, d, e, hd, he, hij, hl⟩
    exact ⟨i, d, e, hij, hd, he,
      (Code.leads_iff (hf d (List.mem_of_getElem? hd)) (hf e (List.mem_of_getElem? he))).1 hl⟩
  · rintro ⟨i, d, e, hij, hd, he, hpre⟩
    exact ⟨i, (List.getElem?_eq_some_iff.1 hd).1, d, e, hd, he, hij,
      (Code.leads_iff (hf d (List.mem_of_getElem? hd)) (hf e (List.mem_of_getElem? he))).2 hpre⟩

theorem badPrefix_of_firstWith {t : List CodeEntry} {n j : Nat} (hn : t.length = n) (hf : ∀ e ∈ t, e.code.fits)
    (h : FirstWith n (BadPrefix t) j) : badPrefix t = some j := by
  subst hn
  exact smallest_of_firstWith (any_leadsAt_iff hf) h

/-- The command that takes an error, with the two values of its record written out (R243, R248). -/
theorem exec_of_error {i : Instr} {s : State} {e : CmdError} {st : BitVec 9} {info : Word}
    (h : outcome i s = .error e) (hst : e.status = st) (hinfo : e.info = info) :
    exec i s = .next { s with status := st, errinfo := info } := by
  rw [exec_eq, State.conclude_error h, State.raise_eq hst hinfo]

theorem exec_of_operandError {i : Instr} {s : State} {sub : OperandSub} {j : Nat} {st : BitVec 9}
    (h : outcome i s = .error (.operand sub j)) (hst : statusWord false sub.code 6 = st) :
    exec i s = .next { s with status := st, errinfo := BitVec.ofNat 32 j } :=
  exec_of_error h hst rfl

/-- The tests that `ENCODE` and `DECODE` make before they read the code table (R180, R200). -/
def PassesLengthTests (i : Instr) (s : State) : Prop :=
  (i = .encode ∧ s.txtLen.toNat ≤ s.cfg.textMax ∧ s.codeN.toNat ≤ s.cfg.nMax) ∨
    ((∃ strict, i = .decode strict) ∧ s.bufLen.toNat ≤ s.cfg.bufMax ∧ s.codeN.toNat ≤ s.cfg.nMax ∧
      s.pad.toNat ≤ 8 * s.bufLen.toNat)

/-- Once those tests have passed, what the checks of the table report is what the command takes. -/
theorem outcome_of_codeTableError {i : Instr} {s : State} {e : CmdError} (hi : PassesLengthTests i s)
    (h : codeTableError s.cfg s.codeTable = some e) : outcome i s = .error e := by
  rcases hi with ⟨rfl, h1, h2⟩ | ⟨⟨strict, rfl⟩, h1, h2, h3⟩
  · simp only [outcome, encodeText, h, if_neg (Nat.not_lt.2 h1), if_neg (Nat.not_lt.2 h2)]
  · simp only [outcome, decodeBuffer, h, if_neg (Nat.not_lt.2 h1), if_neg (Nat.not_lt.2 h2), if_neg (Nat.not_lt.2 h3)]

/-- Settles O39: each check finds the first entry that fails it, and the checks before it find none. -/
theorem codeTableChecksInOrder : Obligations.CodeTableChecksInOrder := by
  intro i s hi
  have hlen := length_codeTable s
  have raises : ∀ sub j st, codeTableError s.cfg s.codeTable = some (.operand sub j) →
      statusWord false sub.code 6 = st → exec i s = .next { s with status := st, errinfo := BitVec.ofNat 32 j } :=
    fun sub j st h => exec_of_operandError (outcome_of_codeTableError hi h)
  refine ⟨fun j hj => ?_, fun hL => ⟨fun j hj => ?_, fun hB => ⟨fun j hj => ?_, fun hS j hj => ?_⟩⟩⟩
  · refine raises .codeLen j _ ?_ (by decide)
    simp only [codeTableError, badLength_of_firstWith hj]
  · refine raises .codeBits j _ ?_ (by decide)
    simp only [codeTableError, badLength_of_no_badLen hL, badBits_of_firstWith hj]
  · refine raises .dupSym j _ ?_ (by decide)
    have hb := badBits_eq_none.2 (fits_of_no_badBits hB)
    simp only [codeTableError, badLength_of_no_badLen hL, hb, dupSymbol_of_firstWith (by simpa using hlen) hj]
  · refine raises .prefixed j _ ?_ (by decide)
    have hf := fits_of_no_badBits hB
    simp only [codeTableError, badLength_of_no_badLen hL, badBits_eq_none.2 hf, dupSymbol_eq_none.2 hS,
      badPrefix_of_firstWith hlen hf hj]

/-! ## BUILD -/

/-- Settles O32: the four tests of `BUILD` in their order. -/
theorem buildRaises : Obligations.BuildRaises := by
  intro s
  have hlen := length_freqTable s
  refine ⟨fun h => ?_, fun h => ?_, fun j hle hj => ?_, fun hle hd hs => ?_⟩
  · exact exec_of_error (e := lengthError .freqN) (by simp only [outcome, buildTree, if_pos h]) rfl rfl
  · exact exec_of_error (e := .emptyAlphabet) (by simp [outcome, buildTree, h]) rfl rfl
  · have h0 : s.freqN.toNat ≠ 0 := Nat.ne_of_gt (Nat.zero_lt_of_lt hj.1)
    have hdup := dupSymbol_of_firstWith (by simpa using hlen) hj
    refine exec_of_operandError (sub := .dupSym) ?_ (by decide)
    simp only [outcome, buildTree, if_neg (Nat.not_lt.2 hle), if_neg h0, hdup]
  · have h0 : s.freqN.toNat ≠ 0 := by
      intro h0
      rw [List.eq_nil_of_length_eq_zero (hlen.trans h0)] at hs
      simp [totalCount] at hs
    refine exec_of_error (e := .capacity .freqSum) ?_ rfl rfl
    simp only [outcome, buildTree, if_neg (Nat.not_lt.2 hle), if_neg h0, dupSymbol_eq_none.2 hd, if_pos hs]

/-- Settles O29: the arena is the table's leaves and then the merges, a tree of R34. -/
theorem buildMakesTree : Obligations.BuildMakesTree := by
  intro s hc hle h0 hd hs
  have hN : s.freqN.toNat ≠ 0 := fun hz => h0 (BitVec.eq_of_toNat_eq (by simpa using hz))
  have hok := (buildTree_eq_ok (s := s)).2 ⟨hle, hN, hd, hs, rfl⟩
  obtain ⟨-, htree, -, -, hnode, hroot, ⟨ext, hext⟩, hst, hei⟩ := buildTree_result hc hok
  refine ⟨_, State.conclude_ok hok, hst, hei, hnode, hroot, htree, fun i e he => ?_⟩
  have hi : i < (leaves s.freqTable).length := by
    rw [length_leaves]; exact (List.getElem?_eq_some_iff.1 he).1
  refine ⟨leafNode e, ?_, rfl, rfl, toNat_ofNat_of_lt (count_lt_of_total hs e (List.mem_of_getElem? he))⟩
  rw [hext, List.getElem?_append_left hi, leaves, List.getElem?_map, he]
  rfl

/-- The root of the arena that `BUILD` commits carries the sum of the counts (R137). -/
theorem freqAt_root_build {s t : State} (hc : s.cfg.WellFormed) (h : buildTree s = .ok t) :
    freqAt t.arena t.root.toNat = totalCount s.freqTable := by
  obtain ⟨-, htree, -, -, -, hroot, -, -, -⟩ := buildTree_result hc h
  have hlen := length_freqTable s
  rw [hroot, htree.total, totalCount]
  congr 1
  refine List.ext_getElem (by simp [hlen]) fun i h1 h2 => ?_
  simp only [List.length_map] at h2
  simp [freqAt_build hc h (List.getElem?_eq_getElem h2)]

/-- No leaf lies deeper than `n - 1` (R137). -/
theorem ArenaTree.length_leafPath_le {nd : List NodeEntry} {n i : Nat} (h : ArenaTree nd n) (hi : i < n) :
    (pathBits nd (2 * n - 2) nd.length i).length ≤ n - 1 := by
  obtain ⟨hroot, hleaf⟩ := h.length_path (fuel := nd.length) (k := i)
  by_cases hn : 2 ≤ n
  · exact hleaf hi hn
  · omega

/-- Settles O33: the path of a leaf leads to it, and nothing else does. -/
theorem buildTreeProperties : Obligations.BuildTreeProperties := by
  intro s t hc h hst
  have hok : buildTree s = .ok t := outcome_eq_ok h (by rw [hst]; decide)
  obtain ⟨-, htree, -, hsize, -, hroot, -, -, -⟩ := buildTree_result hc hok
  refine ⟨fun i hi => ?_, freqAt_root_build hc hok⟩
  rw [hroot]
  exact ⟨_, htree.descend_leafPath hi, htree.length_leafPath_le hi,
    fun bs hbs => (htree.path_unique hbs (by omega)).symm⟩

/-! ## The parse of a bit string -/

/-- Two parses of the same bits are one: at each code both have the entry whose code stands there (R203). -/
theorem parse_unique {c : Config} {t : List CodeEntry} (hw : CodeWF c t) {es es' : List CodeEntry}
    {rest rest' : List Bool} (hes : ∀ e ∈ es, e ∈ t) (hr : NoCodeLeads t rest) (hes' : ∀ e ∈ es', e ∈ t)
    (hr' : NoCodeLeads t rest') (h : streamOf es' ++ rest' = streamOf es ++ rest) : es' = es ∧ rest' = rest := by
  have hcons : ∀ e (l : List CodeEntry) r, streamOf (e :: l) ++ r = e.code.str ++ (streamOf l ++ r) := by
    simp [streamOf]
  induction es generalizing es' with
  | nil =>
    cases es' with
    | nil => exact ⟨rfl, h⟩
    | cons e' es' =>
      rw [hcons] at h
      exact absurd ⟨_, h⟩ (hr e' (hes' e' List.mem_cons_self))
  | cons e es ih =>
    have he := hes e List.mem_cons_self
    cases es' with
    | nil =>
      rw [hcons] at h
      exact absurd ⟨_, h.symm⟩ (hr' e he)
    | cons e' es' =>
      rw [hcons, hcons] at h
      have he' := hes' e' List.mem_cons_self
      obtain rfl : e' = e := by
        rcases List.prefix_or_prefix_of_prefix ⟨_, h⟩ ⟨_, rfl⟩ with hp | hp
        · exact hw.eq_of_prefix he' he hp
        · exact (hw.eq_of_prefix he he' hp).symm
      obtain ⟨rfl, rfl⟩ := ih (fun d hd => hes d (List.mem_cons_of_mem _ hd))
        (fun d hd => hes' d (List.mem_cons_of_mem _ hd)) (List.append_cancel_left h)
      exact ⟨rfl, rfl⟩

/-- Settles O43: there is a parse, and two parses are one. -/
theorem bitsParseUniquely : Obligations.BitsParseUniquely := by
  intro c t bs hw
  obtain ⟨es, rest, hes, hr, hbs⟩ := exists_parse hw bs
  exact ⟨es, rest, hes, hr, hbs, fun es' rest' hes' hr' hbs' => parse_unique hw hes hr hes' hr' (hbs'.symm.trans hbs)⟩

end Sys2Proof.Machine
end

section
/-! The interface of the block: the command that a written word runs (spec 10_state.md R21, R23), what each location reads
as (R24 to R35, 20_memory.md R64 to R68), and the block after reset (R45). -/

namespace Sys2Proof.Machine

/-! ## Commands at the interface -/

/-- Settles O6: a write of a legal word is the command on the accepted state, and `CMD` reads 0. -/
theorem stepRunsDecodedCommand : Obligations.StepRunsDecodedCommand := by
  refine ⟨fun s w i rest hp hd => ?_, fun s rest hp => ?_⟩
  · rw [step_command hp, State.runCommand_of_decode hd]
    rfl
  · rw [step_read hp, State.hostRead_of_locate (locate_zero _)]
    rfl

theorem encodesLegally (i : Instr) : Laws.EncodesLegally.Statement i := by
  cases i with
  | nop => exact Laws.EncodesLegally.nop
  | count => exact Laws.EncodesLegally.count
  | build => exact Laws.EncodesLegally.build
  | gen => exact Laws.EncodesLegally.gen
  | encode => exact Laws.EncodesLegally.encode
  | decode strict => exact Laws.EncodesLegally.decode strict
  | clear => exact Laws.EncodesLegally.clear

/-- The decoder inverts the encoder (R92, R99). -/
theorem decode_encode (i : Instr) : decode (encode i) = .ok i := by
  obtain ⟨-, -, h⟩ := encodesLegally i
  exact h

/-- A 32-bit word is placed as it is. -/
theorem State.withFetchWord_toNat (s : State) (w : Word) : s.withFetchWord 32 w.toNat = s.issue (commandWrite w) := by
  rw [State.withFetchWord, Nat.mod_eq_of_lt w.isLt, BitVec.ofNat_toNat, BitVec.setWidth_eq]

/-- Settles O7: the placed word is the oldest waiting transaction, and it decodes to its command. -/
theorem placedCommandRunsNext : Obligations.PlacedCommandRunsNext := by
  intro s i
  rw [State.withFetchWord_toNat, step_command rfl, State.runCommand_of_decode (decode_encode i)]
  rfl

/-! ## What locations read as -/

/-- A cell that has been written reads as its value (R74). -/
theorem State.cell_of_read? {s : State} {sp : Space} {m : Memory Word} {i : Nat} {v : Word} (h : m.read? i = some v) :
    s.cell sp m i = v := by
  simp [State.cell, h]

/-- A node entry that has been written reads through its words (R67). -/
theorem State.nodeWord_of_read? {s : State} {k f : Nat} {e : NodeEntry} (h : s.node.read? k = some e) :
    s.nodeWord k f = e.word f := by
  simp only [State.nodeWord, h]

/-- `KIND` is 1 for a leaf and 0 for an internal node (R67). -/
theorem NodeEntry.word_kind (e : NodeEntry) : e.word 1 = if e.leaf = true then 1 else 0 := by
  cases h : e.leaf <;> simp [NodeEntry.word, h]

/-- Settles O12: space by space and register by register. -/
theorem locationsReadAsTheyHold : Obligations.LocationsReadAsTheyHold := by
  intro s
  refine ⟨fun i v h => State.cell_of_read? h, fun j v h => ?_, fun i v h => State.cell_of_read? h,
    fun i v h => State.cell_of_read? h, fun k e h => ?_, fun i v h => State.cell_of_read? h,
    fun i v h => State.cell_of_read? h, fun i w v h => State.cell_of_read? h, rfl, ?_, rfl, rfl, rfl, ?_, rfl, rfl, rfl,
    rfl, rfl, rfl, rfl⟩
  · simp [State.readLoc, State.bufCell, h]
  · simp only [State.readLoc, State.nodeWord_of_read? h]
    exact ⟨rfl, e.word_kind, rfl, rfl⟩
  · simp only [State.readLoc, State.readReg, BitVec.toNat_setWidth]
    omega
  · simp only [State.readLoc, State.readReg, BitVec.toNat_setWidth]
    omega

/-! ## Reset -/

/-- No cell has been written after reset (R45). -/
theorem holds_resetWith {c : Config} {l : Loc} (h : (State.resetWith c).holds l = true) : ∃ r, l = .reg r := by
  cases l with
  | reg r => exact ⟨r, rfl⟩
  | _ => cases h

/-- Settles O16: every register is 0 and every space is empty, so every object is. -/
theorem resetLeavesEmptyBlock : Obligations.ResetLeavesEmptyBlock := by
  intro c
  refine ⟨?_, rfl, rfl, rfl, fun l => holds_resetWith, rfl, rfl, rfl, rfl, rfl⟩
  simp [State.readReg]

end Sys2Proof.Machine
end

section
/-! The address map and its ends (spec 20_memory.md R62 to R69): what is at an address, that a reserved address and a
read-only location ignore writes (R69, R79), what a host read answers (45_control.md R232), and the buffer that `ENCODE`
packs (R70, 43_encode.md R183, R184). -/

namespace Sys2Proof.Machine

/-! ## The address map -/

/-- Settles O8: a location has the address of its region and offset (R62), and lookup inverts that. -/
theorem addressMapIsExact : Obligations.AddressMapIsExact := by
  intro c a l hc
  constructor
  · intro h
    obtain ⟨hl, hplace⟩ := locate_eq_some.1 h
    refine ⟨hl, BitVec.eq_of_toNat_eq ?_⟩
    rw [Loc.toNat_addr hc hl, hplace]
    exact Nat.div_add_mod' _ _
  · rintro ⟨hl, rfl⟩
    exact locate_addr hc hl

/-- Where no location has the address, it names none. -/
theorem locate_eq_none_of_addr_ne {c : Config} {a : Addr} (hc : c.WellFormed)
    (h : ∀ l : Loc, l.valid c = true → l.addr c ≠ a) : locate c a = none :=
  Option.eq_none_iff_forall_ne_some.2 fun l hloc =>
    have ⟨hl, ha⟩ := (addressMapIsExact c a l hc).1 hloc
    h l hl ha

/-! ## Reserved addresses -/

/-- The reserved addresses of R69, by region and offset. -/
def ReservedAddr (c : Config) (a : Addr) : Prop :=
  let region := a.toNat / 2 ^ 20
  let off := a.toNat % 2 ^ 20
  0x6 ≤ region ∨ (region = 0x0 ∧ 0xC < off) ∨ (region = 0x1 ∧ c.textMax ≤ off) ∨
    (region = 0x2 ∧ c.bufMax ≤ off) ∨ (region = 0x3 ∧ 2 * c.nMax ≤ off) ∨ (region = 0x4 ∧ 4 * c.nodeMax ≤ off) ∨
    (region = 0x5 ∧ (c.nMax * c.cstride ≤ off ∨ 2 + c.cw ≤ off % c.cstride))

theorem ReservedAddr.locate_eq_none {c : Config} {a : Addr} (h : ReservedAddr c a) : locate c a = none := by
  simp only [ReservedAddr] at h
  simp only [locate]
  generalize a.toNat / 2 ^ 20 = region at h ⊢
  generalize a.toNat % 2 ^ 20 = off at h ⊢
  rcases h with hr | ⟨rfl, ho⟩ | ⟨rfl, ho⟩ | ⟨rfl, ho⟩ | ⟨rfl, ho⟩ | ⟨rfl, ho⟩ | ⟨rfl, ho⟩
  · simp (disch := omega) only [if_neg]
  · simp [Reg.at?_eq_none.2 ho]
  · simp [ho]
  · simp [ho]
  · simp [ho]
  · simp [ho]
  · have hout : ¬ (off < c.nMax * c.cstride ∧ off % c.cstride < 2 + c.cw) := by omega
    simpa using hout

/-- Settles O9: a reserved address names no location, so it is not `CMD` either. -/
theorem reservedAddressesAreInert : Obligations.ReservedAddressesAreInert := by
  intro s a rest _ hres
  have hloc : locate (s.accept rest).cfg a = none := ReservedAddr.locate_eq_none hres
  refine ⟨fun hp => ?_, fun v hp => ?_⟩
  · rw [step_read hp, State.hostRead_reserved hloc]
    rfl
  · have ha : a ≠ 0 := by
      rintro rfl
      rw [locate_zero] at hloc
      cases hloc
    rw [step_write hp ha, State.hostWrite_reserved hloc]

/-! ## Read-only locations -/

/-- A write to a location that keeps no written bits stores nothing (R23, R79). -/
theorem State.writeLoc_of_not_writable (s : State) {l : Loc} (v : Word) (h : l.writable = false) :
    s.writeLoc l v = s := by
  cases l with
  | reg r =>
    cases r with
    | txtLen | bufLen | pad | freqN | codeN => cases h
    | _ => rfl
  | nodeFreq | nodeKind | nodeA | nodeB => rfl
  | _ => cases h

/-- Only `CMD` is at its address. -/
theorem addr_ne_zero {c : Config} (hc : c.WellFormed) {l : Loc} (hl : l.valid c = true) (hcmd : l ≠ .reg .cmd) :
    l.addr c ≠ 0 := fun h0 => by
  have hloc := locate_addr hc hl
  rw [h0, locate_zero, Option.some.injEq] at hloc
  exact hcmd hloc.symm

/-- The locations of R79 keep no written bits and are not `CMD`. -/
theorem not_writable_of_readOnly {l : Loc}
    (h : l ∈ [Loc.reg .status, .reg .errinfo, .reg .nodeN, .reg .root, .reg .cfgNMax, .reg .cfgTextMax, .reg .cfgBufMax] ∨
      ∃ k, l = .nodeFreq k ∨ l = .nodeKind k ∨ l = .nodeA k ∨ l = .nodeB k) :
    l.writable = false ∧ l ≠ .reg .cmd := by
  rcases h with hreg | ⟨k, rfl | rfl | rfl | rfl⟩
  · revert l
    decide
  all_goals exact ⟨rfl, nofun⟩

/-- Settles O10: the listed locations are not writable, and none of them is `CMD`. -/
theorem readOnlyWritesAreIgnored : Obligations.ReadOnlyWritesAreIgnored := by
  intro s l v rest hc hl hro hp
  obtain ⟨hw, hcmd⟩ := not_writable_of_readOnly hro
  have hloc : locate (s.accept rest).cfg (l.addr s.cfg) = some l := locate_addr hc hl
  rw [step_write hp (addr_ne_zero hc hl hcmd), State.hostWrite_of_locate hloc, State.writeLoc_of_not_writable _ v hw]

/-! ## Host reads -/

/-- Settles O11: the read looks the address up, and the map is exact. -/
theorem hostReadReturnsLocation : Obligations.HostReadReturnsLocation := by
  intro s a rest hc hp
  refine ⟨(s.accept rest).hostRead a, step_read hp, ?_, fun h => ?_⟩
  · rintro l hl rfl
    exact State.hostRead_of_locate (locate_addr hc hl)
  · exact State.hostRead_reserved (locate_eq_none_of_addr_ne hc h)

/-! ## The packed buffer -/

theorem padFor_eq (total : Nat) : padFor total = (8 - total % 8) % 8 := by
  simp only [padFor, bytesFor]
  omega

/-- ENCODE writes every byte of the buffer it commits (R180). -/
theorem State.read?_buf_commitBuffer (s : State) {stream : List Bool} {j : Nat} (h : j < bytesFor stream.length) :
    ((s.commitBuffer stream).buf.read? j).isSome = true := by
  simp only [State.commitBuffer_fields, Memory.read?_writeFrom, length_packBytes]
  rw [if_pos (by omega)]
  simpa using h

/-- Settles O40: the command commits the stream of the entries that spell the text, whose length is the sum of theirs. -/
theorem encodePacksCodes : Obligations.EncodePacksCodes := by
  intro s es hc hlen hN hw hsp hcap
  rw [← length_streamOf] at hcap ⊢
  have hok := encodeText_eq_ok.2 ⟨hlen, hN, hw, es, hsp, hcap, rfl⟩
  obtain ⟨hbits, hbl, hpad⟩ := commitBuffer_result hc hcap
  refine ⟨_, State.conclude_ok hok, statusOk_eq, rfl, hbl, hpad.trans (padFor_eq _), ?_, fun j hj => ?_⟩
  · rw [hbits, hpad]
    rfl
  · exact s.read?_buf_commitBuffer (hbl ▸ hj)

end Sys2Proof.Machine
end

section
/-! The command words (spec 30_encoding.md R90 to R99): the words that a row of the opcode map accepts, and that the decoder
and the encoder are inverse to each other. -/

namespace Sys2Proof

/-! ## The words of the commands -/

@[simp] theorem encode_nop : encode .nop = 0x00000000 := rfl

@[simp] theorem encode_count : encode .count = 0x00000001 := rfl

@[simp] theorem encode_build : encode .build = 0x00000002 := rfl

@[simp] theorem encode_gen : encode .gen = 0x00000003 := rfl

@[simp] theorem encode_encode : encode .encode = 0x00000004 := rfl

@[simp] theorem encode_clear : encode .clear = 0x0000000F := rfl

/-- A word is one of `DECODE` or `DECODE.S` when it is one of the two, and its bit 8 says which (R91). -/
theorem encode_decode_eq_iff {w : Word} {strict : Bool} :
    encode (.decode strict) = w ↔ (w = 0x00000005 ∨ w = 0x00000105) ∧ strict = w.getLsbD 8 := by
  constructor
  · rintro rfl
    cases strict <;> decide
  · rintro ⟨rfl | rfl, rfl⟩ <;> rfl

/-! ## The rows of the opcode map -/

/-- The mask of every row but `DECODE`'s keeps the whole word. -/
@[simp] theorem and_fullMask (w : Word) : w &&& 0xFFFFFFFF = w := BitVec.and_allOnes

/-- The mask of `DECODE` leaves out bit 8 and no other, so two words match. -/
theorem and_decodeMask_eq_iff {w : Word} : w &&& 0xFFFFFEFF = 0x00000005 ↔ w = 0x00000005 ∨ w = 0x00000105 := by
  constructor
  · intro h
    have hbit : w &&& 0x00000100 = if w.getLsbD 8 then 0x00000100 else 0 := BitVec.and_twoPow w 8
    have hsplit : w = 0x00000005 ||| w &&& 0x00000100 := by
      rw [← h, ← BitVec.and_or_distrib_left]
      exact (and_fullMask w).symm
    rw [hsplit, hbit]
    cases w.getLsbD 8 <;> decide
  · rintro (rfl | rfl) <;> rfl

/-- Every mask keeps the opcode, so a row accepts only words with its own (R90, R92). -/
theorem OpcodeRow.op_eq_of_accepts {r : OpcodeRow} {w : Word} (hr : r ∈ opcodeMap) (h : r.accepts w = true) :
    w.extractLsb' 0 4 = r.pattern.extractLsb' 0 4 := by
  have hmask : ∀ r ∈ opcodeMap, r.mask.extractLsb' 0 4 = BitVec.allOnes 4 := by decide
  rw [← beq_iff_eq.1 h, BitVec.extractLsb'_and, hmask r hr, BitVec.and_allOnes]

/-- No word is accepted by two rows, since no two rows have one opcode (R99). -/
theorem OpcodeRow.eq_of_accepts {r r' : OpcodeRow} {w : Word} (hr : r ∈ opcodeMap) (hr' : r' ∈ opcodeMap)
    (h : r.accepts w = true) (h' : r'.accepts w = true) : r = r' := by
  have hop : ∀ r ∈ opcodeMap, ∀ r' ∈ opcodeMap,
      r.pattern.extractLsb' 0 4 = r'.pattern.extractLsb' 0 4 → r = r' := by decide
  exact hop r hr r' hr' ((op_eq_of_accepts hr h).symm.trans (op_eq_of_accepts hr' h'))

/-- The command that a row gives for a word it accepts has that word (R92). -/
theorem OpcodeRow.encode_of_accepts {r : OpcodeRow} {w : Word} {i : Instr} (hr : r ∈ opcodeMap)
    (h : r.accepts w = true) (hi : r.instr w = some i) : encode i = w := by
  have hmask : ∀ r ∈ opcodeMap, r.mask = 0xFFFFFFFF ∨ r = ⟨"DECODE", 0x00000005, 0xFFFFFEFF⟩ := by decide
  have hpattern : ∀ r ∈ opcodeMap, (r.instr r.pattern).map encode = some r.pattern := by decide
  have hw : w &&& r.mask = r.pattern := beq_iff_eq.1 h
  rcases hmask r hr with hfull | rfl
  · obtain rfl : w = r.pattern := by rw [← hw, hfull, and_fullMask]
    simpa [hi] using hpattern r hr
  · obtain rfl : .decode (w.getLsbD 8) = i := Option.some.inj hi
    exact encode_decode_eq_iff.2 ⟨and_decodeMask_eq_iff.1 hw, rfl⟩

/-! ## The decoder -/

/-- What the decoder answers: the command of a row that accepts the word, or that the word is illegal (R99). -/
theorem decode_cases (w : Word) :
    (∃ r ∈ opcodeMap, r.accepts w = true ∧ ∃ i, r.instr w = some i ∧ decode w = .ok i) ∨
      decode w = .error (.illegalCommand w) := by
  unfold decode
  cases hf : opcodeMap.find? (fun r => r.accepts w) with
  | none => exact .inr rfl
  | some r =>
    have hacc := List.find?_some hf
    cases hi : r.instr w with
    | none => simp [hi]
    | some i => exact .inl ⟨r, List.mem_of_find?_eq_some hf, hacc, i, hi, by simp [hi]⟩

theorem decode_eq_illegal {w : Word} (h : ∀ i, decode w ≠ .ok i) : decode w = .error (.illegalCommand w) := by
  rcases decode_cases w with ⟨r, -, -, i, -, hd⟩ | hd
  · exact absurd hd (h i)
  · exact hd

/-- A word decodes to the one command that encodes to it. -/
theorem decode_eq_ok_iff {w : Word} {i : Instr} : decode w = .ok i ↔ encode i = w := by
  constructor
  · intro h
    rcases decode_cases w with ⟨r, hr, hacc, j, hj, hd⟩ | hd
    · obtain rfl : j = i := Except.ok.inj (hd.symm.trans h)
      exact OpcodeRow.encode_of_accepts hr hacc hj
    · exact nomatch hd.symm.trans h
  · rintro rfl
    exact Machine.decode_encode i

theorem decode_eq_ok_iff_and_fullMask {w : Word} {i : Instr} : decode w = .ok i ↔ w &&& 0xFFFFFFFF = encode i := by
  rw [decode_eq_ok_iff, and_fullMask, eq_comm]

/-! ## Legal and illegal words -/

/-- The words of the commands are the eight legal ones (R92). -/
theorem exists_encode_eq_iff {w : Word} :
    (∃ i, encode i = w) ↔
      w ∈ [0x00000000, 0x00000001, 0x00000002, 0x00000003, 0x00000004, 0x00000005, 0x00000105, 0x0000000F] := by
  constructor
  · rintro ⟨i, rfl⟩
    cases i with
    | decode strict => cases strict <;> decide
    | _ => decide
  · simp only [List.mem_cons, List.not_mem_nil, or_false]
    rintro (rfl | rfl | rfl | rfl | rfl | rfl | rfl | rfl)
    exacts [⟨.nop, rfl⟩, ⟨.count, rfl⟩, ⟨.build, rfl⟩, ⟨.gen, rfl⟩, ⟨.encode, rfl⟩, ⟨.decode false, rfl⟩,
      ⟨.decode true, rfl⟩, ⟨.clear, rfl⟩]

/-- The check of a word's fields is that none of the conditions of R93 holds. -/
theorem CommandFields.wf_iff (f : CommandFields) :
    f.wf = true ↔ f.rsv1 = 0 ∧ f.rsv0 = 0 ∧ ¬(0x6 ≤ f.op.toNat ∧ f.op.toNat ≤ 0xE) ∧ ¬(f.s = true ∧ f.op ≠ 0x5) := by
  have hge : 0x6 ≤ f.op ↔ 0x6 ≤ f.op.toNat := BitVec.le_def
  have hle : f.op ≤ 0xE ↔ f.op.toNat ≤ 0xE := BitVec.le_def
  simp [CommandFields.wf, ← hge, ← hle, and_assoc, imp_iff_not_or]

/-- The encoder obeys the rules of the fields, so a word that breaks one is illegal (R93). -/
theorem decode_of_not_wf {w : Word} (h : ¬(fieldsOf w).wf = true) : decode w = .error (.illegalCommand w) := by
  refine decode_eq_illegal fun i hi => h ?_
  obtain ⟨hwf, hfields, -⟩ := Machine.encodesLegally i
  rw [← decode_eq_ok_iff.1 hi, hfields]
  exact hwf

/-- Each of the conditions of R93 makes a word illegal. -/
theorem decode_of_illegal {w : Word}
    (h : w.extractLsb' 9 23 ≠ 0 ∨ w.extractLsb' 4 4 ≠ 0 ∨
      (0x6 ≤ (w.extractLsb' 0 4).toNat ∧ (w.extractLsb' 0 4).toNat ≤ 0xE) ∨
      (w.getLsbD 8 = true ∧ w.extractLsb' 0 4 ≠ 0x5)) : decode w = .error (.illegalCommand w) := by
  refine decode_of_not_wf fun hwf => ?_
  obtain ⟨hrsv1, hrsv0, hop, hs⟩ := (CommandFields.wf_iff _).1 hwf
  rcases h with h | h | h | h
  exacts [h hrsv1, h hrsv0, hop h, hs h]

/-- `IllegalCommandError` has code 4 and no sub-code (R240, R243). -/
theorem status_illegalCommand (w : Word) : (Machine.CmdError.illegalCommand w).status = 0x004 := by
  change Machine.statusWord false 0 4 = 0x004
  decide

/-! ## The statements -/

/-- Settles O5: each row gives a command of the words it accepts, and the encoder's words decode. -/
theorem decodeEncodeAgree : Obligations.DecodeEncodeAgree := fun _ _ => decode_eq_ok_iff

/-- Settles O2: a word decodes to a command when it is the command's, which is what the row's mask and match say. -/
theorem opcodeMapRows : Obligations.OpcodeMapRows := by
  intro w
  refine ⟨decode_eq_ok_iff_and_fullMask, decode_eq_ok_iff_and_fullMask, decode_eq_ok_iff_and_fullMask,
    decode_eq_ok_iff_and_fullMask, decode_eq_ok_iff_and_fullMask, ?_, decode_eq_ok_iff_and_fullMask,
    (exists_congr fun _ => decode_eq_ok_iff).trans exists_encode_eq_iff⟩
  rw [decode_eq_ok_iff, encode_decode_eq_iff, and_decodeMask_eq_iff, and_iff_left rfl]

/-- Settles O3: a word that meets a condition of R93 does not decode, so the write takes the error. -/
theorem illegalWordsRaise : Obligations.IllegalWordsRaise := by
  intro s w rest hp h
  rw [Machine.step_command hp, Machine.State.runCommand_of_error (decode_of_illegal h)]
  exact congrArg _ (Machine.State.raise_eq (status_illegalCommand w) rfl)

/-- Settles O4: decoding inverts encoding, answers "illegal" elsewhere, and the rows have different opcodes. -/
theorem decodingIsTotal : Obligations.DecodingIsTotal := by
  refine ⟨fun w i => ?_, fun w => decode_eq_illegal, fun w r hr r' hr' => OpcodeRow.eq_of_accepts hr hr'⟩
  rw [decode_eq_ok_iff]
  cases i with
  | decode strict => simp [encode_decode_eq_iff]
  | _ => rw [eq_comm]; simp

/-- Settles O1: five words are those of their commands, and 0x6 has a reserved opcode. -/
theorem wordsDecodeAsTabled : Obligations.WordsDecodeAsTabled :=
  ⟨Machine.decode_encode .count, Machine.decode_encode .encode, Machine.decode_encode (.decode false),
    Machine.decode_encode (.decode true), Machine.decode_encode .clear,
    decode_of_illegal (.inr (.inr (.inl (by decide))))⟩

end Sys2Proof
end

section
/-! The table that `COUNT` commits and the errors of `COUNT` (spec 40_count.md R110 to R112). -/

namespace Sys2Proof.Machine

/-- The entries of a text's table: one for each symbol of the text, with its number of occurrences. -/
theorem mem_countTable {xs : List Word} {e : FreqEntry} :
    e ∈ countTable xs ↔ e.sym ∈ xs ∧ e.count = xs.count e.sym := by
  rw [countTable, List.mem_map]
  constructor
  · rintro ⟨x, hx, rfl⟩
    exact ⟨mem_firstSeen.1 hx, rfl⟩
  · rintro ⟨hmem, hcount⟩
    exact ⟨e.sym, mem_firstSeen.2 hmem, by rw [← hcount]⟩

/-- What a successful `COUNT` leaves in `FREQ` and `FREQ_N` (R110). -/
theorem countFrequencies_result {s t : State} (hc : s.cfg.WellFormed) (h : countFrequencies s = .ok t) :
    t.freqTable = countTable s.text ∧ t.freqN.toNat = (firstSeen s.text).length := by
  obtain ⟨hlen, hfs, rfl⟩ := countFrequencies_eq_ok.1 h
  have htable := State.freqTable_count hc hlen hfs
  exact ⟨htable, by rw [← length_freqTable, htable, length_countTable]⟩

/-- Settles O26: the loop's table is that of the first-seen symbols, and it is what the commit leaves. -/
theorem countTabulatesText : Obligations.CountTabulatesText := by
  intro s hc hlen hfs
  have hok := countFrequencies_eq_ok.2 ⟨hlen, hfs, rfl⟩
  obtain ⟨htable, hN⟩ := countFrequencies_result hc hok
  refine ⟨_, State.conclude_ok hok, statusOk_eq, rfl, hN, ?_, fun e he => ?_⟩
  · rw [htable, countTable_syms]
  · rw [htable] at he
    exact (mem_countTable.1 he).2

/-- Settles O27: the properties of the first-seen symbols and their counts, read off the committed table. -/
theorem countConservesFrequency : Obligations.CountConservesFrequency := by
  intro s t hc h hst
  have hok : countFrequencies s = .ok t := outcome_eq_ok h (by rw [hst]; decide)
  obtain ⟨htable, hN⟩ := countFrequencies_result hc hok
  obtain ⟨-, hfs, rfl⟩ := countFrequencies_eq_ok.1 hok
  rw [htable, hN]
  refine ⟨?_, hfs, fun x => ⟨fun hx => ?_, ?_⟩, fun e he => ?_, ?_⟩
  · rw [DistinctSymbols, countTable_syms]
    exact nodup_firstSeen s.text
  · exact ⟨{ sym := x, count := s.text.count x }, mem_countTable.2 ⟨hx, rfl⟩, rfl⟩
  · rintro ⟨e, he, rfl⟩
    exact (mem_countTable.1 he).1
  · obtain ⟨hmem, hcount⟩ := mem_countTable.1 he
    rw [hcount]
    exact List.one_le_count_iff.2 hmem
  · exact (countTable_total s.text).trans (length_text s)

/-- Settles O28: the test of the length comes before the loop, which fails where the symbols do not fit. -/
theorem countRaises : Obligations.CountRaises := by
  intro s
  refine ⟨fun h => ?_, fun hlen hfs => ?_⟩
  · exact exec_of_error (e := lengthError .txtLen) (by simp only [outcome, countFrequencies, if_pos h]) rfl rfl
  · refine exec_of_error (e := .capacity .symbols) ?_ rfl rfl
    simp only [outcome, countFrequencies, if_neg (Nat.not_lt.2 hlen), tally_nil, if_neg (Nat.not_le.2 hfs)]

end Sys2Proof.Machine
end

section
/-! `BUILD` as a whole: what each merge takes, and the table with one entry (spec 41_build.md R131 to R139). -/

namespace Sys2Proof.Machine

/-- Settles O30: the merge loop keeps `MergedLeast`, and the sums stand in the tree it ends with. -/
theorem buildMergesTwoLeast : Obligations.BuildMergesTwoLeast := by
  intro s t hc h hst j e he
  have hok : buildTree s = .ok t := outcome_eq_ok h (by rw [hst]; decide)
  obtain ⟨-, htree, hmerged, -⟩ := buildTree_result hc hok
  obtain ⟨hleft, hright, hne, hleast⟩ := hmerged j e he
  obtain ⟨-, -, -, -, -, hsum⟩ := htree.inner _ e he (Nat.le_add_right _ _)
  refine ⟨hleft, hright, ?_, fun k hk hkl hkr => ?_, hsum⟩
  · exact ((hleast _ hright).resolve_left hne.symm).1
  · exact ((hleast k hk).resolve_left hkl).2.resolve_left hkr

theorem freqEntry_count_lt (s : State) (i : Nat) : (s.freqEntry i).count < 2 ^ 32 := (s.freqCell i 1).isLt

/-- With one entry the loop body never runs (R135). -/
theorem buildNodes_singleton (e : FreqEntry) :
    buildNodes [e] = ([leafNode e], [{ freq := e.count, index := 0 }]) :=
  mergeLoop_stop (a := { freq := e.count, index := 0 }) rfl (by simp [least, initialLive])

/-- Settles O31: one entry passes the four tests, and the arena is its leaf. -/
theorem buildSingleLeaf : Obligations.BuildSingleLeaf := by
  intro s e hc he
  have hN : s.freqN.toNat = 1 := by rw [← length_freqTable, he]; rfl
  have hcount : e.count < 2 ^ 32 := by
    obtain ⟨i, -, rfl⟩ := List.mem_map.1 (show e ∈ s.freqTable by simp [he])
    exact freqEntry_count_lt s i
  have hok := (buildTree_eq_ok (s := s)).2
    ⟨hN ▸ hc.nMax_pos, by omega, by simp [he, DistinctSymbols], by simpa [he, totalCount] using hcount, rfl⟩
  obtain ⟨harena, -, -, -, hnode, hroot, -, hst, -⟩ := buildTree_result hc hok
  have hnodes : (buildNodes s.freqTable).1 = [leafNode e] := by rw [he, buildNodes_singleton]
  rw [hN] at hnode hroot
  exact ⟨_, State.conclude_ok hok, hst, BitVec.eq_of_toNat_eq hnode, BitVec.eq_of_toNat_eq hroot, leafNode e,
    harena.trans hnodes, rfl, rfl, toNat_ofNat_of_lt hcount⟩

end Sys2Proof.Machine
end

section
/-! The heap of `BUILD`: the sifts restore the heap, a pop takes the least element, and the merge loop over the heap makes
the merges of the definition (spec 41_build.md R131, R133, R138). -/

namespace Sys2Proof.Machine

/-! ## The order of R131 as a linear order -/

/-- Frequency, then index: the order of `less`. -/
def LiveNode.key (a : LiveNode) : ℕ ×ₗ ℕ := toLex (a.freq, a.index)

theorem LiveNode.less_iff_key_lt (a b : LiveNode) : a.less b = true ↔ a.key < b.key := by
  rw [LiveNode.less_iff, LiveNode.key, LiveNode.key, Prod.Lex.toLex_lt_toLex]

theorem LiveNode.less_eq_false_iff (a b : LiveNode) : a.less b = false ↔ b.key ≤ a.key := by
  rw [Bool.eq_false_iff, ne_eq, LiveNode.less_iff_key_lt, not_lt]

theorem LiveNode.key_injective : Function.Injective LiveNode.key := by
  rintro ⟨f, i⟩ ⟨g, j⟩ h
  cases h
  rfl

/-- An element with nothing below it is the least one. -/
theorem least_eq_of_key_le {l : List LiveNode} {a : LiveNode} (ha : a ∈ l) (hle : ∀ b ∈ l, a.key ≤ b.key) :
    least l = some a := by
  cases hl : least l with
  | none => rw [least_eq_none.1 hl] at ha; cases ha
  | some c =>
    obtain ⟨hc, hmin⟩ := least_eq_some hl
    have hca := (LiveNode.less_eq_false_iff _ _).1 (hmin a ha)
    rw [LiveNode.key_injective (le_antisymm hca (hle c hc))]

/-- The least element does not depend on the order in which the collection is listed. -/
theorem least_perm {l m : List LiveNode} (h : l.Perm m) {a : LiveNode} (ha : least l = some a) : least m = some a := by
  obtain ⟨hmem, hmin⟩ := least_eq_some ha
  exact least_eq_of_key_le (h.mem_iff.1 hmem)
    fun b hb => (LiveNode.less_eq_false_iff _ _).1 (hmin b (h.mem_iff.2 hb))

/-! ## Two places of an array in order -/

/-- Element `i` is not above element `j`, where there are both. -/
def InOrder (l : List LiveNode) (i j : Nat) : Prop :=
  ∀ x y, l[i]? = some x → l[j]? = some y → x.key ≤ y.key

theorem inOrder_iff {l : List LiveNode} {i j : Nat} {x y : LiveNode} (hx : l[i]? = some x) (hy : l[j]? = some y) :
    InOrder l i j ↔ x.key ≤ y.key := by
  simp [InOrder, hx, hy]

theorem inOrder_refl (l : List LiveNode) (i : Nat) : InOrder l i i := by
  rintro x y hx hy
  rw [Option.some.inj (hx.symm.trans hy)]

theorem inOrder_of_length_le {l : List LiveNode} {i j : Nat} (hj : l.length ≤ j) : InOrder l i j := by
  simp [InOrder, hj]

theorem InOrder.trans {l : List LiveNode} {i j k : Nat} (hij : InOrder l i j) (hjk : InOrder l j k)
    (hj : j < l.length) : InOrder l i k :=
  fun x y hx hy => (hij x _ hx (List.getElem?_eq_getElem hj)).trans (hjk _ y (List.getElem?_eq_getElem hj) hy)

/-- The model's exchange of two elements. -/
theorem set_set_eq_swap {l : List LiveNode} {i j : Nat} {x y : LiveNode} (hx : l[i]? = some x) (hy : l[j]? = some y) :
    (l.set i y).set j x = l.swap i j := by
  obtain ⟨hi, rfl⟩ := List.getElem?_eq_some_iff.1 hx
  obtain ⟨hj, rfl⟩ := List.getElem?_eq_some_iff.1 hy
  exact (List.swap_eq_of_lt hi hj).symm

theorem inOrder_swap {l : List LiveNode} {i j : Nat} (hi : i < l.length) (hj : j < l.length) (a b : Nat) :
    InOrder (l.swap i j) a b ↔ InOrder l (Equiv.swap i j a) (Equiv.swap i j b) := by
  have hget : ∀ k, (l.swap i j)[k]? = l[Equiv.swap i j k]? := by
    intro k
    rw [List.swap_eq_of_lt hi hj, Equiv.swap_apply_def]
    grind
  simp only [InOrder, hget]

/-! ## Heaps (R138): the parent of element `i` is element `(i - 1) / 2` -/

/-- No element is above its children. -/
def IsHeap (l : List LiveNode) : Prop := ∀ j, 0 < j → InOrder l ((j - 1) / 2) j

/-- A heap but for element `i`: all else is in order, also where `i` is passed over. -/
structure HeapBut (l : List LiveNode) (i : Nat) : Prop where
  edge : ∀ j, 0 < j → j ≠ i → (j - 1) / 2 ≠ i → InOrder l ((j - 1) / 2) j
  across : ∀ j, 0 < i → 0 < j → (j - 1) / 2 = i → InOrder l ((i - 1) / 2) j

/-- Element `i` is in order with its parent. -/
def UpOrdered (l : List LiveNode) (i : Nat) : Prop := 0 < i → InOrder l ((i - 1) / 2) i

/-- Element `i` is in order with its children. -/
def DownOrdered (l : List LiveNode) (i : Nat) : Prop := ∀ j, 0 < j → (j - 1) / 2 = i → InOrder l i j

theorem HeapBut.isHeap {l : List LiveNode} {i : Nat} (h : HeapBut l i) (hup : UpOrdered l i) (hdown : DownOrdered l i) :
    IsHeap l := by
  intro j hj
  by_cases hji : j = i
  · subst hji; exact hup hj
  · by_cases hp : (j - 1) / 2 = i
    · rw [hp]; exact hdown j hj hp
    · exact h.edge j hj hji hp

/-- The first element of a heap is not above any other. -/
theorem IsHeap.head_le {l : List LiveNode} (h : IsHeap l) (j : Nat) : InOrder l 0 j := by
  induction j using Nat.strong_induction_on with
  | _ j ih =>
    rcases Nat.eq_zero_or_pos j with rfl | hj
    · exact inOrder_refl l 0
    · intro x y hx hy
      have hjl := (List.getElem?_eq_some_iff.1 hy).1
      exact ((ih ((j - 1) / 2) (by omega)).trans (h j hj) (by omega)) x y hx hy

/-- The first element of a heap is the least one. -/
theorem IsHeap.least_cons {r : LiveNode} {l : List LiveNode} (h : IsHeap (r :: l)) : least (r :: l) = some r := by
  refine least_eq_of_key_le List.mem_cons_self fun b hb => ?_
  obtain ⟨j, hj⟩ := List.mem_iff_getElem?.1 hb
  exact h.head_le j r b rfl hj

/-! ## Sifting up -/

/-- Exchanging element `i` with its parent moves the misplaced element up. -/
theorem HeapBut.swap_parent {l : List LiveNode} {i : Nat} (h : HeapBut l i) (hi : 0 < i) (hil : i < l.length) :
    HeapBut (l.swap i ((i - 1) / 2)) ((i - 1) / 2) := by
  have hpl : (i - 1) / 2 < l.length := by omega
  refine ⟨fun j hj hjp hpp => ?_, fun j hp hj hjp => ?_⟩
  · have hji : j ≠ i := by rintro rfl; exact hpp rfl
    rw [inOrder_swap hil hpl, Equiv.swap_apply_of_ne_of_ne hji hjp]
    by_cases hc : (j - 1) / 2 = i
    · rw [hc, Equiv.swap_apply_left]
      exact h.across j hi hj hc
    · rw [Equiv.swap_apply_of_ne_of_ne hc hpp]
      exact h.edge j hj hji hc
  · have hpar := h.edge _ hp (by omega) (by omega)
    rw [inOrder_swap hil hpl, Equiv.swap_apply_of_ne_of_ne (x := ((i - 1) / 2 - 1) / 2) (by omega) (by omega)]
    by_cases hji : j = i
    · rw [hji, Equiv.swap_apply_left]
      exact hpar
    · rw [Equiv.swap_apply_of_ne_of_ne hji (by omega)]
      refine hpar.trans ?_ hpl
      rw [← hjp]
      exact h.edge j hj hji (by omega)

/-- An element that has moved up is in order with its children: it was less than the parent it replaces. -/
theorem HeapBut.downOrdered_swap_parent {l : List LiveNode} {i : Nat} (h : HeapBut l i) (hi : 0 < i)
    (hil : i < l.length) (hle : InOrder l i ((i - 1) / 2)) : DownOrdered (l.swap i ((i - 1) / 2)) ((i - 1) / 2) := by
  have hpl : (i - 1) / 2 < l.length := by omega
  intro j hj hjp
  rw [inOrder_swap hil hpl, Equiv.swap_apply_right]
  by_cases hji : j = i
  · rw [hji, Equiv.swap_apply_left]
    exact hle
  · rw [Equiv.swap_apply_of_ne_of_ne hji (by omega)]
    refine hle.trans ?_ hpl
    rw [← hjp]
    exact h.edge j hj hji (by omega)

theorem siftUp_perm (fuel : Nat) (l : List LiveNode) (i : Nat) : (siftUp fuel l i).Perm l := by
  induction fuel generalizing l i with
  | zero => rfl
  | succ fuel ih =>
    rw [siftUp]
    split
    · rename_i x p hx hp
      split_ifs
      · rw [set_set_eq_swap hx hp]
        exact (ih _ _).trans (List.swap_perm _ _ _)
      · rfl
    · rfl

/-- Sifting up makes a heap of an array in which only element `i` may be less than its parent. -/
theorem siftUp_isHeap {fuel : Nat} {l : List LiveNode} {i : Nat} (h : HeapBut l i) (hdown : DownOrdered l i)
    (hf : i ≤ fuel) : IsHeap (siftUp fuel l i) := by
  induction fuel generalizing l i with
  | zero => exact h.isHeap (fun hi => absurd hi (Nat.not_lt.2 hf)) hdown
  | succ fuel ih =>
    rw [siftUp]
    split
    · rename_i x p hx hp
      split_ifs with hc
      · obtain ⟨hi, hless⟩ := hc
        have hil := (List.getElem?_eq_some_iff.1 hx).1
        have hle : InOrder l i ((i - 1) / 2) := (inOrder_iff hx hp).2 ((LiveNode.less_iff_key_lt x p).1 hless).le
        rw [set_set_eq_swap hx hp]
        exact ih (h.swap_parent hi hil) (h.downOrdered_swap_parent hi hil hle) (by omega)
      · refine h.isHeap (fun hi => (inOrder_iff hp hx).2 ?_) hdown
        exact (LiveNode.less_eq_false_iff x p).1 (Bool.eq_false_iff.2 fun hless => hc ⟨hi, hless⟩)
    · rename_i hnone
      exact h.isHeap (fun _ p x hp hx => absurd hp (hnone x p hx)) hdown

theorem heapPush_perm (h : List LiveNode) (x : LiveNode) : (heapPush h x).Perm (h ++ [x]) := siftUp_perm _ _ _

theorem heapPush_isHeap {h : List LiveNode} (hh : IsHeap h) (x : LiveNode) : IsHeap (heapPush h x) := by
  have hlen : (h ++ [x]).length = h.length + 1 := List.length_append
  refine siftUp_isHeap ⟨fun j hj hjl _ => ?_, fun j _ _ hjp => ?_⟩ (fun j _ hjp => ?_) le_rfl
  · rcases Nat.lt_or_gt_of_ne hjl with hlt | hgt
    · rw [InOrder, List.getElem?_append_left (by omega), List.getElem?_append_left hlt]
      exact hh j hj
    · exact inOrder_of_length_le (by omega)
  · exact inOrder_of_length_le (by omega)
  · exact inOrder_of_length_le (by omega)

/-! ## Sifting down -/

/-- Exchanging element `i` with its least child `c` moves the misplaced element down. -/
theorem HeapBut.swap_child {l : List LiveNode} {i c : Nat} (h : HeapBut l i) (hc : 0 < c) (hci : (c - 1) / 2 = i)
    (hcl : c < l.length) (hleast : ∀ j, 0 < j → (j - 1) / 2 = i → InOrder l c j) : HeapBut (l.swap i c) c := by
  have hil : i < l.length := by omega
  refine ⟨fun j hj hjc hpc => ?_, fun j _ hj hjp => ?_⟩
  · rw [inOrder_swap hil hcl]
    by_cases hji : j = i
    · subst hji
      rw [Equiv.swap_apply_left, Equiv.swap_apply_of_ne_of_ne (by omega) hpc]
      exact h.across c hj hc hci
    · rw [Equiv.swap_apply_of_ne_of_ne hji hjc]
      by_cases hp : (j - 1) / 2 = i
      · rw [hp, Equiv.swap_apply_left]
        exact hleast j hj hp
      · rw [Equiv.swap_apply_of_ne_of_ne hp hpc]
        exact h.edge j hj hji hp
  · rw [inOrder_swap hil hcl, hci, Equiv.swap_apply_left, Equiv.swap_apply_of_ne_of_ne (by omega) (by omega), ← hjp]
    exact h.edge j hj (by omega) (by omega)

theorem upOrdered_swap_child {l : List LiveNode} {i c : Nat} (hci : (c - 1) / 2 = i) (hil : i < l.length)
    (hcl : c < l.length) (hle : InOrder l c i) : UpOrdered (l.swap i c) c := by
  intro _
  rw [inOrder_swap hil hcl, hci, Equiv.swap_apply_left, Equiv.swap_apply_right]
  exact hle

/-- The lesser of two elements is one of them and above neither; it is the second only where there is one. -/
theorem lesserOf_spec (l : List LiveNode) (s k : Nat) :
    InOrder l (lesserOf l s k) s ∧ InOrder l (lesserOf l s k) k ∧
      (lesserOf l s k = s ∨ lesserOf l s k = k ∧ s < l.length ∧ k < l.length) := by
  unfold lesserOf
  split
  · rename_i x y hx hy
    split_ifs with hless
    · have hle : InOrder l k s := (inOrder_iff hx hy).2 ((LiveNode.less_iff_key_lt x y).1 hless).le
      exact ⟨hle, inOrder_refl l k, .inr ⟨rfl, (List.getElem?_eq_some_iff.1 hy).1, (List.getElem?_eq_some_iff.1 hx).1⟩⟩
    · have hle := (LiveNode.less_eq_false_iff x y).1 (Bool.eq_false_iff.2 hless)
      exact ⟨inOrder_refl l s, (inOrder_iff hy hx).2 hle, .inl rfl⟩
  · rename_i hnone
    exact ⟨inOrder_refl l s, fun y x hy hx => absurd hy (hnone x y hx), .inl rfl⟩

theorem InOrder.lesserOf {l : List LiveNode} {s j : Nat} (h : InOrder l s j) (k : Nat) :
    InOrder l (lesserOf l s k) j := by
  obtain ⟨hle, -, heq | ⟨-, hs, -⟩⟩ := lesserOf_spec l s k
  · rw [heq]; exact h
  · exact hle.trans h hs

/-- The place `pop` compares element `i` with: the least of the element and its children. -/
def leastBelow (l : List LiveNode) (i : Nat) : Nat := lesserOf l (lesserOf l i (2 * i + 1)) (2 * i + 2)

theorem leastBelow_inOrder_self (l : List LiveNode) (i : Nat) : InOrder l (leastBelow l i) i :=
  (lesserOf_spec l i (2 * i + 1)).1.lesserOf _

theorem leastBelow_inOrder_child (l : List LiveNode) (i j : Nat) (hj : 0 < j) (hji : (j - 1) / 2 = i) :
    InOrder l (leastBelow l i) j := by
  obtain rfl | rfl : j = 2 * i + 1 ∨ j = 2 * i + 2 := by omega
  · exact (lesserOf_spec l i (2 * i + 1)).2.1.lesserOf _
  · exact (lesserOf_spec l _ (2 * i + 2)).2.1

theorem leastBelow_cases (l : List LiveNode) (i : Nat) :
    leastBelow l i = i ∨
      0 < leastBelow l i ∧ (leastBelow l i - 1) / 2 = i ∧ i < l.length ∧ leastBelow l i < l.length := by
  have h1 := (lesserOf_spec l i (2 * i + 1)).2.2
  have h2 := (lesserOf_spec l (lesserOf l i (2 * i + 1)) (2 * i + 2)).2.2
  unfold leastBelow
  omega

/-- One turn of the loop of `pop`. -/
theorem siftDown_succ (fuel : Nat) (l : List LiveNode) (i : Nat) :
    siftDown (fuel + 1) l i =
      if leastBelow l i = i then l else siftDown fuel (l.swap i (leastBelow l i)) (leastBelow l i) := by
  rw [siftDown]
  by_cases hs : leastBelow l i = i
  · rw [if_pos hs]
    exact if_pos hs
  · obtain ⟨-, -, hi, hsl⟩ := (leastBelow_cases l i).resolve_left hs
    have hx := List.getElem?_eq_getElem hi
    have hy := List.getElem?_eq_getElem hsl
    rw [if_neg hs, ← set_set_eq_swap hx hy]
    refine (if_neg hs).trans ?_
    unfold leastBelow at hy ⊢
    rw [hx, hy]

theorem siftDown_perm (fuel : Nat) (l : List LiveNode) (i : Nat) : (siftDown fuel l i).Perm l := by
  induction fuel generalizing l i with
  | zero => rfl
  | succ fuel ih =>
    rw [siftDown_succ]
    split_ifs
    · rfl
    · exact (ih _ _).trans (List.swap_perm _ _ _)

/-- Sifting down makes a heap of an array in which only element `i` may be above its children. -/
theorem siftDown_isHeap {fuel : Nat} {l : List LiveNode} {i : Nat} (h : HeapBut l i) (hup : UpOrdered l i)
    (hf : l.length ≤ i + fuel) : IsHeap (siftDown fuel l i) := by
  induction fuel generalizing l i with
  | zero =>
    exact h.isHeap hup fun j hj hji => inOrder_of_length_le (by omega)
  | succ fuel ih =>
    rw [siftDown_succ]
    split_ifs with hs
    · refine h.isHeap hup fun j hj hji => ?_
      simpa only [hs] using leastBelow_inOrder_child l i j hj hji
    · obtain ⟨h0, hpar, hil, hsl⟩ := (leastBelow_cases l i).resolve_left hs
      refine ih (h.swap_child h0 hpar hsl (leastBelow_inOrder_child l i)) ?_ ?_
      · exact upOrdered_swap_child hpar hil hsl (leastBelow_inOrder_self l i)
      · rw [List.length_swap]
        omega

/-! ## A pop -/

theorem heapPop_append (r : LiveNode) (l : List LiveNode) (y : LiveNode) :
    heapPop (r :: (l ++ [y])) = some (r, siftDown (l.length + 1) (y :: l) 0) := by
  cases l with
  | nil => rfl
  | cons x l => simp [heapPop, List.getLast?_cons, List.dropLast_cons_of_ne_nil]

theorem heapPop_eq_none {h : List LiveNode} : heapPop h = none ↔ h = [] := by
  rcases h with _ | ⟨r, _ | ⟨x, h⟩⟩ <;> simp [heapPop]

/-- The last element in the place of the first leaves a heap but for that place. -/
theorem IsHeap.heapBut_last {r y : LiveNode} {l : List LiveNode} (h : IsHeap (r :: (l ++ [y]))) :
    HeapBut (y :: l) 0 := by
  refine ⟨fun j hj _ hp x z hx hz => ?_, fun j h0 => absurd h0 (Nat.lt_irrefl 0)⟩
  have hget : ∀ k w, k ≠ 0 → (y :: l)[k]? = some w → (r :: (l ++ [y]))[k]? = some w := by
    rintro (_ | k) w hk hw
    · exact absurd rfl hk
    · exact (List.getElem?_append_left (List.getElem?_eq_some_iff.1 hw).1).trans hw
  exact h j hj x z (hget _ x hp hx) (hget j z (by omega) hz)

/-- A pop takes the least element and leaves a heap of the others. -/
theorem heapPop_spec {h h' : List LiveNode} {a : LiveNode} (hh : IsHeap h) (hpop : heapPop h = some (a, h')) :
    least h = some a ∧ h'.Perm (h.erase a) ∧ IsHeap h' := by
  cases h with
  | nil => cases hpop
  | cons r l =>
    rcases List.eq_nil_or_concat' l with rfl | ⟨l, y, rfl⟩
    · cases hpop
      exact ⟨rfl, by simp, fun j _ => inOrder_of_length_le (Nat.zero_le j)⟩
    · rw [heapPop_append] at hpop
      cases hpop
      refine ⟨hh.least_cons, ?_, siftDown_isHeap hh.heapBut_last (fun h0 => absurd h0 (Nat.lt_irrefl 0)) (by simp)⟩
      rw [List.erase_cons_head]
      exact (siftDown_perm _ _ _).trans (List.perm_append_singleton y l).symm

/-! ## The merge loop -/

theorem eq_of_perm_of_length_le_one {l m : List LiveNode} (h : l.Perm m) (hm : m.length ≤ 1) : l = m := by
  match m, hm with
  | [], _ => exact h.eq_nil
  | [a], _ => exact h.eq_singleton

/-- Over a heap of the live nodes the merge loop makes the merges of the definition. -/
theorem heapMerge_eq_mergeLoop {fuel : Nat} {nd : List NodeEntry} {h live : List LiveNode} (hh : IsHeap h)
    (hp : h.Perm live) (hf : live.length ≤ fuel + 1) : heapMerge fuel nd h = mergeLoop fuel nd live := by
  induction fuel generalizing nd h live with
  | zero =>
    rw [eq_of_perm_of_length_le_one hp hf]; rfl
  | succ fuel ih =>
    cases hpop : heapPop h with
    | none =>
      obtain rfl := heapPop_eq_none.1 hpop
      rw [hp.symm.eq_nil]; rfl
    | some ah =>
      obtain ⟨a, h1⟩ := ah
      obtain ⟨ha, hp1, hh1⟩ := heapPop_spec hh hpop
      have haLive := least_perm hp ha
      have hp1' : h1.Perm (live.erase a) := hp1.trans (hp.erase a)
      have hlen := List.length_erase_of_mem (least_eq_some haLive).1
      cases hpop1 : heapPop h1 with
      | none =>
        obtain rfl := heapPop_eq_none.1 hpop1
        have hnil := hp1'.symm.eq_nil
        rw [hnil, List.length_nil] at hlen
        rw [mergeLoop_stop haLive (least_eq_none.2 hnil), ← eq_of_perm_of_length_le_one hp (by omega)]
        simp only [heapMerge, hpop, hpop1]
      | some bh =>
        obtain ⟨b, h2⟩ := bh
        obtain ⟨hb, hp2, hh2⟩ := heapPop_spec hh1 hpop1
        have hbLive := least_perm hp1' hb
        have hlen' := List.length_erase_of_mem (least_eq_some hbLive).1
        rw [mergeLoop_merge haLive hbLive]
        simp only [heapMerge, hpop, hpop1]
        refine ih (heapPush_isHeap hh2 _) ?_ ?_
        · exact (heapPush_perm _ _).trans ((hp2.trans (hp1'.erase b)).append_right _)
        · simp only [List.length_append, List.length_singleton]
          have := List.length_pos_of_mem (least_eq_some hbLive).1
          omega

/-- Pushing a list of elements one by one makes a heap of them. -/
theorem foldl_heapPush {h : List LiveNode} (hh : IsHeap h) (l : List LiveNode) :
    IsHeap (l.foldl heapPush h) ∧ (l.foldl heapPush h).Perm (h ++ l) := by
  induction l generalizing h with
  | nil => simpa using hh
  | cons x l ih =>
    obtain ⟨h1, h2⟩ := ih (heapPush_isHeap hh x)
    refine ⟨h1, h2.trans ?_⟩
    simpa using (heapPush_perm h x).append_right l

/-- Settles O55: the pushed leaves are a heap of the initial collection, and over a heap both loops are one. -/
theorem heapBuildsSameTree : Obligations.HeapBuildsSameTree := by
  intro t
  obtain ⟨hheap, hperm⟩ := foldl_heapPush (h := []) (fun j _ => inOrder_of_length_le (Nat.zero_le j)) (initialLive t)
  exact heapMerge_eq_mergeLoop hheap hperm (by simp)

end Sys2Proof.Machine
end

section
/-! The table of `GEN`: which leaf a code leads to, the entries of the table, and the code as a whole: every infinite bit
sequence begins with exactly one of its strings (spec 42_gen.md R160 to R166). -/

namespace Sys2Proof.Machine

/-! ## The code of a leaf -/

/-- Where there are several leaves, a bit string that leads to a leaf is the leaf's code string (R161). -/
theorem ArenaTree.eq_str_leafCode {nd : List NodeEntry} {n i : Nat} {bs : List Bool} (h : ArenaTree nd n) (hn : 2 ≤ n)
    (hd : descend nd (2 * n - 2) bs = some i) : bs = (leafCode nd (2 * n - 2) n i).str := by
  have := h.size
  rw [str_leafCode (by omega), h.path_unique hd (by omega)]

/-- Where there are several leaves, a code without stray bits is that of leaf `i` when it leads from the root to it (R161). -/
theorem ArenaTree.leafCode_eq_iff {nd : List NodeEntry} {n i : Nat} {c : Code} (h : ArenaTree nd n) (hn : 2 ≤ n)
    (hi : i < n) (hc : c.fits) : leafCode nd (2 * n - 2) n i = c ↔ descend nd (2 * n - 2) c.str = some i := by
  constructor
  · rintro rfl
    rw [str_leafCode (by omega)]
    exact h.descend_leafPath hi
  · exact fun hd => Code.ext_of_str (fits_leafCode _ _ _ _) hc (h.eq_str_leafCode hn hd).symm

/-- The code of a leaf leads to it (R161). -/
theorem ArenaTree.descend_str_leafCode {nd : List NodeEntry} {n i : Nat} (h : ArenaTree nd n) (hn : 2 ≤ n) (hi : i < n) :
    descend nd (2 * n - 2) (leafCode nd (2 * n - 2) n i).str = some i :=
  (h.leafCode_eq_iff hn hi (fits_leafCode _ _ _ _)).1 rfl

/-- The entries of the table are those of the leaves (R160, R166). -/
theorem mem_genTable {nd : List NodeEntry} {n : Nat} (h : ArenaTree nd n) (root : Nat) {e : CodeEntry} :
    e ∈ genTable nd root ↔ ∃ i k, i < n ∧ nd[i]? = some k ∧ e = { sym := k.sym, code := leafCode nd root n i } := by
  constructor
  · intro he
    obtain ⟨i, hi⟩ := List.getElem?_of_mem he
    have hin : i < n := length_genTable h root ▸ (List.getElem?_eq_some_iff.1 hi).1
    obtain ⟨k, hk, hgen⟩ := getElem?_genTable h root hin
    exact ⟨i, k, hin, hk, Option.some.inj (hi.symm.trans hgen)⟩
  · rintro ⟨i, k, hi, hk, rfl⟩
    obtain ⟨k', hk', hgen⟩ := getElem?_genTable h root hi
    obtain rfl : k = k' := Option.some.inj (hk.symm.trans hk')
    exact List.mem_of_getElem? hgen

/-! ## Infinite bit sequences -/

theorem begins_iff_prefix {bs : List Bool} {f : Nat → Bool} {m : Nat} (h : bs.length ≤ m) :
    Begins bs f ↔ bs <+: (List.range m).map f := by
  rw [Begins, List.prefix_iff_eq_take, ← List.map_take, List.take_range, Nat.min_eq_left h]

/-- Of two beginnings of one sequence one begins the other. -/
theorem Begins.prefix_or_prefix {bs cs : List Bool} {f : Nat → Bool} (hb : Begins bs f) (hc : Begins cs f) :
    bs <+: cs ∨ cs <+: bs :=
  List.prefix_or_prefix_of_prefix ((begins_iff_prefix (Nat.le_max_left bs.length cs.length)).1 hb)
    ((begins_iff_prefix (Nat.le_max_right bs.length cs.length)).1 hc)

/-- Two entries of a well-formed table that begin one sequence are one entry (R165). -/
theorem CodeWF.eq_of_begins {c : Config} {t : List CodeEntry} (hw : CodeWF c t) {d e : CodeEntry} {f : Nat → Bool}
    (hd : d ∈ t) (he : e ∈ t) (hdf : Begins d.code.str f) (hef : Begins e.code.str f) : d = e := by
  rcases hdf.prefix_or_prefix hef with hp | hp
  · exact hw.eq_of_prefix hd he hp
  · exact (hw.eq_of_prefix he hd hp).symm

/-- Every infinite bit sequence leads from the root to some leaf, so it begins with the leaf's code (R165). -/
theorem ArenaTree.exists_begins {nd : List NodeEntry} {n : Nat} (h : ArenaTree nd n) (hn : 2 ≤ n) (f : Nat → Bool) :
    ∃ e ∈ genTable nd (2 * n - 2), Begins e.code.str f := by
  obtain ⟨xs, i, hp, hi, hd⟩ := h.descend_complete le_rfl ((List.range n).map f) (by simp; omega)
  obtain ⟨k, hk, -⟩ := h.leaf_get hi
  refine ⟨_, (mem_genTable h _).2 ⟨i, k, hi, hk, rfl⟩, ?_⟩
  rw [← h.eq_str_leafCode hn hd, begins_iff_prefix (m := n) (by simpa using hp.length_le)]
  exact hp

/-! ## The command -/

theorem nodeN_ne_zero_iff {s : State} : s.nodeN ≠ 0 ↔ s.nodeN.toNat ≠ 0 := by
  simp [BitVec.toNat_eq]

/-- Settles O37: the test for a tree is the first thing that `GEN` does. -/
theorem genRaisesNoTree : Obligations.GenRaisesNoTree := by
  intro s h
  exact exec_of_operandError (sub := .noTree) (j := 0) (by simp [outcome, generateCodes, h]) (by decide)

/-- The table of a tree that is one leaf (R162). -/
theorem genTable_singleton (k : NodeEntry) (root : Nat) :
    genTable [k] root = [{ sym := k.sym, code := { len := 1, bits := 0 } }] := by
  simp [genTable, leafCount, genEntry, leafCode]

/-- Settles O36: the table has the one entry, and it reads back. -/
theorem genSingleLeafCode : Obligations.GenSingleLeafCode := by
  intro s _ h
  have hok := (generateCodes_eq_ok (s := s)).2 ⟨by simp [h], rfl⟩
  have harena : s.arena = [s.nodeEntry 0] := by simp [State.arena, h]
  rw [harena, genTable_singleton] at hok
  refine ⟨_, _, State.conclude_ok hok, statusOk_eq, rfl, harena, ?_⟩
  rw [State.codeTable_succeed, State.codeTable_commitCodes] <;> simp

/-- Settles O35: entry `i` of the committed table is leaf `i`, and its string is the one that leads there. -/
theorem genAssignsPaths : Obligations.GenAssignsPaths := by
  intro s hc ht h0
  have hok := (generateCodes_eq_ok (s := s)).2 ⟨nodeN_ne_zero_iff.1 h0, rfl⟩
  obtain ⟨htab, -, hcount, -, -, hst, hei⟩ := generateCodes_result hc ht hok
  obtain ⟨htree, -, hroot⟩ := ht.arenaTree h0
  refine ⟨_, State.conclude_ok hok, hst, hei, hcount, fun i hi => ?_⟩
  rw [htab, hroot]
  obtain ⟨k, hk, hgen⟩ := getElem?_genTable htree (2 * leafCount s.nodeN.toNat - 2) hi
  exact ⟨_, k, hgen, hk, rfl, fits_leafCode _ _ _ _,
    fun hn => ⟨htree.descend_str_leafCode hn hi, fun _ hbs => htree.eq_str_leafCode hn hbs⟩⟩

/-- Settles O38: the committed table is that of a tree; with one leaf its one string is "0". -/
theorem genTableIsWellFormed : Obligations.GenTableIsWellFormed := by
  intro s t hc ht h hst
  have hok : generateCodes s = .ok t := outcome_eq_ok h (by rw [hst]; decide)
  obtain ⟨h0, -⟩ := generateCodes_eq_ok.1 hok
  obtain ⟨htab, hwf, hcount, hle, -⟩ := generateCodes_result hc ht hok
  obtain ⟨htree, -, hroot⟩ := ht.arenaTree (nodeN_ne_zero_iff.2 h0)
  rw [hroot] at htab
  refine ⟨hwf, hle, fun hn f => ?_, fun h1 f hf e he hb => ?_⟩
  · obtain ⟨e, he, hb⟩ := htree.exists_begins (hcount ▸ hn) f
    rw [← htab] at he
    exact ⟨e, he, hb, fun d hd hdf => hwf.eq_of_begins hd he hdf hb⟩
  · rw [htab] at he
    obtain ⟨i, k, -, -, rfl⟩ := (mem_genTable htree _).1 he
    have hleaves : leafCount s.nodeN.toNat = 1 := by rw [← hcount, h1]; rfl
    simp [hleaves, leafCode, Begins, Code.str, hf] at hb

end Sys2Proof.Machine
end

section
/-! The two reference data paths over the tree of R34: the traversal of `GEN` with its stack (spec 42_gen.md R164) and the
tree walk of `DECODE` (spec 44_decode.md R208). -/

namespace Sys2Proof.Machine

/-! ## What the traversal records -/

/-- The pairs that the traversal records below node `k`, reached by the code `c`: the leaf itself, or those of the left
child and then those of the right one (R164). -/
inductive Records (nd : List NodeEntry) : Nat → Code → List (Nat × Code) → Prop
  | leaf {k : Nat} {c : Code} {e : NodeEntry} (he : nd[k]? = some e) (hl : e.leaf = true) : Records nd k c [(k, c)]
  | inner {k : Nat} {c : Code} {e : NodeEntry} {ps qs : List (Nat × Code)} (he : nd[k]? = some e) (hl : e.leaf = false)
      (left : Records nd e.left.toNat (c.append false) ps) (right : Records nd e.right.toNat (c.append true) qs) :
      Records nd k c (ps ++ qs)

/-- Every subtree of a tree has its pairs. -/
theorem ArenaTree.exists_records {nd : List NodeEntry} {n k : Nat} (h : ArenaTree nd n) (hk : k < nd.length) (c : Code) :
    ∃ ps, Records nd k c ps := by
  induction k using Nat.strong_induction_on generalizing c with
  | _ k ih =>
    have he := List.getElem?_eq_getElem hk
    by_cases hkn : k < n
    · exact ⟨_, .leaf he (h.leaf k _ he hkn).1⟩
    · obtain ⟨hl, -, hleft, hright, -⟩ := h.inner k _ he (by omega)
      obtain ⟨ps, hps⟩ := ih _ hleft (by omega) (c.append false)
      obtain ⟨qs, hqs⟩ := ih _ hright (by omega) (c.append true)
      exact ⟨_, .inner he hl hps hqs⟩

namespace Records

variable {nd : List NodeEntry} {k : Nat} {c : Code} {ps : List (Nat × Code)}

theorem length_pos (h : Records nd k c ps) : 0 < ps.length := by
  induction h with
  | leaf => simp
  | inner _ _ _ _ ihl _ => simp [ihl]

/-- A subtree with `m` leaves takes `2 * m - 1` pops. -/
theorem traverse (h : Records nd k c ps) (fuel : Nat) (stack found : List (Nat × Code)) :
    Machine.traverse nd (2 * ps.length - 1 + fuel) ((k, c) :: stack) found =
      Machine.traverse nd fuel stack (found ++ ps) := by
  induction h generalizing fuel stack found with
  | leaf he hl =>
    rw [show 2 * [_].length - 1 + fuel = fuel + 1 by simp; omega]
    simp [Machine.traverse, he, hl]
  | @inner k c e ps qs he hl left right ihl ihr =>
    have hps := left.length_pos
    have hqs := right.length_pos
    rw [List.length_append, show 2 * (ps.length + qs.length) - 1 + fuel =
      2 * ps.length - 1 + (2 * qs.length - 1 + fuel) + 1 by omega]
    simp only [Machine.traverse, he, hl, Bool.false_eq_true, if_false]
    rw [ihl, ihr, List.append_assoc]

/-- A pair is recorded for each bit string that leads from the node to a leaf. -/
theorem mem_iff (h : Records nd k c ps) {i : Nat} {d : Code} :
    (i, d) ∈ ps ↔ ∃ bs, descend nd k bs = some i ∧ d = bs.foldl Code.append c ∧ ∃ e, nd[i]? = some e ∧ e.leaf = true := by
  induction h with
  | @leaf k c e he hl =>
    have hk := (List.getElem?_eq_some_iff.1 he).1
    simp only [List.mem_singleton, Prod.mk.injEq]
    constructor
    · rintro ⟨rfl, rfl⟩
      exact ⟨[], by simp [descend, hk], rfl, e, he, hl⟩
    · rintro ⟨bs, hd, rfl, -⟩
      obtain rfl := descend_leaf he hl hd
      simp only [descend, if_pos hk, Option.some.injEq] at hd
      exact ⟨hd.symm, rfl⟩
  | @inner k c e ps qs he hl left right ihl ihr =>
    rw [List.mem_append, ihl, ihr]
    constructor
    · rintro (⟨bs, hd, rfl, hleaf⟩ | ⟨bs, hd, rfl, hleaf⟩)
      · exact ⟨false :: bs, by simpa [descend, he, hl] using hd, rfl, hleaf⟩
      · exact ⟨true :: bs, by simpa [descend, he, hl] using hd, rfl, hleaf⟩
    · rintro ⟨bs, hd, rfl, f, hf, hfl⟩
      match bs with
      | [] =>
        simp only [descend, if_pos (List.getElem?_eq_some_iff.1 he).1, Option.some.injEq] at hd
        subst hd
        obtain rfl := Option.some.inj (he.symm.trans hf)
        exact absurd hfl (by simp [hl])
      | false :: bs => exact .inl ⟨bs, by simpa [descend, he, hl] using hd, rfl, f, hf, hfl⟩
      | true :: bs => exact .inr ⟨bs, by simpa [descend, he, hl] using hd, rfl, f, hf, hfl⟩

/-- The recorded codes lengthen the node's own. -/
theorem prefix_str (h : Records nd k c ps) {p : Nat × Code} (hp : p ∈ ps) : c.str <+: p.2.str := by
  obtain ⟨bs, -, hd, -⟩ := h.mem_iff.1 hp
  rw [hd, Code.foldl_append_str]
  exact List.prefix_append _ _

/-- No pair is recorded twice: left of a node the codes go on with 0, right of it with 1. -/
theorem nodup (h : Records nd k c ps) : ps.Nodup := by
  induction h with
  | leaf => exact List.nodup_singleton _
  | @inner k c e ps qs he hl left right ihl ihr =>
    refine List.nodup_append.2 ⟨ihl, ihr, fun p hp q hq hpq => ?_⟩
    have h0 := left.prefix_str hp
    have h1 := right.prefix_str (hpq ▸ hq)
    have heq := (List.prefix_of_prefix_length_le h0 h1 (by simp [Code.append])).eq_of_length (by simp [Code.append])
    simp [Code.str_append] at heq

end Records

/-- The leaves of a tree, each with its code (R161, R162). -/
def leafCodes (nd : List NodeEntry) (n : Nat) : List (Nat × Code) :=
  (List.range n).map fun i => (i, leafCode nd (2 * n - 2) n i)

theorem mem_leafCodes {nd : List NodeEntry} {n i : Nat} {c : Code} :
    (i, c) ∈ leafCodes nd n ↔ i < n ∧ c = leafCode nd (2 * n - 2) n i := by
  simp only [leafCodes, List.mem_map, List.mem_range, Prod.mk.injEq]
  constructor
  · rintro ⟨j, hj, rfl, rfl⟩
    exact ⟨hj, rfl⟩
  · rintro ⟨hi, rfl⟩
    exact ⟨i, hi, rfl, rfl⟩

theorem nodup_leafCodes (nd : List NodeEntry) (n : Nat) : (leafCodes nd n).Nodup :=
  List.nodup_range.map fun _ _ h => (Prod.mk.inj h).1

/-- Where there are several leaves, what is recorded below the root are the leaves' codes. -/
theorem ArenaTree.mem_records_root_iff {nd : List NodeEntry} {n i : Nat} {c : Code} {ps : List (Nat × Code)}
    (h : ArenaTree nd n) (hn : 2 ≤ n) (hps : Records nd (2 * n - 2) Code.empty ps) :
    (i, c) ∈ ps ↔ i < n ∧ c = leafCode nd (2 * n - 2) n i := by
  rw [hps.mem_iff]
  constructor
  · rintro ⟨bs, hd, rfl, e, he, hl⟩
    have hi : i < n := by
      by_contra hi
      simp [(h.inner i e he (by omega)).1] at hl
    exact ⟨hi, ((h.leafCode_eq_iff hn hi (Code.fits_ofBits bs)).2 (by rw [Code.str_ofBits]; exact hd)).symm⟩
  · rintro ⟨hi, rfl⟩
    exact ⟨_, h.descend_str_leafCode hn hi, (Code.ofBits_str (fits_leafCode _ _ _ _)).symm, h.leaf_get hi⟩

/-- The traversal records the leaves and their codes, in some order (R164). -/
theorem ArenaTree.traversal_perm {nd : List NodeEntry} {n : Nat} (h : ArenaTree nd n) :
    (traversal nd (2 * n - 2)).Perm (leafCodes nd n) := by
  have hroot := List.getElem?_eq_getElem h.root_lt
  have hpos := h.leaves_pos
  by_cases hn : 2 ≤ n
  · obtain ⟨ps, hps⟩ := h.exists_records h.root_lt Code.empty
    have hperm : ps.Perm (leafCodes nd n) := (List.perm_ext_iff_of_nodup hps.nodup (nodup_leafCodes nd n)).2 fun p => by
      rw [mem_leafCodes, h.mem_records_root_iff hn hps]
    have hlen : ps.length = n := by rw [hperm.length_eq]; simp [leafCodes]
    have hrun := hps.traverse 0 [] []
    rw [hlen, Nat.add_zero, ← h.size] at hrun
    simp only [traversal, hroot, (h.inner _ _ hroot (by omega)).1, Bool.false_eq_true, if_false, hrun]
    exact hperm
  · obtain rfl : n = 1 := by omega
    simp only [traversal, hroot, (h.leaf _ _ hroot (by omega)).1, if_true]
    simp [leafCodes, leafCode]

/-- Settles O56: the recorded pairs are a permutation of the leaves with their codes. -/
theorem traversalFindsSameCodes : Obligations.TraversalFindsSameCodes := by
  intro nd n h
  exact ⟨by simpa [leafCodes] using h.traversal_perm.length_eq, fun i c => h.traversal_perm.mem_iff.trans mem_leafCodes⟩

/-! ## The tree walk -/

/-- At a leaf the candidate is the leaf's code, and the table has its entry (R203, R208). The table is well-formed for the
least `N_MAX` that holds it. -/
theorem ArenaTree.matchCode_leaf {nd : List NodeEntry} {n i : Nat} {c : Code} {e : NodeEntry} (h : ArenaTree nd n)
    (hn : 2 ≤ n) (hc : c.fits) (hd : descend nd (2 * n - 2) c.str = some i) (hi : i < n) (he : nd[i]? = some e) :
    matchCode (genTable nd (2 * n - 2)) c = some { sym := e.sym, code := c } := by
  have hw : CodeWF { nMax := n, textMax := 0, bufMax := 0 } (genTable nd (2 * n - 2)) := genTable_wf h le_rfl
  exact hw.matchCode_of_mem (e := { sym := e.sym, code := c })
    ((mem_genTable h _).2 ⟨i, e, hi, he, by rw [(h.leafCode_eq_iff hn hi hc).2 hd]⟩)

/-- At an internal node the candidate is no code of the table (R203, R208). -/
theorem ArenaTree.matchCode_inner {nd : List NodeEntry} {n k : Nat} {c : Code} (h : ArenaTree nd n) (hn : 2 ≤ n)
    (hd : descend nd (2 * n - 2) c.str = some k) (hk : n ≤ k) : matchCode (genTable nd (2 * n - 2)) c = none := by
  refine matchCode_eq_none fun e he heq => ?_
  obtain ⟨i, _, hi, -, rfl⟩ := (mem_genTable h _).1 he
  have hleaf := h.descend_str_leafCode hn hi
  rw [heq, hd, Option.some.injEq] at hleaf
  omega

/-- The scan and the walk at the same bit: the candidate is the path from the root to the node, which is internal. -/
structure WalkSim (nd : List NodeEntry) (n : Nat) (sc : Scan) (w : Walk) : Prop where
  fits : sc.cand.fits
  path : descend nd (2 * n - 2) sc.cand.str = some w.node
  inner : n ≤ w.node
  out : w.out = sc.out
  start : w.start = sc.start

theorem ArenaTree.descend_root {nd : List NodeEntry} {n : Nat} (h : ArenaTree nd n) :
    descend nd (2 * n - 2) [] = some (2 * n - 2) := by
  simp [descend, h.root_lt]

/-- With the empty candidate the walk is at the root. -/
theorem ArenaTree.walkSim_root {nd : List NodeEntry} {n : Nat} (h : ArenaTree nd n) (hn : 2 ≤ n) (out : List Word)
    (start : Nat) : WalkSim nd n { cand := Code.empty, out, start } { node := 2 * n - 2, out, start } :=
  ⟨Code.fits_empty, h.descend_root, show n ≤ 2 * n - 2 by omega, rfl, rfl⟩

/-- One bit of the walk from an internal node: where it leads, and what the walk does there (R208). -/
theorem ArenaTree.walkStep_eq {nd : List NodeEntry} {n : Nat} {w : Walk} (h : ArenaTree nd n) (hw : n ≤ w.node)
    (hlt : w.node < nd.length) (root cap k : Nat) (b : Bool) :
    ∃ next f, descend nd w.node [b] = some next ∧ nd[next]? = some f ∧
      Walk.step nd root cap w k b =
        if f.leaf then
          if w.out.length = cap then none else some { node := root, out := w.out ++ [f.sym], start := k + 1 }
        else some { w with node := next } := by
  have he := List.getElem?_eq_getElem hlt
  obtain ⟨hl, -, hleft, hright, -⟩ := h.inner _ _ he hw
  have hnext : (if b then nd[w.node].right.toNat else nd[w.node].left.toNat) < nd.length := by split <;> omega
  have hf := List.getElem?_eq_getElem hnext
  refine ⟨_, _, ?_, hf, ?_⟩
  · simp [descend, he, hl, hnext]
  · simp only [Walk.step, he, hf]

/-- One bit keeps the two together, or takes both to the symbol that does not fit (R208). -/
theorem WalkSim.step {nd : List NodeEntry} {n : Nat} {sc : Scan} {w : Walk} (hs : WalkSim nd n sc w)
    (h : ArenaTree nd n) (hn : 2 ≤ n) (cap k : Nat) (b : Bool) :
    Option.Rel (WalkSim nd n) (Scan.step (genTable nd (2 * n - 2)) cap sc k b) (Walk.step nd (2 * n - 2) cap w k b) := by
  obtain ⟨hfits, hpath, hinner, hout, hstart⟩ := hs
  obtain ⟨next, f, hd, hf, hwalk⟩ := h.walkStep_eq hinner (descend_lt hpath) (2 * n - 2) cap k b
  have hfits' := Code.fits_append b hfits
  have hpath' : descend nd (2 * n - 2) (sc.cand.append b).str = some next := by
    rw [Code.str_append, descend_append, hpath]
    exact hd
  rw [hwalk, hout]
  by_cases hleaf : next < n
  · simp only [Scan.step, h.matchCode_leaf hn hfits' hpath' hleaf hf, (h.leaf _ _ hf hleaf).1, if_true]
    by_cases hcap : sc.out.length = cap
    · simp only [if_pos hcap]
      exact .none
    · simp only [if_neg hcap]
      exact .some (h.walkSim_root hn _ _)
  · have hge : n ≤ next := Nat.le_of_not_lt hleaf
    simp only [Scan.step, h.matchCode_inner hn hpath' hge, (h.inner _ _ hf hge).1, Bool.false_eq_true, if_false]
    exact .some ⟨hfits', hpath', hge, rfl, hstart⟩

/-- The two stay together over all the bits. -/
theorem WalkSim.bits {nd : List NodeEntry} {n : Nat} {sc : Scan} {w : Walk} (hs : WalkSim nd n sc w)
    (h : ArenaTree nd n) (hn : 2 ≤ n) (cap k : Nat) (bs : List Bool) :
    Option.Rel (WalkSim nd n) (scanBits (genTable nd (2 * n - 2)) cap bs k sc) (walkBits nd (2 * n - 2) cap bs k w) := by
  induction bs generalizing k sc w with
  | nil => exact .some hs
  | cons b bs ih =>
    have hstep := hs.step h hn cap k b
    simp only [scanBits, walkBits]
    generalize Scan.step _ cap sc k b = sc' at hstep
    generalize Walk.step nd _ cap w k b = w' at hstep
    cases hstep with
    | none => exact .none
    | some hs' => exact ih hs' (k + 1)

/-- The candidate is empty exactly at the root, to which only the empty string leads. -/
theorem WalkSim.len_eq_zero_iff {nd : List NodeEntry} {n : Nat} {sc : Scan} {w : Walk} (hs : WalkSim nd n sc w)
    (h : ArenaTree nd n) : sc.cand.len = 0 ↔ w.node = 2 * n - 2 := by
  rw [← Code.length_str, List.length_eq_zero_iff]
  have hpath := hs.path
  constructor
  · intro hnil
    rw [hnil, h.descend_root] at hpath
    exact (Option.some.inj hpath).symm
  · intro hroot
    have := h.root_lt
    rw [hroot] at hpath
    exact (h.path_unique hpath (by omega)).symm.trans h.path_root

/-- Settles O59: scan and walk begin together at the root and stay together. -/
theorem treeWalkRecoversSameSymbols : Obligations.TreeWalkRecoversSameSymbols := by
  intro nd n cap bs h hn
  have hrel : Option.Rel (WalkSim nd n) (scanBits (genTable nd (2 * n - 2)) cap bs 0 Scan.begin)
      (walkBits nd (2 * n - 2) cap bs 0 { node := 2 * n - 2, out := [], start := 0 }) :=
    (h.walkSim_root hn [] 0).bits h hn cap 0 bs
  generalize scanBits _ cap bs 0 Scan.begin = r at hrel
  generalize walkBits nd _ cap bs 0 _ = r' at hrel
  cases hrel with
  | none => rfl
  | some hs => exact ⟨_, rfl, hs.out, hs.start, hs.len_eq_zero_iff h⟩

end Sys2Proof.Machine
end

section
/-! The errors of `ENCODE` in the order of their tests (spec 43_encode.md R180, R182, R185). -/

namespace Sys2Proof.Machine

/-- Once the lengths and the table have passed their tests, an error of the search for the text's symbols is the command's;
the size of the output is not looked at (R182). -/
theorem encodeText_of_entriesOf_error {s : State} {e : CmdError} (hlen : s.txtLen.toNat ≤ s.cfg.textMax)
    (hN : s.codeN.toNat ≤ s.cfg.nMax) (hw : CodeWF s.cfg s.codeTable) (h : entriesOf s.codeTable 0 s.text = .error e) :
    encodeText s = .error e := by
  simp only [encodeText, if_neg (Nat.not_lt.2 hlen), if_neg (Nat.not_lt.2 hN), codeTableError_eq_none.2 hw, h]

/-- `UnknownSymbolError` has code 2 and no sub-code (R240, R243). -/
theorem status_unknownSymbol (k : Nat) : (CmdError.unknownSymbol k).status = 0x002 := by
  change statusWord false 0 2 = 0x002
  decide

/-- Settles O41: the search stops at the first symbol without an entry. -/
theorem encodeRaisesUnknownSymbol : Obligations.EncodeRaisesUnknownSymbol := by
  intro s k hlen hN hw hk
  obtain ⟨hlt, hunknown, hfirst⟩ := hk
  have hsearch : entriesOf s.codeTable 0 s.text = .error (.unknownSymbol k) := by
    refine entriesOf_eq_error.2 ⟨k, by rwa [length_text], by rw [Nat.zero_add], hunknown, fun j hj => ?_⟩
    by_contra hnone
    exact hfirst j hj fun e he heq => hnone ⟨e, he, heq⟩
  exact exec_of_error (encodeText_of_entriesOf_error hlen hN hw hsearch) (status_unknownSymbol k) rfl

/-- Settles O42: the two length tests come first, and the capacity test follows the search, which finds the entries. -/
theorem encodeRaisesLengthOrCapacity : Obligations.EncodeRaisesLengthOrCapacity := by
  intro s
  refine ⟨fun h => ?_, fun hlen h => ?_, fun es hlen hN hw hsp hcap => ?_⟩
  · exact exec_of_error (e := lengthError .txtLen) (by simp only [outcome, encodeText, if_pos h]) rfl rfl
  · refine exec_of_error (e := lengthError .codeN) ?_ rfl rfl
    simp only [outcome, encodeText, if_neg (Nat.not_lt.2 hlen), if_pos h]
  · have hbytes : s.cfg.bufMax < bytesFor (streamOf es).length := by rwa [length_streamOf]
    refine exec_of_error (e := .capacity .buffer) ?_ rfl rfl
    simp only [outcome, encodeText, if_neg (Nat.not_lt.2 hlen), if_neg (Nat.not_lt.2 hN), codeTableError_eq_none.2 hw,
      entriesOf_of_spells hw hsp, if_pos hbytes]

end Sys2Proof.Machine
end

section
/-! The bit accumulator of the packer against the bytes of the concatenated codes (spec 43_encode.md R183, R184, R186). The
accumulator is itself a code, the bits that are not yet written, and what is kept is that the bits of the bytes written and
that code together are the stream so far. -/

namespace Sys2Proof.Machine

/-! ## Concatenated codes -/

/-- The code of two strings in a row, `d` shifted in under `c` (R9, R186). -/
def Code.concat (c d : Code) : Code := { len := c.len + d.len, bits := (c.bits <<< d.len) ||| d.bits }

theorem Code.fits_concat {c d : Code} (hc : c.fits) (hd : d.fits) : (c.concat d).fits :=
  Nat.or_lt_two_pow (Nat.shiftLeft_lt hc) (Nat.lt_of_lt_of_le hd (Nat.pow_le_pow_right Nat.two_pos (Nat.le_add_left _ _)))

theorem Code.str_concat (c : Code) {d : Code} (hd : d.fits) : (c.concat d).str = c.str ++ d.str := by
  refine List.ext_getElem (by simp [Code.concat]) fun t ht _ => ?_
  simp only [Code.length_str, Code.concat] at ht
  rw [Code.getElem_str]
  simp only [Code.concat, Nat.testBit_or, Nat.testBit_shiftLeft]
  by_cases htc : t < c.len
  · rw [List.getElem_append_left (by simpa using htc), Code.getElem_str]
    have hclear : d.bits.testBit (c.len + d.len - 1 - t) = false :=
      Nat.testBit_lt_two_pow (Nat.lt_of_lt_of_le hd (Nat.pow_le_pow_right Nat.two_pos (by omega)))
    have hge : d.len ≤ c.len + d.len - 1 - t := by omega
    have hpos : c.len + d.len - 1 - t - d.len = c.len - 1 - t := by omega
    simp [hclear, hge, hpos]
  · rw [List.getElem_append_right (by simpa using htc), Code.getElem_str]
    have hlt : ¬ d.len ≤ c.len + d.len - 1 - t := by omega
    have hpos : c.len + d.len - 1 - t = d.len - 1 - (t - c.len) := by omega
    simp [hlt, ← hpos]

/-- A code is its bits above the lowest `k` and then those. -/
theorem Code.concat_split {c : Code} {k : Nat} (hk : k ≤ c.len) :
    Code.concat ⟨c.len - k, c.bits >>> k⟩ ⟨k, c.bits % 2 ^ k⟩ = c := by
  have hbits : c.bits >>> k <<< k ||| c.bits % 2 ^ k = c.bits := by
    rw [← Nat.shiftLeft_add_eq_or_of_lt (Nat.mod_lt _ (Nat.two_pow_pos k)), Nat.shiftLeft_eq, Nat.shiftRight_eq_div_pow,
      Nat.div_add_mod']
  simp only [Code.concat, hbits, Nat.sub_add_cancel hk]

theorem Code.str_zero_bits (n : Nat) : (Code.mk n 0).str = List.replicate n false := by
  simp [Code.str, List.map_const']

/-! ## The bits of bytes -/

/-- The bits of a byte, bit 7 first (R70). -/
def byteBits (b : Byte) : List Bool := (Code.mk 8 b.toNat).str

/-- The bits of bytes in a row (R70, R202). -/
def bytesBits (bytes : List Byte) : List Bool := bytes.flatMap byteBits

@[simp] theorem length_byteBits (b : Byte) : (byteBits b).length = 8 := Code.length_str _

theorem byteBits_injective : Function.Injective byteBits := fun a b h => BitVec.eq_of_toNat_eq <|
  congrArg Code.bits (Code.ext_of_str (c := ⟨8, a.toNat⟩) (d := ⟨8, b.toNat⟩) a.isLt b.isLt h)

theorem byteBits_ofNat {v : Nat} (h : v < 2 ^ 8) : byteBits (BitVec.ofNat 8 v) = (Code.mk 8 v).str := by
  rw [byteBits, BitVec.toNat_ofNat, Nat.mod_eq_of_lt h]

theorem byteBits_byteOf (f : Nat → Bool) : byteBits (byteOf f) = (List.range 8).map f :=
  List.map_congr_left fun _ ht => byteOf_bit f (List.mem_range.1 ht)

theorem bytesBits_concat (bytes : List Byte) (b : Byte) : bytesBits (bytes ++ [b]) = bytesBits bytes ++ byteBits b := by
  simp [bytesBits]

theorem length_bytesBits (bytes : List Byte) : (bytesBits bytes).length = 8 * bytes.length := by
  simp [bytesBits, List.length_flatMap, Nat.mul_comm]

/-- Bytes are their bits. -/
theorem bytesBits_injective : Function.Injective bytesBits := by
  intro as
  induction as with
  | nil =>
    intro bs h
    have hlen := congrArg List.length h
    rw [length_bytesBits, length_bytesBits] at hlen
    exact (List.eq_nil_of_length_eq_zero (by simpa using hlen.symm)).symm
  | cons a as ih =>
    intro bs h
    cases bs with
    | nil => simpa [length_bytesBits] using congrArg List.length h
    | cons b bs =>
      obtain ⟨hhead, htail⟩ := List.append_inj h (by simp)
      rw [byteBits_injective hhead, ih htail]

/-- The bits of bytes that are made of eight bits of `f` each. -/
theorem bytesBits_byteOf (f : Nat → Bool) (n : Nat) :
    bytesBits ((List.range n).map fun j => byteOf fun t => f (8 * j + t)) = (List.range (8 * n)).map f := by
  induction n with
  | zero => rfl
  | succ n ih =>
    rw [List.range_succ, List.map_append, List.map_singleton, bytesBits_concat, ih, byteBits_byteOf, Nat.mul_succ,
      List.range_add, List.map_append, List.map_map]
    rfl

/-- The packed bytes hold the stream and its pad bits (R183, R184). -/
theorem bytesBits_packBytes (stream : List Bool) : bytesBits (packBytes stream) = padded stream := by
  calc bytesBits (packBytes stream)
      = (List.range (8 * bytesFor stream.length)).map fun k => (padded stream).getD k false :=
        bytesBits_byteOf (fun k => (padded stream).getD k false) _
    _ = padded stream := by
        rw [← length_padded]
        exact map_range_eq fun k hk => by simp [hk]

/-! ## The accumulator -/

namespace Packer

/-- What stands in the accumulator: the bits that are not yet written (R186). -/
def pending (p : Packer) : Code := { len := p.nacc, bits := p.acc }

/-- The packer has taken the bits `bs`: the bytes written begin them, and the accumulator holds the rest and no more. -/
structure Holds (p : Packer) (bs : List Bool) : Prop where
  fits : p.pending.fits
  bits : bytesBits p.out ++ p.pending.str = bs

/-- Taking off the top byte moves eight bits from the accumulator to the bytes. -/
theorem Holds.writeByte {p : Packer} {bs : List Bool} (h : p.Holds bs) (h8 : 8 ≤ p.nacc) :
    Holds ⟨p.acc % 2 ^ (p.nacc - 8), p.nacc - 8, p.out ++ [BitVec.ofNat 8 (p.acc >>> (p.nacc - 8))]⟩ bs := by
  have hlow : (Code.mk (p.nacc - 8) (p.acc % 2 ^ (p.nacc - 8))).fits := Nat.mod_lt _ (Nat.two_pow_pos _)
  have htop : p.acc >>> (p.nacc - 8) < 2 ^ 8 := by
    rw [Nat.shiftRight_eq_div_pow]
    refine Nat.div_lt_of_lt_mul ?_
    rw [← Nat.pow_add, Nat.sub_add_cancel h8]
    exact h.fits
  have hsplit : Code.concat ⟨8, p.acc >>> (p.nacc - 8)⟩ ⟨p.nacc - 8, p.acc % 2 ^ (p.nacc - 8)⟩ = p.pending := by
    simpa only [pending, Nat.sub_sub_self h8] using Code.concat_split (c := p.pending) (Nat.sub_le p.nacc 8)
  refine ⟨hlow, ?_⟩
  rw [pending, bytesBits_concat, byteBits_ofNat htop, List.append_assoc, ← Code.str_concat _ hlow, hsplit, h.bits]

theorem Holds.drain {p : Packer} {bs : List Bool} (h : p.Holds bs) (fuel : Nat) : (Packer.drain fuel p).Holds bs := by
  induction fuel generalizing p with
  | zero => exact h
  | succ fuel ih =>
    rw [Packer.drain]
    split
    · next h8 => exact ih (h.writeByte h8)
    · exact h

/-- With enough fuel less than a byte is left. -/
theorem drain_nacc_lt {fuel : Nat} {p : Packer} (h : p.nacc ≤ fuel) : (drain fuel p).nacc < 8 := by
  induction fuel generalizing p with
  | zero => exact Nat.lt_of_le_of_lt h (by decide)
  | succ fuel ih =>
    rw [drain]
    split
    · exact ih (by simp only; omega)
    · omega

theorem feed_nacc_lt (p : Packer) (e : CodeEntry) : (p.feed e).nacc < 8 := drain_nacc_lt (Nat.le_refl _)

/-- A symbol appends its code (R183). -/
theorem Holds.feed {p : Packer} {bs : List Bool} {e : CodeEntry} (h : p.Holds bs) (he : e.code.fits) :
    (p.feed e).Holds (bs ++ e.code.str) := by
  refine Holds.drain (p := ⟨_, _, p.out⟩) ⟨Code.fits_concat (c := p.pending) h.fits he, ?_⟩ _
  rw [← h.bits, List.append_assoc, ← Code.str_concat _ he]
  rfl

theorem Holds.foldl_feed {es : List CodeEntry} {p : Packer} {bs : List Bool} (h : p.Holds bs)
    (hes : ∀ e ∈ es, e.code.fits) : (es.foldl Packer.feed p).Holds (bs ++ streamOf es) := by
  induction es generalizing p bs with
  | nil => simpa [streamOf] using h
  | cons e es ih =>
    obtain ⟨he, hes⟩ := List.forall_mem_cons.1 hes
    simpa [streamOf] using ih (h.feed he) hes

theorem foldl_feed_nacc_lt (es : List CodeEntry) {p : Packer} (h : p.nacc < 8) : (es.foldl feed p).nacc < 8 :=
  List.foldlRecOn (motive := fun q : Packer => q.nacc < 8) es feed h fun q _ e _ => q.feed_nacc_lt e

/-- The last byte takes what is left and the pad bits (R184). -/
theorem Holds.finish {p : Packer} {bs : List Bool} (h : p.Holds bs) (hlt : p.nacc < 8) :
    p.finish = (packBytes bs, padFor bs.length) := by
  have hlen : bs.length = 8 * p.out.length + p.nacc := by
    rw [← h.bits, List.length_append, length_bytesBits, Code.length_str, pending]
  rw [Packer.finish]
  split
  · next hpos =>
    have hpad : padFor bs.length = 8 - p.nacc := by rw [padFor_eq]; omega
    have hzero : (Code.mk (8 - p.nacc) 0).fits := Nat.two_pow_pos _
    have hlast : p.pending.concat ⟨8 - p.nacc, 0⟩ = ⟨8, p.acc <<< (8 - p.nacc)⟩ := by
      simp only [Code.concat, pending, Nat.or_zero, Nat.add_sub_cancel' hlt.le]
    have hbyte : (Code.mk 8 (p.acc <<< (8 - p.nacc))).fits := hlast ▸ Code.fits_concat h.fits hzero
    refine Prod.ext (bytesBits_injective ?_) hpad.symm
    rw [bytesBits_concat, byteBits_ofNat hbyte, ← hlast, Code.str_concat _ hzero, ← List.append_assoc, h.bits,
      Code.str_zero_bits, bytesBits_packBytes, padded, hpad]
  · have hpad : padFor bs.length = 0 := by rw [padFor_eq]; omega
    have hnil : p.pending.str = [] := List.eq_nil_of_length_eq_zero (by simp only [Code.length_str, pending]; omega)
    refine Prod.ext (bytesBits_injective ?_) hpad.symm
    rw [bytesBits_packBytes, padded, hpad, List.replicate_zero, List.append_nil, ← h.bits, hnil, List.append_nil]

end Packer

/-- Settles O57: the packer begins empty, each symbol appends its code, and the last byte takes the pad bits. -/
theorem accumulatorPacksSameBytes : Obligations.AccumulatorPacksSameBytes := by
  intro es hes
  have hstart : Packer.Holds ⟨0, 0, []⟩ [] := ⟨Code.fits_empty, rfl⟩
  exact (hstart.foldl_feed hes).finish (Packer.foldl_feed_nacc_lt es (by decide))

end Sys2Proof.Machine
end

section
/-! `DECODE` on the buffer that `ENCODE` leaves, on any code bits that are parsed, and its operand errors (spec
44_decode.md R200 to R209). -/

namespace Sys2Proof.Machine

/-! ## The round trip of a successful ENCODE (R209) -/

/-- Settles O49: the entries that spell the text are in the restored table, and the buffer holds their codes and the pad
bits. -/
theorem decodeInvertsEncode : Obligations.DecodeInvertsEncode := by
  intro s t u strict hc hexec hst hcfg hB hpad hbits hN htab
  have hok : encodeText s = .ok t := outcome_eq_ok hexec (by rw [hst]; decide)
  obtain ⟨hlen, hcN, hw, es, hsp, hcap, rfl⟩ := encodeText_eq_ok.1 hok
  obtain ⟨hbits', hB', hpad'⟩ := commitBuffer_result hc hcap
  have hucfg : u.cfg = s.cfg := hcfg
  have huN : u.codeN = s.codeN := hN
  have hutab : u.codeTable = s.codeTable := htab
  have heslen : es.length = s.txtLen.toNat := by rw [← length_text, ← hsp.2, List.length_map]
  rw [← hB] at hB'
  rw [← hpad] at hpad'
  obtain ⟨v, hv, -, hvst, hvinfo, hvtext, hvlen⟩ := exec_decode_stream (s := u) (es := es) strict (hucfg ▸ hc)
    (by rwa [hB', hucfg]) (by rwa [huN, hucfg]) (by rwa [hucfg, hutab]) (by rw [hutab]; exact hsp.1)
    (by rwa [heslen, hucfg]) hB' hpad' (hbits.trans hbits')
  exact ⟨v, hv, hvst, hvinfo, hvtext.trans hsp.2, BitVec.eq_of_toNat_eq (hvlen.trans heslen)⟩

/-! ## Code bits that are parsed (R203 to R207) -/

/-- The operands pass the tests of `DECODE`, and the code bits are the codes of `es` and then a rest that no code
begins (R200, R203). -/
structure Parsed (s : State) (es : List CodeEntry) (rest : List Bool) : Prop where
  bufLen : s.bufLen.toNat ≤ s.cfg.bufMax
  codeN : s.codeN.toNat ≤ s.cfg.nMax
  pad : s.pad.toNat ≤ 8 * s.bufLen.toNat
  table : CodeWF s.cfg s.codeTable
  entries : ∀ e ∈ es, e ∈ s.codeTable
  noCode : NoCodeLeads s.codeTable rest
  bits : s.codeBits = streamOf es ++ rest

/-- Symbols that fit are recovered, and the trailing bits decide (R204 to R206). -/
theorem Parsed.outcome_eq {s : State} {es : List CodeEntry} {rest : List Bool} (h : Parsed s es rest) (strict : Bool)
    (hlen : es.length ≤ s.cfg.textMax) :
    outcome (.decode strict) s = finishDecode strict s
      { cand := Code.ofBits rest, out := es.map (·.sym), start := (es.map (·.code.len)).sum } := by
  rw [← length_streamOf]
  exact (decodeBuffer_eq strict h.bufLen h.codeN h.pad h.table h.entries h.noCode h.bits).trans (if_pos hlen)

/-- Symbols that do not fit raise `CapacityError` (R207). -/
theorem Parsed.outcome_capacity {s : State} {es : List CodeEntry} {rest : List Bool} (h : Parsed s es rest)
    (strict : Bool) (hlen : s.cfg.textMax < es.length) : outcome (.decode strict) s = .error (.capacity .text) :=
  (decodeBuffer_eq strict h.bufLen h.codeN h.pad h.table h.entries h.noCode h.bits).trans (if_neg (Nat.not_le.2 hlen))

/-- The index of the first trailing bit fits `ERRINFO`. -/
theorem Parsed.start_lt {s : State} {es : List CodeEntry} {rest : List Bool} (h : Parsed s es rest)
    (hc : s.cfg.WellFormed) : (es.map (·.code.len)).sum < 2 ^ 32 := by
  have hbits := congrArg List.length h.bits
  have hB := h.bufLen
  have hfits := hc.buf_fits
  rw [State.codeBits, List.length_take, length_bufferBits, List.length_append, length_streamOf] at hbits
  omega

/-- On clean trailing bits both modes complete with the symbols of the parse (R204). -/
theorem Parsed.exec_clean {s : State} {es : List CodeEntry} {rest : List Bool} (h : Parsed s es rest) (strict : Bool)
    (hc : s.cfg.WellFormed) (hlen : es.length ≤ s.cfg.textMax)
    (hclean : cleanTail (s.bufferBits.drop (es.map (·.code.len)).sum) = true) :
    ∃ t, exec (.decode strict) s = .next t ∧ t.text = es.map (·.sym) ∧ t.txtLen.toNat = es.length ∧
      t.status = 0 ∧ t.errinfo = 0 := by
  obtain ⟨htext, hlen'⟩ := State.text_decode hc (out := es.map (·.sym)) (by simpa using hlen)
  have hok := (h.outcome_eq strict hlen).trans (finishDecode_clean hclean)
  exact ⟨_, State.conclude_ok hok, htext, by simpa using hlen', statusOk_eq, rfl⟩

/-- Settles O44: the commit has the symbols of the parse in both cases, and its record says whether the trailing bits
are clean. -/
theorem decodeRecoversSymbols : Obligations.DecodeRecoversSymbols := by
  intro s es rest hc hB hN hpad hw hes hr hbits hlen
  have hp : Parsed s es rest := ⟨hB, hN, hpad, hw, hes, hr, hbits⟩
  cases hclean : cleanTail (s.bufferBits.drop (es.map (·.code.len)).sum) with
  | true =>
    obtain ⟨t, ht, htext, hlen', hrec⟩ := hp.exec_clean false hc hlen hclean
    exact ⟨t, ht, htext, hlen', (if_pos (cleanTail_iff.1 hclean)).mpr hrec⟩
  | false =>
    obtain ⟨htext, hlen'⟩ := State.text_decode hc (out := es.map (·.sym)) (by simpa using hlen)
    have hok := (hp.outcome_eq false hlen).trans (finishDecode_bestEffort hclean)
    refine ⟨_, State.conclude_ok hok, htext, by simpa using hlen', (if_neg ?_).mpr ⟨statusWarn_eq, ?_⟩⟩
    · rw [← cleanTail_iff, hclean]
      exact Bool.false_ne_true
    · exact toNat_ofNat_of_lt (hp.start_lt hc)

/-- `CorruptStreamError` has code 3 and no sub-code (R240, R243). -/
theorem status_corruptStream (start : Nat) : (CmdError.corruptStream start).status = 0x003 := by
  change statusWord false 0 3 = 0x003
  decide

/-- Settles O45: the two ends of the strict scan. -/
theorem strictDecodeRecoversOrRaises : Obligations.StrictDecodeRecoversOrRaises := by
  intro s es rest hc hB hN hpad hw hes hr hbits hlen
  have hp : Parsed s es rest := ⟨hB, hN, hpad, hw, hes, hr, hbits⟩
  refine ⟨fun h7 h0 => hp.exec_clean true hc hlen (cleanTail_iff.2 ⟨h7, h0⟩), fun hdirty => ?_⟩
  exact exec_of_error ((hp.outcome_eq true hlen).trans (finishDecode_strict (cleanTail_eq_false.2 hdirty)))
    (status_corruptStream _) rfl

/-- Settles O47: the parse has more symbols than fit. -/
theorem decodeRaisesTextCapacity : Obligations.DecodeRaisesTextCapacity := by
  intro s strict es rest hB hN hpad hw hes hr hbits hlen
  have hp : Parsed s es rest := ⟨hB, hN, hpad, hw, hes, hr, hbits⟩
  exact exec_of_error (hp.outcome_capacity strict hlen) rfl rfl

/-! ## The tests before the table, and the two modes (R200, R206, R247) -/

/-- Settles O46: the three tests that come before the table, in their order. -/
theorem decodeRaisesOperandErrors : Obligations.DecodeRaisesOperandErrors := by
  intro s strict
  refine ⟨fun h => ?_, fun hB h => ?_, fun hB hN hB0 hpad0 => ?_⟩
  · exact exec_of_error (e := lengthError .bufLen) (by simp only [outcome, decodeBuffer, if_pos h]) rfl rfl
  · refine exec_of_error (e := lengthError .codeN) ?_ rfl rfl
    simp only [outcome, decodeBuffer, if_neg (Nat.not_lt.2 hB), if_pos h]
  · have hpad : 8 * s.bufLen.toNat < s.pad.toNat := by
      rw [hB0]
      exact Nat.pos_of_ne_zero fun hz => hpad0 (BitVec.eq_of_toNat_eq hz)
    rw [← BitVec.ofNat_toNat]
    refine exec_of_operandError (sub := .padRange) ?_ (by decide)
    simp only [outcome, decodeBuffer, if_neg (Nat.not_lt.2 hB), if_neg (Nat.not_lt.2 hN), if_pos hpad]

/-- The two modes of `DECODE` share everything up to the trailing bits: an error of a test or of the scan, which is
never `CorruptStreamError`, or the same scan (R200). -/
theorem decodeBuffer_modes (s : State) :
    (∃ e : CmdError, e.code ≠ 3 ∧ ∀ strict, outcome (.decode strict) s = .error e) ∨
      ∃ sc, ∀ strict, outcome (.decode strict) s = finishDecode strict s sc := by
  simp only [outcome, decodeBuffer]
  split_ifs
  · exact .inl ⟨lengthError .bufLen, by decide, fun _ => rfl⟩
  · exact .inl ⟨lengthError .codeN, by decide, fun _ => rfl⟩
  · exact .inl ⟨.operand .padRange s.pad.toNat, by simp [CmdError.code], fun _ => rfl⟩
  · cases htab : codeTableError s.cfg s.codeTable with
    | some e =>
      obtain ⟨sub, j, rfl, -⟩ := codeTableError_operand htab
      exact .inl ⟨.operand sub j, by simp [CmdError.code], fun _ => rfl⟩
    | none =>
      cases scanBits s.codeTable s.cfg.textMax (s.bufferBits.take (8 * s.bufLen.toNat - s.pad.toNat)) 0 Scan.begin with
      | none => exact .inl ⟨.capacity .text, by decide, fun _ => rfl⟩
      | some sc => exact .inr ⟨sc, fun _ => rfl⟩

/-- `WARN` is bit 8 of `STATUS` (R24). -/
theorem warnField_statusWord (warn : Bool) (sub err : BitVec 4) : warnField (statusWord warn sub err) = warn :=
  calc (BitVec.ofBool warn ++ sub ++ err).getLsbD 8
      = (BitVec.ofBool warn ++ sub).getLsbD 4 := BitVec.getLsbD_append
    _ = (BitVec.ofBool warn).getLsbD 0 := BitVec.getLsbD_append
    _ = warn := by simp

/-- Where the two modes answer the same state, without a warning and without a `CorruptStreamError`, both parts of R247
hold. -/
theorem warning_iff_of_same_answer {s t : State} (hw : warnField t.status = false) (hne : t.status ≠ 0x003)
    (h : exec (.decode true) s = .next t) :
    (warnField t.status = true ↔
      exec (.decode true) s = .next { s with status := 0x003, errinfo := t.errinfo }) ∧
    (warnField t.status = false → exec (.decode true) s = .next t) := by
  refine ⟨iff_of_false (by simp [hw]) fun hcorrupt => hne ?_, fun _ => h⟩
  rw [h, Host.Outcome.next.injEq] at hcorrupt
  rw [hcorrupt]

/-- Settles O48: up to the trailing bits the modes do the same; where these are not clean, best effort warns and strict
mode raises, both with the scan's `start`. -/
theorem warningMeansStrictFails : Obligations.WarningMeansStrictFails := by
  intro s t hexec
  have answer : ∀ {u}, exec (.decode false) s = .next u → u = t := fun hu => by
    rw [hexec, Host.Outcome.next.injEq] at hu
    exact hu.symm
  rcases decodeBuffer_modes s with ⟨e, hcode, he⟩ | ⟨sc, hsc⟩
  · obtain rfl := answer (State.conclude_error (he false))
    refine warning_iff_of_same_answer (warnField_statusWord ..) (fun h3 => hcode ?_) (State.conclude_error (he true))
    rw [← e.errField_status]
    exact congrArg errField h3
  · cases hclean : cleanTail (s.bufferBits.drop sc.start) with
    | true =>
      obtain rfl := answer (State.conclude_ok ((hsc false).trans (finishDecode_clean hclean)))
      exact warning_iff_of_same_answer (warnField_statusWord ..) (show statusOk ≠ 0x003 by decide)
        (State.conclude_ok ((hsc true).trans (finishDecode_clean hclean)))
    | false =>
      obtain rfl := answer (State.conclude_ok ((hsc false).trans (finishDecode_bestEffort hclean)))
      have hwarn : warnField statusWarn = true := warnField_statusWord ..
      have hstrict := exec_of_error ((hsc true).trans (finishDecode_strict hclean)) (status_corruptStream _) rfl
      exact ⟨iff_of_true hwarn hstrict, fun h => absurd (hwarn.symm.trans h) (by decide)⟩

end Sys2Proof.Machine
end

section
/-! The candidate register of `CODE_MAX` bits against the unbounded candidate (spec 44_decode.md R203, R208). -/

namespace Sys2Proof.Machine

/-- What a scan recovers: the symbols and the first trailing bit. -/
def Scan.result (sc : Scan) : List Word × Nat := (sc.out, sc.start)

/-- A full register takes no further bit (R208). -/
theorem boundedScan_full {t : List CodeEntry} {limit cap : Nat} {sc : Scan} (h : sc.cand.len = limit) (bs : List Bool)
    (k : Nat) : boundedScan t limit cap bs k sc = some sc := by
  induction bs generalizing k with
  | nil => rfl
  | cons b bs ih => simp only [boundedScan, boundedStep, if_pos h, ih]

/-- A candidate as long as the longest code matches no entry again: it takes all the bits that are left (R203, R208). -/
theorem scanBits_full {t : List CodeEntry} {limit cap : Nat} {sc : Scan} (ht : ∀ e ∈ t, e.code.len ≤ limit)
    (h : sc.cand.len = limit) (bs : List Bool) (k : Nat) :
    (scanBits t cap bs k sc).map Scan.result = some sc.result := by
  have hno : ∀ ys, ys ≠ [] → ys <+: bs → ∀ e ∈ t, e.code.str ≠ sc.cand.str ++ ys := by
    intro ys hy _ e he heq
    have hpos := List.length_pos_iff.2 hy
    have hle := ht e he
    have hlen := congrArg List.length heq
    simp only [List.length_append, Code.length_str] at hlen
    omega
  have hscan := scanBits_no_match (cap := cap) bs [] k sc hno
  rw [List.append_nil] at hscan
  rw [hscan]
  rfl

/-- One bit lengthens the candidate by at most that bit. -/
theorem Scan.step_cand_le {t : List CodeEntry} {cap k : Nat} {b : Bool} {sc sc' : Scan}
    (h : Scan.step t cap sc k b = some sc') : sc'.cand.len ≤ sc.cand.len + 1 := by
  unfold Scan.step at h
  split at h
  · split_ifs at h
    cases h
    exact Nat.zero_le _
  · cases h
    exact Nat.le_refl _

/-- Up to the bit that fills the register the two scans are one, and after it neither recovers anything (R208). -/
theorem boundedScan_result {t : List CodeEntry} {limit cap : Nat} (ht : ∀ e ∈ t, e.code.len ≤ limit) (bs : List Bool)
    (k : Nat) {sc : Scan} (h : sc.cand.len ≤ limit) :
    (boundedScan t limit cap bs k sc).map Scan.result = (scanBits t cap bs k sc).map Scan.result := by
  induction bs generalizing k sc with
  | nil => rfl
  | cons b bs ih =>
    by_cases hfull : sc.cand.len = limit
    · rw [boundedScan_full hfull, scanBits_full ht hfull, Option.map_some]
    · simp only [boundedScan, boundedStep, scanBits, if_neg hfull]
      cases hstep : Scan.step t cap sc k b with
      | none => rfl
      | some next =>
        have := Scan.step_cand_le hstep
        exact ih (k + 1) (by omega)

/-- Settles O58: both scans begin with the empty candidate, and no code is longer than `CODE_MAX`. -/
theorem boundedCandidateIsEnough : Obligations.BoundedCandidateIsEnough := by
  intro c t cap bs hw
  exact boundedScan_result (fun e he => (hw.lengths e he).2) bs 0 (Nat.zero_le _)

end Sys2Proof.Machine
end

section
/-! The control commands `NOP` and `CLEAR` (spec 45_control.md R230, R231). -/

namespace Sys2Proof.Machine

/-- A success without a warning leaves the record 0 (R24, R25). -/
theorem State.succeed_eq (s : State) : s.succeed = { s with status := 0, errinfo := 0 } := by
  rw [State.succeed, statusOk_eq]

/-- A command whose outcome is a success answers that state with the record 0. -/
theorem exec_of_succeed {i : Instr} {s t : State} (h : outcome i s = .ok t.succeed) :
    exec i s = .next { t with status := 0, errinfo := 0 } := by
  rw [exec_eq, State.conclude_ok h, State.succeed_eq]

/-- Settles O24: `NOP` succeeds in the state it finds. -/
theorem nopClearsStatus : Obligations.NopClearsStatus :=
  fun s => exec_of_succeed (t := s) rfl

/-- Settles O25: `CLEAR` succeeds in the state with every object empty. -/
theorem clearEmptiesObjects : Obligations.ClearEmptiesObjects :=
  fun s => exec_of_succeed (t := s.emptyObjects) rfl

end Sys2Proof.Machine
end

section
/-! The record that a command leaves in `STATUS` and `ERRINFO` (spec 60_exceptions.md R240 to R243, R248, R249): what an
error writes, what else a failing command changes, and that no command reads it. -/

namespace Sys2Proof.Machine

/-! ## The values of an error -/

/-- `SUB` is bits 7:4 of `STATUS` (R24). -/
theorem subField_statusWord (warn : Bool) (sub err : BitVec 4) : subField (statusWord warn sub err) = sub := by
  unfold subField statusWord
  rw [BitVec.extractLsb'_append_eq_of_le (by decide)]
  exact BitVec.extractLsb'_append_eq_right

/-- Settles O21: the fields are those that `STATUS` is put together from, and the tables are read off row by row. -/
theorem errorRecordValues : Obligations.ErrorRecordValues := by
  refine ⟨fun e => ⟨e.errField_status, subField_statusWord .., warnField_statusWord ..⟩, ⟨by decide, rfl⟩,
    fun k => ⟨status_unknownSymbol k, rfl⟩, fun k => ⟨status_corruptStream k, rfl⟩,
    fun w => ⟨status_illegalCommand w, rfl⟩, fun sub => ⟨rfl, ?_⟩, fun sub k => ⟨rfl, ?_⟩⟩
  · cases sub <;> decide
  · change statusWord false sub.code 6 = _
    cases sub <;> decide

/-! ## A failing command -/

/-- A command that commits writes one of the two values of a success (R10, R206). -/
theorem outcome_status {i : Instr} {s t : State} (h : outcome i s = .ok t) :
    t.status = statusOk ∨ t.status = statusWarn := by
  cases i with
  | nop => cases h; exact .inl rfl
  | clear => cases h; exact .inl rfl
  | count =>
    obtain ⟨-, -, rfl⟩ := countFrequencies_eq_ok.1 h
    exact .inl rfl
  | build =>
    obtain ⟨-, -, -, -, rfl⟩ := buildTree_eq_ok.1 h
    exact .inl rfl
  | gen =>
    obtain ⟨-, rfl⟩ := generateCodes_eq_ok.1 h
    exact .inl rfl
  | encode =>
    obtain ⟨-, -, -, es, -, -, rfl⟩ := encodeText_eq_ok.1 h
    exact .inl rfl
  | decode strict =>
    obtain ⟨sc, rfl | ⟨-, rfl⟩⟩ := decodeBuffer_commits h
    · exact .inl rfl
    · exact .inr rfl

/-- A command that commits leaves `ERR = 0` (R240). -/
theorem errField_of_outcome_ok {i : Instr} {s t : State} (h : outcome i s = .ok t) : errField t.status = 0 := by
  rcases outcome_status h with hst | hst <;> rw [hst] <;> decide

/-- Settles O20: with `ERR` not 0 the command did not commit, so it took an error, which is recorded and no more. -/
theorem failingCommandKeepsState : Obligations.FailingCommandKeepsState := by
  intro i s t h herr
  rcases exec_cases h with hok | ⟨e, -, rfl⟩
  · exact absurd (errField_of_outcome_ok hok) herr
  · exact ⟨e, rfl⟩

/-! ## The record is never read (R249) -/

/-- No test of a command looks at the record, and every commit writes both registers. -/
theorem outcome_ignores_record (i : Instr) (s : State) (st : BitVec 9) (info : Word) :
    outcome i { s with status := st, errinfo := info } = outcome i s := by
  cases i <;> rfl

/-- Settles O23: the outcome does not depend on the old record, and both ends of a command overwrite it. -/
theorem commandsIgnoreRecordedError : Obligations.CommandsIgnoreRecordedError := by
  intro i s st info
  rw [exec_eq, exec_eq, outcome_ignores_record]
  cases outcome i s with
  | ok t => rfl
  | error e => rfl

end Sys2Proof.Machine
end

section
/-! The order of the code table's entries (spec 70_reset_and_hazards.md R277). What `ENCODE` and `DECODE` do on a
well-formed table is fixed by which entries the table has: the spelling of a text, the parse of the code bits and
well-formedness itself do not speak of their places. -/

namespace Sys2Proof.Machine

/-- Conditions (2) to (5) of R32 do not depend on the order of the entries. -/
theorem CodeWF.perm {c : Config} {t t' : List CodeEntry} (h : CodeWF c t) (hp : t'.Perm t) : CodeWF c t' where
  lengths := fun e he => h.lengths e (hp.mem_iff.1 he)
  bits := fun e he => h.bits e (hp.mem_iff.1 he)
  symbols := (hp.map _).nodup_iff.2 h.symbols
  prefixFree := by
    intro i j d e hd he hij hpre
    have hnodup : t'.Nodup := hp.nodup_iff.2 (.of_map _ h.symbols)
    have hsame : d = e :=
      h.eq_of_prefix (hp.mem_iff.1 (List.mem_of_getElem? hd)) (hp.mem_iff.1 (List.mem_of_getElem? he)) hpre
    have hi : i < t'.length := (List.getElem?_eq_some_iff.1 hd).1
    exact hij ((List.getElem?_inj hi hnodup).1 (by rw [hd, he, hsame]))

theorem Spells.perm {t t' es : List CodeEntry} {xs : List Word} (h : Spells t es xs) (hp : t'.Perm t) :
    Spells t' es xs :=
  ⟨fun e he => hp.mem_iff.2 (h.1 e he), h.2⟩

/-- Where `ENCODE` succeeds, it does on the permuted table, with the same buffer (R180). -/
theorem agree_encode_perm {s s' t : State} (hc : s.cfg.WellFormed) (hcfg : s'.cfg = s.cfg) (hlen : s'.txtLen = s.txtLen)
    (htext : s'.text = s.text) (hN : s'.codeN = s.codeN) (hp : s'.codeTable.Perm s.codeTable)
    (hok : outcome .encode s = .ok t) :
    Agree (fun t t' => t'.bufLen = t.bufLen ∧ t'.pad = t.pad ∧ t'.bufferBits = t.bufferBits)
      (outcome .encode s) (outcome .encode s') := by
  obtain ⟨htxt, hmax, hw, es, hsp, hcap, rfl⟩ := encodeText_eq_ok.1 hok
  have hok' : outcome .encode s' = .ok (s'.commitBuffer (streamOf es)).succeed :=
    encodeText_eq_ok.2 ⟨by rwa [hlen, hcfg], by rwa [hN, hcfg], by rw [hcfg]; exact hw.perm hp, es,
      by rw [htext]; exact hsp.perm hp, by rwa [hcfg], rfl⟩
  have hb := (commitBuffer_result hc hcap).1
  have hb' := (commitBuffer_result (s := s') (hcfg.symm ▸ hc) (by rwa [hcfg])).1
  rw [hok, hok']
  exact .ok rfl rfl ⟨rfl, rfl, hb'.trans hb.symm⟩

/-- The code bits have the same parse with the permuted table (R203). -/
theorem Parsed.perm {s s' : State} {es : List CodeEntry} {rest : List Bool} (h : Parsed s es rest)
    (hcfg : s'.cfg = s.cfg) (hB : s'.bufLen = s.bufLen) (hpad : s'.pad = s.pad) (hbits : s'.bufferBits = s.bufferBits)
    (hN : s'.codeN = s.codeN) (hp : s'.codeTable.Perm s.codeTable) : Parsed s' es rest where
  bufLen := by rw [hB, hcfg]; exact h.bufLen
  codeN := by rw [hN, hcfg]; exact h.codeN
  pad := by rw [hpad, hB]; exact h.pad
  table := by rw [hcfg]; exact h.table.perm hp
  entries := fun e he => hp.mem_iff.2 (h.entries e he)
  noCode := fun e he => h.noCode e (hp.mem_iff.1 he)
  bits := by rw [State.codeBits, hB, hpad, hbits]; exact h.bits

/-- The end of the scan reads the trailing bits and the symbols found (R204 to R206). -/
theorem agree_finishDecode {s s' : State} (strict : Bool) {sc : Scan} (hc : s.cfg.WellFormed) (hcfg : s'.cfg = s.cfg)
    (hbits : s'.bufferBits = s.bufferBits) (hlen : sc.out.length ≤ s.cfg.textMax) :
    Agree (fun t t' => t'.txtLen = t.txtLen ∧ t'.text = t.text)
      (finishDecode strict s sc) (finishDecode strict s' sc) := by
  have htext : (s'.commitText sc.out).text = (s.commitText sc.out).text :=
    (State.text_decode (s := s') (hcfg.symm ▸ hc) (hcfg.symm ▸ hlen)).1.trans (State.text_decode hc hlen).1.symm
  simp only [finishDecode, hbits]
  split_ifs
  · exact .ok rfl rfl ⟨rfl, htext⟩
  · exact .error _
  · exact .ok rfl rfl ⟨rfl, htext⟩

/-- Where `DECODE` succeeds, it does on the permuted table, with the same text and record (R200). -/
theorem agree_decode_perm {s s' t : State} (strict : Bool) (hc : s.cfg.WellFormed) (hcfg : s'.cfg = s.cfg)
    (hB : s'.bufLen = s.bufLen) (hpad : s'.pad = s.pad) (hbits : s'.bufferBits = s.bufferBits) (hN : s'.codeN = s.codeN)
    (hp : s'.codeTable.Perm s.codeTable) (hok : outcome (.decode strict) s = .ok t) :
    Agree (fun t t' => t'.txtLen = t.txtLen ∧ t'.text = t.text)
      (outcome (.decode strict) s) (outcome (.decode strict) s') := by
  obtain ⟨hbuf, hmax, hpad8, hw, es, rest, hes, hrest, hparse, hlen, -⟩ := decodeBuffer_ok hok
  have hparsed : Parsed s es rest := ⟨hbuf, hmax, hpad8, hw, hes, hrest, hparse⟩
  rw [hparsed.outcome_eq strict hlen,
    (hparsed.perm hcfg hB hpad hbits hN hp).outcome_eq strict (by rwa [hcfg])]
  exact agree_finishDecode strict hc hcfg hbits (by simpa using hlen)

/-- Where two outcomes agree and the first command succeeds, the second does with the same record and result. -/
theorem Agree.exec_of_success {R : State → State → Prop} {i : Instr} {s s' t : State}
    (h : Agree R (outcome i s) (outcome i s')) (hexec : Machine.exec i s = .next t) (h0 : errField t.status = 0) :
    ∃ t', Machine.exec i s' = .next t' ∧ t'.status = t.status ∧ t'.errinfo = t.errinfo ∧ R t t' := by
  obtain ⟨u, t', hu, ht', hst, hinfo, hres⟩ := h.exec
  obtain rfl : t = u := Host.Outcome.next.inj (hexec.symm.trans hu)
  exact ⟨t', ht', hst, hinfo, hres h0⟩

/-- Settles O52: the entries that spell the text, and the parse of the code bits, are the same for the permuted
table. -/
theorem codecIgnoresEntryOrder : Obligations.CodecIgnoresEntryOrder := by
  intro s s' hc hcfg hN hp
  refine ⟨fun t hlen htext hexec hst => ?_, fun strict t hB hpad hbits hexec h0 => ?_⟩
  · have h0 : errField t.status = 0 := by rw [hst]; decide
    have hagree := agree_encode_perm hc hcfg hlen htext hN hp (outcome_eq_ok hexec h0)
    obtain ⟨t', ht', hst', -, hres⟩ := hagree.exec_of_success hexec h0
    exact ⟨t', ht', hst'.trans hst, hres⟩
  · exact (agree_decode_perm strict hc hcfg hB hpad hbits hN hp (outcome_eq_ok hexec h0)).exec_of_success hexec h0

end Sys2Proof.Machine
end

section
/-! The commands on the empty objects of reset (spec 70_reset_and_hazards.md R272). -/

namespace Sys2Proof.Machine

/-- The empty code table is well-formed (R32). -/
theorem codeWF_nil (c : Config) : CodeWF c [] where
  lengths := by simp
  bits := by simp
  symbols := List.nodup_nil
  prefixFree := by simp

/-- The empty buffer of reset is the codes of no entries, and no bit trails. -/
theorem parsed_resetWith (c : Config) : Parsed (State.resetWith c) [] [] where
  bufLen := Nat.zero_le _
  codeN := Nat.zero_le _
  pad := Nat.zero_le _
  table := codeWF_nil c
  entries := by simp
  noCode := fun _ he => absurd he List.not_mem_nil
  bits := rfl

/-- Settles O17: the commands that succeed commit empty objects, which is what reset holds; the two that fail are the
errors of the empty table and of no tree. -/
theorem commandsAfterReset : Obligations.CommandsAfterReset := by
  intro c _
  have hcount : outcome .count (State.resetWith c) = .ok (State.resetWith c).succeed :=
    countFrequencies_eq_ok.2 ⟨Nat.zero_le _, Nat.zero_le _, rfl⟩
  have hencode : outcome .encode (State.resetWith c) = .ok (State.resetWith c).succeed :=
    encodeText_eq_ok.2 ⟨Nat.zero_le _, Nat.zero_le _, codeWF_nil c, [], ⟨by simp, rfl⟩, Nat.zero_le _, rfl⟩
  have hdecode : ∀ strict, outcome (.decode strict) (State.resetWith c) = .ok (State.resetWith c).succeed :=
    fun strict => ((parsed_resetWith c).outcome_eq strict (Nat.zero_le _)).trans (finishDecode_clean rfl)
  exact ⟨exec_of_succeed hcount, (buildRaises _).2.1 rfl, genRaisesNoTree _ rfl, exec_of_succeed hencode,
    fun strict => exec_of_succeed (hdecode strict)⟩

end Sys2Proof.Machine
end
